-- ==== Sys2Proof/Word.lean ====
section
/-! DEFINITION. The word types of the base64 codec block and the one piece of arithmetic that every length formula uses.

Bit vectors are used only for what the spec slices into bits (R8): a byte, a sextet (a quarter of a group) and a
24-bit group.  Addresses, lengths and counts are natural numbers, because "arithmetic in rules is over the natural
numbers (unbounded, no wrap-around)" (R9); that a register holds fewer than `2^AW` is an invariant (Safety.lean). -/

namespace Sys2Proof

/-- "a byte is 8 bits" (R6). -/
abbrev Byte := BitVec 8

/-- "a 6-bit value 0..63, one quarter of a 24-bit group" (glossary of 00_scope.md). -/
abbrev Sextet := BitVec 6

/-- The 24-bit group of R86: three raw bytes, or four sextets. -/
abbrev Group := BitVec 24

/-- R9: `ceil(a/b) = (a + b - 1) / b`. -/
def divUp (a b : Nat) : Nat := (a + b - 1) / b

end Sys2Proof
end

