-- ==== Sys2Proof/Syntax.lean ====
section
/-! DEFINITION. The operations of the block: one constructor for each row of spec/opcode_table.json (R81).
"There are no immediates inside the command byte: every operand is a whole register" (R80), so no constructor has
an argument. -/

namespace Sys2Proof

/-- The three operations of the operation table (R2, R81). -/
inductive Instr where
  /-- VALID, command byte 0x01, DOC0's `isValidBase64` (R113). -/
  | valid
  /-- ENC, command byte 0x02, DOC0's `encodeBase64` (R133). -/
  | enc
  /-- DEC, command byte 0x03, DOC0's `decodeBase64` (R153). -/
  | dec
deriving DecidableEq, Repr

end Sys2Proof
end

