-- ==== Sys2Proof/Decode.lean ====
section
/-! DEFINITION. The command byte (R21, R80, R81, R84): the decoder, total on every byte and rejecting by name, and
the encoder written from the same table. -/

namespace Sys2Proof

/-- Why a command byte is reserved (R84). -/
inductive DecodeError where
  /-- There is no byte to decode. -/
  | noByte
  /-- OP = 00 with the reserved bits zero: the byte 0x00. -/
  | opZero
  /-- One of the bits 7:2 is set: one of "all 252 bytes with any of bits 7:2 set". -/
  | reservedBits
deriving DecidableEq, Repr

/-- `CMD[1:0] = OP` (R21). -/
def commandOp (c : Byte) : BitVec 2 := c.extractLsb' 0 2

/-- `CMD[7:2]`, "reserved, must be written as zero" (R21). -/
def commandReserved (c : Byte) : BitVec 6 := c.extractLsb' 2 6

/-- R81: the operation of a command byte; R84: every other byte is reserved. -/
def decodeByte (c : Byte) : Except DecodeError Instr :=
  if commandReserved c ≠ 0 then .error .reservedBits
  else if commandOp c = 1 then .ok .valid
  else if commandOp c = 2 then .ok .enc
  else if commandOp c = 3 then .ok .dec
  else .error .opZero

/-- R80: a request is one command byte; what follows it is handed back. -/
def decode : List Byte → Except DecodeError (Instr × List Byte)
  | [] => .error .noByte
  | c :: rest =>
    match decodeByte c with
    | .ok i => .ok (i, rest)
    | .error e => .error e

/-- The OP field of an operation (R81). -/
def Instr.op : Instr → BitVec 2
  | .valid => 1
  | .enc => 2
  | .dec => 3

/-- The command byte of an operation: the reserved bits zero, then OP (R21, R81). -/
def Instr.command (i : Instr) : Byte := (0 : BitVec 6) ++ i.op

/-- The encoder: one byte (R80). -/
def encode (i : Instr) : List Byte := [i.command]

/-- The operation whose bits, numbered as spec/opcode_table.json numbers them, are `w`. -/
def decodeTableWord (nbits w : Nat) : Option Instr :=
  match decode [BitVec.ofNat 8 (w % 2 ^ nbits)] with
  | .ok (i, _) => some i
  | .error _ => none

end Sys2Proof
end

