-- ==== Sys2Proof/Config.lean ====
section
/-! DEFINITION. What a platform fixes for a run (the named parameters of R6) and the free values.

`Params` is plain data.  It stands in State, unchanged by every step, so that every statement about the machine is a
statement about every `AW`, every `Admit` and every placement of the register windows (notes/assumptions/1.md). -/

namespace Sys2Proof

/-- The two kinds of access of the memory port (R6, R50). -/
inductive AccessKind where
  | read
  | write
deriving DecidableEq, Repr

/-- The `len` consecutive byte addresses from `lo` up; empty when `len = 0`. -/
structure Range where
  lo  : Nat
  len : Nat
deriving DecidableEq, Repr

/-- Addresses at which `Admit(kind, addr)` is false (R6, R63). -/
structure Denied where
  kind  : AccessKind
  range : Range
deriving DecidableEq, Repr

/-- `REG_BASE` and `REG_STRIDE` of one register window (R6, R20). -/
structure RegWindow where
  base   : Nat
  stride : Nat
deriving DecidableEq, Repr

/-- The parameters of R6.  `NINST` is the number of blocks in State. -/
structure Params where
  /-- `AW`: the width of an address, of SRC, DST, LEN, RET and of every length. -/
  aw      : Nat
  /-- `Admit` by the ranges it rejects: an address no entry of the kind covers is admitted (R63). -/
  denied  : List Denied
  /-- Addresses that are not plain memory: device registers and the like (R59). -/
  devices : List Range
  /-- The register windows the platform places in this address space (R6, R20, R59). -/
  windows : List RegWindow
deriving DecidableEq, Repr

/-- The suggested defaults of R6: `AW = 32`, `Admit` true everywhere; no device and no register window in the
memory's address space. -/
def Params.default : Params := { aw := 32, denied := [], devices := [], windows := [] }

/-- The free value of an `AW`-bit register read whose value the spec does not fix (R11 "any value"), one for each
draw.  It has no body to reason about. -/
opaque Config.freeWord (aw draw : Nat) : BitVec aw

/-- The free value of a byte the spec does not fix (R11, R63, R212), one for each draw. -/
opaque Config.freeByte (draw : Nat) : Byte

end Sys2Proof
end

