-- ==== Sys2Proof/Machine/Bus.lean ====
section
/-! DEFINITION. What the outside world can do to the block: the six interface registers by number (R20), the actions
of the host and of the other bus agents (R83), and the request syntax with its expansion into host actions (R82). -/

namespace Sys2Proof

/-- The six interface registers of R20. -/
inductive Register where
  | cmd
  | src
  | dst
  | len
  | ret
  | status
deriving DecidableEq, Repr

/-- R20: the register's number. -/
def Register.number : Register → Nat
  | .cmd => 0
  | .src => 1
  | .dst => 2
  | .len => 3
  | .ret => 4
  | .status => 5

/-- R20: "Register numbers 6 and above do not exist". -/
def Register.ofNumber : Nat → Option Register
  | 0 => some .cmd
  | 1 => some .src
  | 2 => some .dst
  | 3 => some .len
  | 4 => some .ret
  | 5 => some .status
  | _ => none

/-- R20: the platform bus address `REG_BASE + number * REG_STRIDE`. -/
def RegWindow.busAddress (w : RegWindow) (r : Register) : Nat := w.base + r.number * w.stride

/-- The addresses of a register window: the six strides from `REG_BASE` (notes/assumptions/8.md). -/
def RegWindow.range (w : RegWindow) : Range := ⟨w.base, 6 * w.stride⟩

/-- One event at the boundary of the block.  State holds the pending events in the order in which they take place. -/
inductive Event where
  /-- `WR reg, v` on block `k` (R83): the host writes `v` to register number `reg`. -/
  | wr (k reg v : Nat)
  /-- `RD reg` on block `k` (R83): the host reads register number `reg`. -/
  | rd (k reg : Nat)
  /-- `WAIT` on block `k` (R83): "repeat `RD STATUS` until the value read has DONE = 1". -/
  | wait (k : Nat)
  /-- An ordinary memory write of the host or of any other agent (R83, R61). -/
  | memWrite (a : Nat) (v : Byte)
  /-- An ordinary memory read of the host or of any other agent (R83, R61). -/
  | memRead (a : Nat)
  /-- Block `k` takes its own action, FINISH, if it has one to take (R33): when an operation finishes is not the
  host's choice (R226), so where this event stands in the order is the environment's. -/
  | turn (k : Nat)
  /-- The reset input of block `k` (R210, R212). -/
  | reset (k : Nat)
deriving DecidableEq, Repr

/-- What a read gave to the agent that made it. -/
inductive Seen where
  | reg (k : Nat) (r : Register) (v : Nat)
  | mem (a : Nat) (v : Byte)
deriving DecidableEq, Repr

/-- The request syntax of R82, output first. -/
inductive Request where
  | valid (src : Nat)
  | enc (dst src n : Nat)
  | dec (dst src : Nat)
deriving DecidableEq, Repr

/-- The operation a request asks for (R82). -/
def Request.instr : Request → Instr
  | .valid _ => .valid
  | .enc _ _ _ => .enc
  | .dec _ _ => .dec

/-- The operands of a request in the order SRC, DST, LEN, with 0 for an operand the operation does not use (R38). -/
def Request.operands : Request → Nat × Nat × Nat
  | .valid src => (src, 0, 0)
  | .enc dst src n => (src, dst, n)
  | .dec dst src => (src, dst, 0)

/-- R83: the host actions a request on block `k` stands for. -/
def Request.expand (k : Nat) : Request → List Event
  | .valid src => [.wr k 1 src, .wr k 0 0x01, .wait k, .rd k 4]
  | .enc dst src n => [.wr k 2 dst, .wr k 1 src, .wr k 3 n, .wr k 0 0x02, .wait k, .rd k 4]
  | .dec dst src => [.wr k 2 dst, .wr k 1 src, .wr k 0 0x03, .wait k, .rd k 4]

end Sys2Proof
end

