-- ==== Sys2Proof/Machine/State.lean ====
section
/-! DEFINITION. The state of the machine (spec 10_state.md, 20_memory.md), its faults and refusals, and reset (R36,
R211). -/

namespace Sys2Proof.Machine

/-- R30: "The phase of an instance is one of IDLE, BUSY, DONE". -/
inductive Phase where
  | idle
  | busy
  | done
deriving DecidableEq, Repr

/-- An operand register (R22 to R24) and whether the host has written it since reset: one that it has not written
"holds no value" (R37). -/
structure OperandReg where
  value   : Nat
  written : Bool
deriving DecidableEq, Repr

/-- The datapath's working registers of R28 that the loops use. -/
structure Work where
  /-- ACC, 24 bits: the current group. -/
  acc  : Group
  /-- IPOS, `AW` bits: the input index `i`. -/
  ipos : Nat
  /-- OPOS, `AW` bits: the output index `j`. -/
  opos : Nat
  /-- PCNT, 2 bits: the padding characters seen. -/
  pcnt : BitVec 2
  /-- SLEN, `AW` bits: the text length `L`. -/
  slen : Nat
deriving DecidableEq, Repr

/-- The read set and the write set of an operation (R54, R55), each a range of addresses. -/
structure Sets where
  reads  : Range
  writes : Range
deriving DecidableEq, Repr

/-- The model's own record of the operation a BUSY block runs: its access sets, taken at START from the memory "as of
START" (R66), and whether its outcome is stuck (R11). -/
structure Job where
  sets  : Sets
  stuck : Bool
deriving DecidableEq, Repr

/-- One instance of the block (R20, R28, R30, R199). CMD holds no state (R21). STATUS is the phase (R26, R30) and is
computed from it. -/
structure Block where
  /-- SRC, register 1 (R22). -/
  src   : OperandReg
  /-- DST, register 2 (R23). -/
  dst   : OperandReg
  /-- LEN, register 3 (R24). -/
  len   : OperandReg
  /-- RET, register 4 (R25). -/
  ret   : Nat
  /-- The phase, shown by STATUS (R30). -/
  phase : Phase
  /-- S_OP (R28). -/
  sOp   : BitVec 2
  /-- S_SRC (R28). -/
  sSrc  : Nat
  /-- S_DST (R28). -/
  sDst  : Nat
  /-- S_LEN (R28). -/
  sLen  : Nat
  /-- ACC, IPOS, OPOS, PCNT, SLEN (R28). -/
  work  : Work
  /-- The model's own: the running operation. -/
  job   : Job
  /-- The model's own: the access sets of the finished operations whose DONE the host has not read yet, the latest
  first (R224, D14, notes/assumptions/25.md). -/
  unseen : List Sets
deriving DecidableEq, Repr

/-- The caller's memory (R50) as the list of the bytes that differ from what an unlisted address reads as, by rising
address. -/
abbrev Memory := List Host.Cell

/-- The platform, the caller's memory, the blocks, and the events still to come. -/
structure State where
  /-- The parameters of the run (R6); no step changes them. -/
  params : Params
  /-- The caller's memory (R50). -/
  mem    : Memory
  /-- The `NINST` blocks (R6, R199). -/
  blocks : List Block
  /-- The model's own: the block whose operation is being executed. -/
  sel    : Nat
  /-- The model's own: the events still to come, the next one first (R83). -/
  script : List Event
  /-- The model's own: what the agents have read, the latest first. -/
  seen   : List Seen
  /-- The model's own: how many free values have been drawn. -/
  draws  : Nat
deriving DecidableEq, Repr

/-- Why the machine stops. The block itself "raises no exception, trap or fault of any kind" (R190). -/
inductive Fault where
  /-- Raised by a memory access of the host or another agent at an address of `2^AW` or more, which does not exist
  (R50). Safe: the model stops. -/
  | addressOutsideSpace
deriving DecidableEq, Repr

/-- Why the model gives a run no meaning: the outcome refuse of R11. Each is safe: the model stops where the spec
gives nothing to prove. -/
inductive Refusal where
  /-- Raised by no arm of this model: an operation without a meaning. Safe. -/
  | notModelled (mnemonic : String)
  /-- Raised by an access to a block of number `NINST` or above, or by an operation on one (R6). Safe. -/
  | noSuchBlock
  /-- Raised by an access to register number 6 or above (R20). Safe. -/
  | noSuchRegister
  /-- Raised by a host write to RET or STATUS (R25, R26, R39). Safe. -/
  | readOnlyRegister
  /-- Raised by a host write to any register of a BUSY block (R32). Safe. -/
  | writeWhileBusy
  /-- Raised by a host write of a value that does not have the register's width: no bus action carries it (R20).
  Safe. -/
  | valueTooWide
  /-- Raised by a CMD write of a reserved byte (R84). Safe. -/
  | reservedCommand
  /-- Raised by a START that uses an operand register not written since reset: "refused by the model" (R31, R37,
  R228). Safe. -/
  | unwrittenOperand
  /-- Raised by an operation whose access sets do not lie in the address space (R56). Safe. -/
  | doesNotFit
  /-- Raised by an operation whose read set and write set meet (R62). Safe. -/
  | buffersOverlap
  /-- Raised by an operation with an address of an access set that is not plain memory (R59). Safe. -/
  | notPlainMemory
  /-- Raised by DEC on a text that is not well-formed, or not a text (R52, R157). Safe. -/
  | malformedText
  /-- Raised by a write of another agent into the read set or write set of an operation before the host has read its
  DONE (R61, R224, D14), and by a START whose sets interfere with those of such an operation of another block (R69,
  D14). Safe. -/
  | bufferInterference
  /-- Raised by a memory access of the host or another agent at an address that is not plain memory, whose device the
  spec does not describe (R65). Safe. -/
  | deviceAccess
deriving DecidableEq, Repr

/-- The working registers as START clears them (R31). -/
def Work.clear : Work := { acc := 0, ipos := 0, opos := 0, pcnt := 0, slen := 0 }

/-- No running operation. -/
def Job.none : Job := { sets := ⟨⟨0, 0⟩, ⟨0, 0⟩⟩, stuck := false }

/-- An operand register after reset: not written; the value it holds is never read (R37). -/
def OperandReg.unwritten : OperandReg := { value := 0, written := false }

/-- A block at the end of reset (R36, R211). -/
def Block.reset : Block :=
  { src := .unwritten, dst := .unwritten, len := .unwritten, ret := 0, phase := .idle
    sOp := 0, sSrc := 0, sDst := 0, sLen := 0, work := .clear, job := .none, unseen := [] }

/-- The machine right after reset, with the suggested parameters of R6: one block, in IDLE; memory with nothing
listed; no event to come. -/
def State.reset : State :=
  { params := .default, mem := [], blocks := [Block.reset], sel := 0, script := [], seen := [], draws := 0 }

end Sys2Proof.Machine
end

