-- ==== Sys2Proof/WellFormed.lean ====
section
/-! DEFINITION. When a term of the model's syntax stands for something that can exist: parameters, host actions and
requests.  An operation has no field (R80), so every `Instr` is well-formed; what the spec refuses of a command byte
is the decoder's (R84). -/

namespace Sys2Proof

/-- Every operation is well-formed: "every operand is a whole register" (R80). -/
def Instr.wf : Instr → Bool
  | .valid => true
  | .enc => true
  | .dec => true

/-- R6: `AW >= 4`; a register window has a stride. -/
def Params.wf (p : Params) : Bool := decide (4 ≤ p.aw) && p.windows.all fun w => decide (1 ≤ w.stride)

/-- R20: the width in bits of a register. -/
def Register.width (p : Params) : Register → Nat
  | .cmd => 8
  | .src => p.aw
  | .dst => p.aw
  | .len => p.aw
  | .ret => p.aw
  | .status => 8

/-- An action on `n` blocks that a bus of `AW`-bit addresses and registers can carry: the block and the register
exist (R6, R20), a written value has the register's width (R20), an address lies in the space (R50). -/
def Event.wf (p : Params) (n : Nat) : Event → Bool
  | .wr k reg v =>
    decide (k < n) && (match Register.ofNumber reg with
      | none => false
      | some r => decide (v < 2 ^ r.width p))
  | .rd k reg => decide (k < n) && (Register.ofNumber reg).isSome
  | .wait k => decide (k < n)
  | .memWrite a _ => decide (a < 2 ^ p.aw)
  | .memRead a => decide (a < 2 ^ p.aw)
  | .turn k => decide (k < n)
  | .reset k => decide (k < n)

/-- R82: "`src`, `dst` are `AW`-bit byte addresses and `n` an `AW`-bit count". -/
def Request.wf (p : Params) : Request → Bool
  | .valid src => decide (src < 2 ^ p.aw)
  | .enc dst src n => decide (dst < 2 ^ p.aw) && decide (src < 2 ^ p.aw) && decide (n < 2 ^ p.aw)
  | .dec dst src => decide (dst < 2 ^ p.aw) && decide (src < 2 ^ p.aw)

end Sys2Proof
end

