-- ==== Sys2Proof/Machine/Ops.lean ====
section
/-! DEFINITION. The named operations over memory, registers and state, the tables of 30_encoding.md, the two
bit-shifters, and START and FINISH (R31, R33), each said once.

Nothing here takes an exception or returns from one: "the block raises no exception, trap or fault of any kind"
(R190) and "there is no return-from-trap operation" (R195). -/

namespace Sys2Proof

/-! ### Ranges of addresses, the platform's predicate, plain memory -/

/-- The address lies in the range. -/
abbrev Range.Has (r : Range) (a : Nat) : Prop := r.lo ≤ a ∧ a < r.lo + r.len

/-- No address lies in both ranges. -/
abbrev Range.Disjoint (r q : Range) : Prop :=
  r.len = 0 ∨ q.len = 0 ∨ r.lo + r.len ≤ q.lo ∨ q.lo + q.len ≤ r.lo

/-- `Admit(kind, addr)` of R6. -/
abbrev Params.Admits (p : Params) (k : AccessKind) (a : Nat) : Prop :=
  ∀ d ∈ p.denied, d.kind = k → ¬ d.range.Has a

/-- `Admit` at every address of a range (R63). -/
abbrev Params.AdmitsAll (p : Params) (k : AccessKind) (r : Range) : Prop :=
  ∀ d ∈ p.denied, d.kind = k → d.range.Disjoint r

/-- The ranges that are not plain memory: devices and "the block's own register window" (R59). -/
def Params.special (p : Params) : List Range := p.devices ++ p.windows.map RegWindow.range

/-- The address is plain memory (R59). -/
abbrev Params.Plain (p : Params) (a : Nat) : Prop := ∀ r ∈ p.special, ¬ r.Has a

/-- Every address of the range is plain memory (R59). -/
abbrev Params.PlainAll (p : Params) (r : Range) : Prop := ∀ q ∈ p.special, q.Disjoint r

namespace Machine

/-! ### Memory -/

/-- What an address that memory does not list reads as (notes/assumptions/2.md). -/
def Memory.unlisted : Byte := 0x00

/-- `MemRead(addr, 1)` (R10). -/
def Memory.read : Memory → Nat → Byte
  | [], _ => Memory.unlisted
  | (k, b) :: rest, a => if a = k then b else Memory.read rest a

/-- `MemWrite(addr, 1, v)` (R10), keeping the canonical form. -/
def Memory.write : Memory → Nat → Byte → Memory
  | [], a, v => if v = Memory.unlisted then [] else [(a, v)]
  | (k, b) :: rest, a, v =>
    if a < k then (if v = Memory.unlisted then (k, b) :: rest else (a, v) :: (k, b) :: rest)
    else if a = k then (if v = Memory.unlisted then rest else (a, v) :: rest)
    else (k, b) :: Memory.write rest a v

/-- Addresses strictly rising from `lo` on, and no byte listed that an unlisted address reads as. -/
def Memory.wfFrom : Nat → Memory → Bool
  | _, [] => true
  | lo, (k, b) :: rest => decide (lo ≤ k) && decide (b ≠ Memory.unlisted) && Memory.wfFrom (k + 1) rest

/-- The canonical form of memory. -/
def Memory.wf (m : Memory) : Bool := Memory.wfFrom 0 m

/-- Every listed address lies below `top`. -/
abbrev Memory.Below (m : Memory) (top : Nat) : Prop := ∀ c ∈ m, c.1 < top

/-- The bytes at `a, a+1, ..., a+n-1` (R51). -/
def Memory.bytes (m : Memory) (a : Nat) : Nat → List Byte
  | 0 => []
  | n + 1 => m.read a :: Memory.bytes m (a + 1) n

/-- Free bytes, from the `draw`-th on, stored at every address of the `n` from `a` up (R212). -/
def Memory.scramble (m : Memory) (a draw : Nat) : Nat → Memory
  | 0 => m
  | n + 1 => Memory.scramble (m.write a (Config.freeByte draw)) (a + 1) (draw + 1) n

/-! ### The special bytes and the three tables of 30_encoding.md -/

/-- The terminator (R88). -/
def NUL : Byte := 0x00

/-- The padding character `=` (R88). -/
def PAD : Byte := 0x3D

/-- `ALPHA`, the alphabet mapper, by its closed form (R91). -/
def alpha (v : Sextet) : Byte :=
  if v.toNat ≤ 25 then BitVec.ofNat 8 (0x41 + v.toNat)
  else if v.toNat ≤ 51 then BitVec.ofNat 8 (0x61 + (v.toNat - 26))
  else if v.toNat ≤ 61 then BitVec.ofNat 8 (0x30 + (v.toNat - 52))
  else if v.toNat = 62 then 0x2B
  else 0x2F

/-- The tagged value the inverse table gives (R94, R95). -/
inductive Reverse where
  | val (v : Sextet)
  | pad
  | inv
deriving DecidableEq, Repr

/-- `REV`, the reverse-alphabet mapper, on all 256 byte values (R94). -/
def rev (c : Byte) : Reverse :=
  let n := c.toNat
  if 0x41 ≤ n ∧ n ≤ 0x5A then .val (BitVec.ofNat 6 (n - 0x41))
  else if 0x61 ≤ n ∧ n ≤ 0x7A then .val (BitVec.ofNat 6 (n - 0x61 + 26))
  else if 0x30 ≤ n ∧ n ≤ 0x39 then .val (BitVec.ofNat 6 (n - 0x30 + 52))
  else if n = 0x2B then .val 62
  else if n = 0x2F then .val 63
  else if n = 0x3D then .pad
  else .inv

/-- `REV(c)` "used as a number means the `v` of `Val(v)`" (R94); `=` "contributes no bits" (R152) and stands as 0,
the value R154 gives it. -/
def revBits (c : Byte) : Sextet :=
  match rev c with
  | .val v => v
  | .pad => 0
  | .inv => 0

/-- The three classes of R96. -/
inductive CharClass where
  | alphaCh
  | padCh
  | invalidCh
deriving DecidableEq, Repr

/-- `CLASS`, the character classifier, defined "from `REV` ... and not as a second table" (R96). -/
def classOf (c : Byte) : CharClass :=
  match rev c with
  | .val _ => .alphaCh
  | .pad => .padCh
  | .inv => .invalidCh

/-! ### The bit-shifters -/

/-- `G = b0 ++ b1 ++ b2` (R86): "the one at the lowest address supplies the most significant 8 bits" (R53). -/
def groupOfBytes (b0 b1 b2 : Byte) : Group := b0 ++ b1 ++ b2

/-- `G = s0 ++ s1 ++ s2 ++ s3` (R86, R152). -/
def groupOfSextets (s0 s1 s2 s3 : Sextet) : Group := s0 ++ s1 ++ s2 ++ s3

/-- The sextet `e` of a group, `e = 0` the most significant: `G[23:18]`, `G[17:12]`, `G[11:6]`, `G[5:0]` (R86). -/
def sextetOf (g : Group) (e : Nat) : Sextet := g.extractLsb' (18 - 6 * e) 6

/-- The byte `e` of a group, `e = 0` the most significant: `G[23:16]`, `G[15:8]`, `G[7:0]` (R86). -/
def byteOf (g : Group) (e : Nat) : Byte := g.extractLsb' (16 - 8 * e) 8

/-- `SPLIT`, the encoder's bit-shifter (R132). -/
def split (b0 b1 b2 : Byte) : Sextet × Sextet × Sextet × Sextet :=
  let g := groupOfBytes b0 b1 b2
  (sextetOf g 0, sextetOf g 1, sextetOf g 2, sextetOf g 3)

/-- `JOIN`, the decoder's bit-shifter (R152). -/
def join (s0 s1 s2 s3 : Sextet) : Byte × Byte × Byte :=
  let g := groupOfSextets s0 s1 s2 s3
  (byteOf g 0, byteOf g 1, byteOf g 2)

/-! ### The named updates of State -/

/-- The memory replaced. -/
def State.setMem (s : State) (m : Memory) : State := { s with mem := m }

/-- Block `k` replaced. -/
def State.putBlock (s : State) (k : Nat) (b : Block) : State := { s with blocks := s.blocks.set k b }

/-- The block whose operation is executed. -/
def State.select (s : State) (k : Nat) : State := { s with sel := k }

/-- The events still to come replaced. -/
def State.setScript (s : State) (es : List Event) : State := { s with script := es }

/-- What a read gave, recorded. -/
def State.observe (s : State) (o : Seen) : State := { s with seen := o :: s.seen }

/-- `n` free values drawn. -/
def State.draw (s : State) (n : Nat) : State := { s with draws := s.draws + n }

/-- Block `k`, if it exists (R6, R199). -/
def State.block? (s : State) (k : Nat) : Option Block := s.blocks[k]?

/-! ### START and FINISH -/

/-- The outcome of an operation but for its value (R11). -/
inductive Verdict where
  | complete
  | stuck
  | refuse (r : Refusal)
deriving DecidableEq, Repr

/-- Which operand registers an operation uses. -/
structure OperandUse where
  src : Bool
  dst : Bool
  len : Bool
deriving DecidableEq, Repr

/-- "VALID uses SRC only ... ENC uses SRC, DST and LEN. DEC uses SRC and DST" (R38). -/
def operandUse : Instr → OperandUse
  | .valid => { src := true, dst := false, len := false }
  | .enc => { src := true, dst := true, len := true }
  | .dec => { src := true, dst := true, len := false }

/-- "every operand register the selected operation uses ... has been written by the host at least once since reset"
(R31). -/
abbrev Block.OperandsWritten (b : Block) (i : Instr) : Prop :=
  ((operandUse i).src = true → b.src.written = true) ∧
  ((operandUse i).dst = true → b.dst.written = true) ∧
  ((operandUse i).len = true → b.len.written = true)

/-- The access sets interfere with neither set of a running operation (R69). -/
def Sets.apart (x y : Sets) : Bool :=
  decide (x.writes.Disjoint y.reads) && decide (x.writes.Disjoint y.writes) && decide (y.writes.Disjoint x.reads)

/-- The access sets that other agents must leave alone: "from START to the observation of DONE = 1" (R224, D14) those
of the running operation, and those of the finished ones whose DONE the host has not read. -/
def Block.held (b : Block) : List Sets := if b.phase = .busy then b.job.sets :: b.unseen else b.unseen

/-- The host has read STATUS with DONE = 1, which ends the duty of R224. -/
def Block.doneRead (b : Block) : Block := { b with unseen := [] }

/-- No block but block `s.sel`, which may meet its own earlier sets (R61), holds access sets that interfere with `x`
(R69, D14). -/
abbrev State.ClearOf (s : State) (x : Sets) : Prop :=
  ∀ k < s.blocks.length, k ≠ s.sel → ∀ b ∈ s.block? k, ∀ y ∈ b.held, x.apart y = true

/-- The block after START of operation `i` (R31): the operands the operation uses are sampled, the working registers
cleared, BUSY set and DONE cleared; "SRC, DST, LEN and RET are unchanged".  DESIGN CHOICE: a START of VALID keeps the
old S_DST and S_LEN, and one of DEC the old S_LEN, as R31's "ENC and DEC only" and "ENC only" read, where R28 has every
working register loaded or cleared (notes/assumptions/24.md). -/
def Block.started (b : Block) (i : Instr) (j : Job) : Block :=
  { b with
    phase := .busy
    sOp := i.op
    sSrc := b.src.value
    sDst := if (operandUse i).dst then b.dst.value else b.sDst
    sLen := if (operandUse i).len then b.len.value else b.sLen
    work := .clear
    job := j }

/-- START (R31) of operation `i` on block `s.sel`, which is `b`, with the access sets `x` and the verdict `v` that the
operation's rule gives for the operands and the memory as they are now.  An outcome that is refuse marks the run at
START (notes/assumptions/5.md). -/
def startOperation (i : Instr) (x : Sets) (v : Verdict) (b : Block) (s : State) :
    Host.Outcome State Fault Refusal :=
  if ¬ b.OperandsWritten i then .refused .unwrittenOperand
  else
    match v with
    | .refuse r => .refused r
    | .complete =>
      if s.ClearOf x then .next (s.putBlock s.sel (b.started i ⟨x, false⟩)) else .refused .bufferInterference
    | .stuck =>
      if s.ClearOf x then .next (s.putBlock s.sel (b.started i ⟨x, true⟩)) else .refused .bufferInterference

/-- What the loop of an operation's rule leaves: memory, the working registers, and the `v` of `finish(v)`. -/
structure Result where
  mem  : Memory
  work : Work
  ret  : Nat
deriving DecidableEq, Repr

/-- The block after FINISH: `RET <- v`, `BUSY <- 0`, `DONE <- 1` (R33); the host has not read that DONE yet. -/
def Block.finished (b : Block) (r : Result) : Block :=
  { b with ret := r.ret, phase := .done, work := r.work, job := .none, unseen := b.job.sets :: b.unseen }

/-- FINISH (R33) on block `s.sel`, which is `b`, with the verdict `v` and the result `r` of the operation's rule for
the sampled operands and the memory.  "If the outcome is stuck, FINISH never happens, the phase stays BUSY". -/
def finishOperation (v : Verdict) (r : Result) (b : Block) (s : State) : Host.Outcome State Fault Refusal :=
  if b.job.stuck then .next s
  else
    match v with
    | .refuse why => .refused why
    | .stuck => .next s
    | .complete => .next ((s.setMem r.mem).putBlock s.sel (b.finished r))

end Machine
end Sys2Proof
end

