-- ==== Sys2Proof/Machine/Operands.lean ====
section
/-! DEFINITION. What an operation's operands designate: the text at an address (R51, R52), its padding and
well-formedness (R111), the access sets (R54, R55), and the conditions that decide an operation's outcome (R56, R59,
R62, R63). -/

namespace Sys2Proof.Machine

/-! ### Texts -/

/-- The scan for the terminator: how many of the `fuel` bytes from `a` up precede the first 0x00 (R52). -/
def scanText (m : Memory) : (fuel a : Nat) → Option Nat
  | 0, _ => none
  | k + 1, a => if m.read a = NUL then some 0 else (scanText m k (a + 1)).map (· + 1)

/-- `L(a)` of R52: "the least `k >= 0` such that `a + k <= 2^AW - 1` and the byte at `a + k` is 0x00"; none where the
text is unterminated. -/
def textLen (p : Params) (m : Memory) (a : Nat) : Option Nat := scanText m (2 ^ p.aw - a) a

/-- `p(t)`: "the length of the longest run of `PAD` characters at the end of `t`" (R111). -/
def padCount (t : List Byte) : Nat := (t.reverse.takeWhile fun c => decide (c = PAD)).length

/-- `WF(t)` of R111, its three clauses. -/
abbrev WF (t : List Byte) : Prop :=
  t.length % 4 = 0 ∧ padCount t ≤ 2 ∧ ∀ c ∈ t.take (t.length - padCount t), classOf c = .alphaCh

/-- "Decoded length = `3*(L/4) - p`" (R115). -/
def decodedLen (t : List Byte) : Nat := 3 * (t.length / 4) - padCount t

/-- `4*ceil(n/3)`, the characters ENC writes (R135). -/
def encodedLen (n : Nat) : Nat := 4 * divUp n 3

/-! ### Access sets -/

/-- How many of the `fuel` addresses from `a` up an endless scan asks for: "up to the first non-admitted address or
the top address" (R63). -/
def askedFrom (p : Params) : (fuel a : Nat) → Nat
  | 0, _ => 0
  | k + 1, a => if p.Admits .read a then askedFrom p k (a + 1) + 1 else 1

/-- The addresses the scan of an unterminated text at `a` asks for (R63). -/
def askedRange (p : Params) (a : Nat) : Range := ⟨a, askedFrom p (2 ^ p.aw - a) a⟩

/-- The addresses of the text at `a` and its terminator, `a + k` for `0 <= k <= L` (R54). -/
def textRange (p : Params) (m : Memory) (a : Nat) : Range :=
  match textLen p m a with
  | some n => ⟨a, n + 1⟩
  | none => askedRange p a

/-- VALID reads its text and writes nothing (R54, R55). -/
def validSets (p : Params) (m : Memory) (src : Nat) : Sets := ⟨textRange p m src, ⟨0, 0⟩⟩

/-- ENC reads `n` bytes and writes `4*ceil(n/3) + 1` (R54, R55). -/
def encSets (src dst n : Nat) : Sets := ⟨⟨src, n⟩, ⟨dst, encodedLen n + 1⟩⟩

/-- DEC reads its text and writes `m = 3*(L/4) - p` bytes (R54, R55). -/
def decSets (p : Params) (m : Memory) (src dst : Nat) : Sets :=
  ⟨textRange p m src,
   ⟨dst, match textLen p m src with
      | some n => decodedLen (m.bytes src n)
      | none => 0⟩⟩

/-! ### The outcome of an operation -/

/-- The conditions that every operation's access sets meet alike: plain memory (R59) and disjoint (R62), otherwise
refuse; admitted (R63), otherwise stuck; "when a condition for refuse and a condition for stuck both hold, the outcome
is refuse" (R11). -/
def judgeSets (p : Params) (x : Sets) : Verdict :=
  if ¬ (p.PlainAll x.reads ∧ p.PlainAll x.writes) then .refuse .notPlainMemory
  else if ¬ x.reads.Disjoint x.writes then .refuse .buffersOverlap
  else if p.AdmitsAll .read x.reads ∧ p.AdmitsAll .write x.writes then .complete
  else .stuck

/-- The outcome of VALID (R113): an unterminated text is stuck (R52, R63). -/
def validVerdict (p : Params) (m : Memory) (src : Nat) : Verdict :=
  match textLen p m src with
  | none => if p.PlainAll (askedRange p src) then .stuck else .refuse .notPlainMemory
  | some _ => judgeSets p (validSets p m src)

/-- The fit conditions of ENC (R56, R131). -/
abbrev EncFits (p : Params) (src dst n : Nat) : Prop :=
  (0 < n → src + n ≤ 2 ^ p.aw) ∧ dst + encodedLen n ≤ 2 ^ p.aw - 1

/-- The outcome of ENC (R133). -/
def encVerdict (p : Params) (src dst n : Nat) : Verdict :=
  if EncFits p src dst n then judgeSets p (encSets src dst n) else .refuse .doesNotFit

/-- The fit condition of DEC for a text that decodes to `n` bytes (R56). -/
abbrev DecFits (p : Params) (dst n : Nat) : Prop := 0 < n → dst + n ≤ 2 ^ p.aw

/-- The outcome of DEC (R153): a run of bytes that is not a well-formed text is refuse (R52, R157). -/
def decVerdict (p : Params) (m : Memory) (src dst : Nat) : Verdict :=
  match textLen p m src with
  | none => .refuse .malformedText
  | some n =>
    if ¬ WF (m.bytes src n) then .refuse .malformedText
    else if ¬ DecFits p dst (decodedLen (m.bytes src n)) then .refuse .doesNotFit
    else judgeSets p (decSets p m src dst)

end Sys2Proof.Machine
end

