-- ==== Sys2Proof/Machine/Decoder.lean ====
section
/-! DEFINITION. The operation DEC (R153), spec 42_decoder.md. -/

namespace Sys2Proof.Machine

/-- `s0 ++ s1 ++ s2 ++ s3` of the four characters from `a` up, "'=' contributes no bits" (R153). -/
def sextetsAt (m : Memory) (a : Nat) : Group :=
  groupOfSextets (revBits (m.read a)) (revBits (m.read (a + 1))) (revBits (m.read (a + 2))) (revBits (m.read (a + 3)))

/-- One group of R153: the characters at `src + i`, three, two or one bytes at `dst + j` by the padding parser (R152);
`i` is IPOS, `j` is OPOS, `G` is ACC.  DESIGN CHOICE: PCNT counts the `=` seen, as R28's table has it for the decoder's
padding parser, where the pseudocode of R153 does not write it (notes/assumptions/26.md). -/
def decGroup (src dst : Nat) (m : Memory) (w : Work) : Memory × Work :=
  let c2 := m.read (src + w.ipos + 2)
  let c3 := m.read (src + w.ipos + 3)
  let g := sextetsAt m (src + w.ipos)
  let w' := { w with acc := g, ipos := w.ipos + 4 }
  let a := dst + w.opos
  if c2 = PAD then
    (m.write a (byteOf g 0), { w' with opos := w.opos + 1, pcnt := w.pcnt + 2 })
  else if c3 = PAD then
    ((m.write a (byteOf g 0)).write (a + 1) (byteOf g 1), { w' with opos := w.opos + 2, pcnt := w.pcnt + 1 })
  else
    (((m.write a (byteOf g 0)).write (a + 1) (byteOf g 1)).write (a + 2) (byteOf g 2), { w' with opos := w.opos + 3 })

/-- The loop of R153: group after group until the terminator is read at a group boundary. -/
def decLoop (src dst : Nat) : (groups : Nat) → Memory → Work → Memory × Work
  | 0, m, w => (m, w)
  | k + 1, m, w =>
    if m.read (src + w.ipos) = NUL then (m, w)
    else
      let r := decGroup src dst m w
      decLoop src dst k r.1 r.2

/-- What DEC leaves for the text of length `n` at `src`, "meaningful only under the precondition `WF(t)`" (R153): a
text of length `n` has `n / 4` groups.  DESIGN CHOICE: SLEN is `L`, as R28's table has it for the decoder, where the
pseudocode of R153 does not write it (notes/assumptions/26.md). -/
def decRun (m : Memory) (src dst n : Nat) : Result :=
  let r := decLoop src dst (n / 4) m { Work.clear with slen := n }
  { mem := r.1, work := r.2, ret := r.2.opos }

/-- What DEC leaves for the text at `src` (R153); an unterminated run of bytes has no result (R52, R157). -/
def decResult (p : Params) (m : Memory) (src dst : Nat) : Result :=
  match textLen p m src with
  | some n => decRun m src dst n
  | none => { mem := m, work := .clear, ret := 0 }

/-- The operation DEC on block `s.sel` (R153): its START (R31) while the block is IDLE or DONE, its FINISH (R33)
while it is BUSY. -/
def execDec (s : State) : Host.Outcome State Fault Refusal :=
  match s.block? s.sel with
  | none => .refused .noSuchBlock
  | some b =>
    if b.phase = .busy then
      finishOperation (decVerdict s.params s.mem b.sSrc b.sDst) (decResult s.params s.mem b.sSrc b.sDst) b s
    else
      startOperation .dec (decSets s.params s.mem b.src.value b.dst.value)
        (decVerdict s.params s.mem b.src.value b.dst.value) b s

end Sys2Proof.Machine
end

