-- ==== Sys2Proof/Machine/Encoder.lean ====
section
/-! DEFINITION. The operation ENC (R133), spec 41_encoder.md. -/

namespace Sys2Proof.Machine

/-- The character ENC writes at position `e` of a group with `chars` real characters (R87, R132). -/
def groupChar (g : Group) (chars e : Nat) : Byte := if e < chars then alpha (sextetOf g e) else PAD

/-- The bodies of R133 that write one group at `dst + j`: `ALPHA` of the first `chars` sextets of `g`, then `=` up to
four characters (R87, R132). -/
def encGroup (m : Memory) (a : Nat) (g : Group) (chars : Nat) : Memory :=
  (((m.write a (groupChar g chars 0)).write (a + 1) (groupChar g chars 1)).write (a + 2) (groupChar g chars 2)).write
    (a + 3) (groupChar g chars 3)

/-- `MemRead(a, 1) ++ MemRead(a+1, 1) ++ MemRead(a+2, 1)` (R133). -/
def groupAt (m : Memory) (a : Nat) : Group := groupOfBytes (m.read a) (m.read (a + 1)) (m.read (a + 2))

/-- The loop over the full groups of R133, `groups` of them still to come; `i` is IPOS, `j` is OPOS, `G` is ACC. -/
def encLoop (src dst : Nat) : (groups : Nat) → Memory → Work → Memory × Work
  | 0, m, w => (m, w)
  | k + 1, m, w =>
    let g := groupAt m (src + w.ipos)
    encLoop src dst k (encGroup m (dst + w.opos) g 4)
      { w with acc := g, ipos := w.ipos + 3, opos := w.opos + 4 }

/-- The padding logic of R133 and R132: the partial group of `r` bytes, 1 or 2; "the missing bytes are not read from
memory; they are constant zero".  DESIGN CHOICE: IPOS advances by `r`, so that it "counts input positions consumed"
(R27), where the pseudocode of R133 leaves `i` at the start of the partial group (notes/assumptions/23.md). -/
def encTail (src dst r : Nat) (m : Memory) (w : Work) : Memory × Work :=
  if r = 1 then
    let g := groupOfBytes (m.read (src + w.ipos)) 0 0
    (encGroup m (dst + w.opos) g 2, { w with acc := g, ipos := w.ipos + 1, opos := w.opos + 4 })
  else if r = 2 then
    let g := groupOfBytes (m.read (src + w.ipos)) (m.read (src + w.ipos + 1)) 0
    (encGroup m (dst + w.opos) g 3, { w with acc := g, ipos := w.ipos + 2, opos := w.opos + 4 })
  else (m, w)

/-- What ENC leaves (R133): the full groups, "while `n - i >= 3`", the partial group, the terminator, and
`finish(j + 1)`. -/
def encResult (m : Memory) (src dst n : Nat) : Result :=
  let full := encLoop src dst (n / 3) m .clear
  let all := encTail src dst (n - full.2.ipos) full.1 full.2
  { mem := all.1.write (dst + all.2.opos) NUL, work := all.2, ret := all.2.opos + 1 }

/-- The operation ENC on block `s.sel` (R133): its START (R31) while the block is IDLE or DONE, its FINISH (R33)
while it is BUSY. -/
def execEnc (s : State) : Host.Outcome State Fault Refusal :=
  match s.block? s.sel with
  | none => .refused .noSuchBlock
  | some b =>
    if b.phase = .busy then
      finishOperation (encVerdict s.params b.sSrc b.sDst b.sLen) (encResult s.mem b.sSrc b.sDst b.sLen) b s
    else
      startOperation .enc (encSets b.src.value b.dst.value b.len.value)
        (encVerdict s.params b.src.value b.dst.value b.len.value) b s

end Sys2Proof.Machine
end

