-- ==== Sys2Proof/Machine/Validator.lean ====
section
/-! DEFINITION. The operation VALID (R113), spec 40_validator.md. -/

namespace Sys2Proof.Machine

/-- Steps 3 to 5 of R113 on the text of length `n` at `src`: the classifier, left to right over the `fuel` characters
still to come; `i` is IPOS and `p` is PCNT. The `Nat` is the `v` of `finish(v)`. DESIGN CHOICE: IPOS is the index of
the character that makes VALID reject, and `L` where the loop runs to its end (notes/assumptions/27.md). -/
def validScan (m : Memory) (src n : Nat) : (fuel : Nat) → Work → Nat × Work
  | 0, w => (3 * (n / 4) - w.pcnt.toNat, w)
  | k + 1, w =>
    match classOf (m.read (src + w.ipos)) with
    | .invalidCh => (0, w)
    | .padCh =>
      if w.ipos < n - 2 then (0, w)
      else validScan m src n k { w with pcnt := w.pcnt + 1, ipos := w.ipos + 1 }
    | .alphaCh =>
      if 0 < w.pcnt.toNat then (0, w) else validScan m src n k { w with ipos := w.ipos + 1 }

/-- Steps 1 to 5 of R113 on the text of length `n` at `src`; VALID writes no memory (R110). -/
def validRun (m : Memory) (src n : Nat) : Result :=
  let w := { Work.clear with slen := n }
  if n = 0 then { mem := m, work := w, ret := 0 }
  else if n % 4 ≠ 0 then { mem := m, work := w, ret := 0 }
  else
    let r := validScan m src n n w
    { mem := m, work := r.2, ret := r.1 }

/-- What VALID leaves for the text at `src` (R113); an unterminated text has no result (R52). -/
def validResult (p : Params) (m : Memory) (src : Nat) : Result :=
  match textLen p m src with
  | some n => validRun m src n
  | none => { mem := m, work := .clear, ret := 0 }

/-- The operation VALID on block `s.sel` (R113): its START (R31) while the block is IDLE or DONE, its FINISH (R33)
while it is BUSY. -/
def execValid (s : State) : Host.Outcome State Fault Refusal :=
  match s.block? s.sel with
  | none => .refused .noSuchBlock
  | some b =>
    if b.phase = .busy then
      finishOperation (validVerdict s.params s.mem b.sSrc) (validResult s.params s.mem b.sSrc) b s
    else
      startOperation .valid (validSets s.params s.mem b.src.value) (validVerdict s.params s.mem b.src.value) b s

end Sys2Proof.Machine
end

