-- ==== Sys2Proof/Machine/Flags.lean ====
section
/-! DEFINITION. The STATUS register and its two flags (R26, R30). "These two bits are the only flags of the block ...
there are no condition codes" (R26). -/

namespace Sys2Proof.Machine

/-- `STATUS[0] = BUSY` (R26). -/
def Phase.busyBit : Phase → BitVec 1
  | .idle => 0
  | .busy => 1
  | .done => 0

/-- `STATUS[1] = DONE` (R26). -/
def Phase.doneBit : Phase → BitVec 1
  | .idle => 0
  | .busy => 0
  | .done => 1

/-- STATUS: "`STATUS[7:2]` read as zero", then DONE, then BUSY (R26). -/
def Phase.status (p : Phase) : Byte := (0 : BitVec 6) ++ p.doneBit ++ p.busyBit

end Sys2Proof.Machine
end

