-- ==== Sys2Proof/Machine/Actions.lean ====
section
/-! DEFINITION. What each event at the block's boundary does: the host's register accesses by phase (R20 to R26,
R32, R34, R39), WAIT (R83), the block's own action (R33), memory accesses of the other agents (R61), and reset (R211,
R212). -/

namespace Sys2Proof.Machine

/-! ### Register writes -/

/-- What a host write to a register of block `b` that the host may write does: `act`, unless the block is BUSY (R32, R39).
DESIGN CHOICE: in DONE it is `act` also before a STATUS read has shown DONE = 1, as R21, R31, R34, R39 and D8 have it,
where the words of R223 run on to that read (notes/assumptions/28.md). -/
def hostMayWrite (b : Block) (act : Host.Outcome State Fault Refusal) : Host.Outcome State Fault Refusal :=
  if b.phase = .busy then .refused .writeWhileBusy else act

/-- A host write of `v` to an operand register of block `k`, by `put` (R22 to R24): "every value 0 to `2^AW - 1` is
legal to store". -/
def writeOperand (s : State) (k : Nat) (b : Block) (v : Nat) (put : Block → OperandReg → Block) :
    Host.Outcome State Fault Refusal :=
  hostMayWrite b <|
    if v < 2 ^ s.params.aw then .next (s.putBlock k (put b { value := v, written := true }))
    else .refused .valueTooWide

/-- A host write of `v` to CMD of block `k`: START of the operation the byte selects (R21, R31); a reserved byte is
refused "in every phase" (R84). -/
def writeCommand (s : State) (k : Nat) (b : Block) (v : Nat) : Host.Outcome State Fault Refusal :=
  if ¬ v < 2 ^ 8 then .refused .valueTooWide
  else
    match decodeByte (BitVec.ofNat 8 v) with
    | .error _ => .refused .reservedCommand
    | .ok i => hostMayWrite b (exec i (s.select k))

/-- `WR reg, v` on block `k` (R39). -/
def hostWrite (s : State) (k reg v : Nat) : Host.Outcome State Fault Refusal :=
  match s.block? k with
  | none => .refused .noSuchBlock
  | some b =>
    match Register.ofNumber reg with
    | none => .refused .noSuchRegister
    | some .cmd => writeCommand s k b v
    | some .src => writeOperand s k b v fun b r => { b with src := r }
    | some .dst => writeOperand s k b v fun b r => { b with dst := r }
    | some .len => writeOperand s k b v fun b r => { b with len := r }
    | some .ret => .refused .readOnlyRegister
    | some .status => .refused .readOnlyRegister

/-! ### Register reads -/

/-- A read whose value the spec fixes. -/
def readValue (s : State) (k : Nat) (r : Register) (v : Nat) : Host.Outcome State Fault Refusal :=
  .next (s.observe (.reg k r v))

/-- A read of an `AW`-bit register that "returns any value": "the model draws the value freely" (R11), so "two reads
may differ" (R37). -/
def readAnyWord (s : State) (k : Nat) (r : Register) : Host.Outcome State Fault Refusal :=
  .next ((s.observe (.reg k r (Config.freeWord s.params.aw s.draws).toNat)).draw 1)

/-- A read of an 8-bit register that "returns any value" (R11, R21). -/
def readAnyByte (s : State) (k : Nat) (r : Register) : Host.Outcome State Fault Refusal :=
  .next ((s.observe (.reg k r (Config.freeByte s.draws).toNat)).draw 1)

/-- A host read of an operand register: the value last written, any value if it was not written since reset (R37). -/
def readOperand (s : State) (k : Nat) (r : Register) (x : OperandReg) : Host.Outcome State Fault Refusal :=
  if x.written then readValue s k r x.value else readAnyWord s k r

/-- A host read of STATUS: "readable in every phase with a defined value" (R26).  One that shows DONE = 1 is the
observation of D14. -/
def readStatus (s : State) (k : Nat) (b : Block) : Host.Outcome State Fault Refusal :=
  if b.phase = .done then .next ((s.observe (.reg k .status b.phase.status.toNat)).putBlock k b.doneRead)
  else readValue s k .status b.phase.status.toNat

/-- A host read of RET: the return value in DONE, "the same at every read" (R25, R34), and any value in IDLE and BUSY
(R32, R39).  DESIGN CHOICE: it is the return value also before a STATUS read has shown DONE = 1, where the words of R223
run on to that read (notes/assumptions/28.md). -/
def readRet (s : State) (k : Nat) (b : Block) : Host.Outcome State Fault Refusal :=
  if b.phase = .done then readValue s k .ret b.ret else readAnyWord s k .ret

/-- `RD reg` on block `k` (R39).  DESIGN CHOICE: SRC, DST and LEN read as in R32 at every time, though R223 would have
the host read STATUS alone while BUSY (notes/assumptions/28.md). -/
def hostRead (s : State) (k reg : Nat) : Host.Outcome State Fault Refusal :=
  match s.block? k with
  | none => .refused .noSuchBlock
  | some b =>
    match Register.ofNumber reg with
    | none => .refused .noSuchRegister
    | some .cmd => readAnyByte s k .cmd
    | some .src => readOperand s k .src b.src
    | some .dst => readOperand s k .dst b.dst
    | some .len => readOperand s k .len b.len
    | some .ret => readRet s k b
    | some .status => readStatus s k b

/-! ### The block's own action, and WAIT -/

/-- Block `k`, if BUSY, takes FINISH of the operation in S_OP (R33); "the block performs no memory access in IDLE or
DONE" (R34). -/
def blockTurn (s : State) (k : Nat) : Host.Outcome State Fault Refusal :=
  match s.block? k with
  | none => .refused .noSuchBlock
  | some b =>
    if b.phase = .busy then
      match decodeByte (b.sOp.setWidth 8) with
      | .error _ => .refused .reservedCommand
      | .ok i => exec i (s.select k)
    else .next s

/-- A block whose FINISH is still to come. -/
def Block.runnable (b : Block) : Bool := decide (b.phase = .busy) && !b.job.stuck

/-- With no event to take, the first block whose FINISH is still to come takes it: "every started operation whose
outcome is complete does reach FINISH" (R33, R226). -/
def quietTurn (s : State) : Host.Outcome State Fault Refusal :=
  match s.blocks.findIdx? Block.runnable with
  | some k => blockTurn s k
  | none => .next s

/-- `WAIT` on block `k`, the next event, with `rest` after it (R83): it ends when STATUS shows DONE, and the host has
then read it; until then it stays the next event.  Meanwhile block `k` takes its FINISH, or, where block `k` has none
to come (it is stuck or IDLE), another block does, since a BUSY operation whose outcome is complete finishes whatever
the host waits for (R226, notes/assumptions/6.md). -/
def waitDone (s : State) (k : Nat) (rest : List Event) : Host.Outcome State Fault Refusal :=
  match s.block? k with
  | none => .refused .noSuchBlock
  | some b =>
    if b.phase = .done then .next ((s.setScript rest).putBlock k b.doneRead)
    else if b.runnable then blockTurn s k
    else quietTurn s

/-! ### Memory accesses of the other agents -/

/-- The write set of an operation that is BUSY, or whose DONE the host has not read, holds the address. -/
abbrev State.BeingWritten (s : State) (a : Nat) : Prop := ∃ b ∈ s.blocks, ∃ x ∈ b.held, x.writes.Has a

/-- The read set or write set of an operation that is BUSY, or whose DONE the host has not read, holds the address. -/
abbrev State.InUse (s : State) (a : Nat) : Prop :=
  ∃ b ∈ s.blocks, ∃ x ∈ b.held, x.reads.Has a ∨ x.writes.Has a

/-- A memory write of the host or another agent: into the sets of an operation it is refuse from START until the host
has read its DONE (R61, R224, D14). -/
def agentWrite (s : State) (a : Nat) (v : Byte) : Host.Outcome State Fault Refusal :=
  if ¬ a < 2 ^ s.params.aw then .fault .addressOutsideSpace
  else if ¬ s.params.Plain a then .refused .deviceAccess
  else if s.InUse a then .refused .bufferInterference
  else .next (s.setMem (s.mem.write a v))

/-- A memory read of the host or another agent: "the bytes of the operation's write set ... read by any agent while
BUSY are any value" (R32), and until DONE = 1 has been read no agent may rely on them (R224) and none is promised the
operation's writes (R66). -/
def agentRead (s : State) (a : Nat) : Host.Outcome State Fault Refusal :=
  if ¬ a < 2 ^ s.params.aw then .fault .addressOutsideSpace
  else if ¬ s.params.Plain a then .refused .deviceAccess
  else if s.BeingWritten a then .next ((s.observe (.mem a (Config.freeByte s.draws))).draw 1)
  else .next (s.observe (.mem a (s.mem.read a)))

/-! ### Reset -/

/-- Reset of block `k` (R211). A BUSY operation is abandoned and "every byte of that operation's write set ... holds
any value afterwards" (R212).  No DONE of
the block's earlier operations can be read any more, so their buffers are free (notes/assumptions/25.md). -/
def resetBlock (s : State) (k : Nat) : Host.Outcome State Fault Refusal :=
  match s.block? k with
  | none => .refused .noSuchBlock
  | some b =>
    if b.phase = .busy then
      .next (((s.setMem (s.mem.scramble b.job.sets.writes.lo s.draws b.job.sets.writes.len)).putBlock k .reset).draw
        b.job.sets.writes.len)
    else .next (s.putBlock k .reset)

/-! ### Events -/

/-- The event `e` takes place, with `rest` to come after it. -/
def takeEvent (s : State) (e : Event) (rest : List Event) : Host.Outcome State Fault Refusal :=
  match e with
  | .wr k reg v => hostWrite (s.setScript rest) k reg v
  | .rd k reg => hostRead (s.setScript rest) k reg
  | .wait k => waitDone s k rest
  | .memWrite a v => agentWrite (s.setScript rest) a v
  | .memRead a => agentRead (s.setScript rest) a
  | .turn k => blockTurn (s.setScript rest) k
  | .reset k => resetBlock (s.setScript rest) k

/-- The operand register with its value kept and counted as written by the host (R214). -/
def OperandReg.present (r : OperandReg) : OperandReg := { r with written := true }

/-- The block as the start-up duties of R214 leave it: not BUSY, every operand register written. -/
def Block.readied (b : Block) : Block :=
  { b with
    src := b.src.present
    dst := b.dst.present
    len := b.len.present
    phase := if b.phase = .busy then .idle else b.phase }

end Sys2Proof.Machine
end

