-- ==== Sys2Proof/Machine/Step.lean ====
section
/-! DEFINITION. One step of the machine: the next event takes place; with no event to come, a BUSY block finishes. -/

namespace Sys2Proof.Machine

/-- One step (R7, D1): one event at the block's boundary, or one FINISH. -/
def step (s : State) : Host.Outcome State Fault Refusal :=
  match s.script with
  | [] => quietTurn s
  | e :: rest => takeEvent s e rest

/-- `s` with a write of the command byte `w` to CMD of block 0 as the next event, and with block 0 as a host that has
met the start-up duties of R214 leaves it, so that the next step runs that operation (notes/assumptions/7.md). -/
def State.withFetchWord (s : State) (nbits w : Nat) : State :=
  { s with
    blocks := s.blocks.modify 0 Block.readied
    script := .wr 0 0 ((w % 2 ^ nbits) % 2 ^ 8) :: s.script }

end Sys2Proof.Machine
end

