-- ==== Sys2Proof/Safety.lean ====
section
/-! DEFINITION. The terms the claims are stated in: the verdict, sets and result of an operation by its name, the
closed forms of ENC and DEC over byte sequences (R134, R154), canonical texts (R174), the invariant of the state, and
the invariant that keeps the buffers of BUSY operations apart. -/

namespace Sys2Proof.Machine

/-- The step goes on: neither a fault nor a refusal. -/
def Safe (o : Host.Outcome State Fault Refusal) : Prop := ∃ t, o = .next t

/-- `n` steps, up to the first that does not go on. -/
def steps : Nat → State → Host.Outcome State Fault Refusal
  | 0, s => .next s
  | n + 1, s =>
    match step s with
    | .next t => steps n t
    | .fault r => .fault r
    | .refused r => .refused r

/-! ### An operation by its name -/

/-- The outcome of operation `i` for operands `src`, `dst`, `len` (R113, R133, R153). -/
def opVerdict (i : Instr) (p : Params) (m : Memory) (src dst len : Nat) : Verdict :=
  match i with
  | .valid => validVerdict p m src
  | .enc => encVerdict p src dst len
  | .dec => decVerdict p m src dst

/-- The access sets of operation `i` (R54, R55). -/
def opSets (i : Instr) (p : Params) (m : Memory) (src dst len : Nat) : Sets :=
  match i with
  | .valid => validSets p m src
  | .enc => encSets src dst len
  | .dec => decSets p m src dst

/-- What the loops of operation `i` leave (R113, R133, R153). -/
def opResult (i : Instr) (p : Params) (m : Memory) (src dst len : Nat) : Result :=
  match i with
  | .valid => validResult p m src
  | .enc => encResult m src dst len
  | .dec => decResult p m src dst

/-! ### The operations on byte sequences, without the loops -/

/-- The text at an address: its characters without the terminator (R51, R52). -/
def textAt (p : Params) (m : Memory) (a : Nat) : Option (List Byte) := (textLen p m a).map (m.bytes a)

/-- The `q`-th character ENC writes for the bytes `bs` (R134). -/
def encChar (bs : List Byte) (q : Nat) : Byte :=
  let g := q / 4
  let e := q % 4
  if 3 * g + e > bs.length then PAD
  else alpha (sextetOf (groupOfBytes (bs.getD (3 * g) 0) (bs.getD (3 * g + 1) 0) (bs.getD (3 * g + 2) 0)) e)

/-- `ENC(B)`: the text, without the terminator, that ENC writes for the bytes `bs` (R134, 43_laws.md). -/
def encodeBytes (bs : List Byte) : List Byte := (List.range (encodedLen bs.length)).map (encChar bs)

/-- The byte `y[k]` of R154 for the text `t`. -/
def decByte (t : List Byte) (k : Nat) : Byte :=
  let v (q : Nat) : Sextet := revBits (t.getD q PAD)
  let g := k / 3
  byteOf (groupOfSextets (v (4 * g)) (v (4 * g + 1)) (v (4 * g + 2)) (v (4 * g + 3))) (k % 3)

/-- `DEC(t)`: the bytes DEC writes for the well-formed text `t` (R154, 43_laws.md). -/
def decodeText (t : List Byte) : List Byte := (List.range (decodedLen t)).map (decByte t)

/-- R174: "the bits its padded group discards are zero". -/
abbrev Canonical (t : List Byte) : Prop :=
  (padCount t = 2 → (revBits (t.getD (t.length - 3) PAD)).extractLsb' 0 4 = 0) ∧
  (padCount t = 1 → (revBits (t.getD (t.length - 2) PAD)).extractLsb' 0 2 = 0)

/-! ### The invariant of the state -/

/-- The `AW`-bit working registers hold `AW`-bit values (R28). -/
abbrev Work.Wf (p : Params) (w : Work) : Prop := w.ipos < 2 ^ p.aw ∧ w.opos < 2 ^ p.aw ∧ w.slen < 2 ^ p.aw

/-- Every `AW`-bit register of a block holds an `AW`-bit value (R20, R28); a BUSY block runs one of the three
operations (R31) and its write set lies in the address space (R56). -/
structure Block.Wf (p : Params) (b : Block) : Prop where
  src    : b.src.value < 2 ^ p.aw
  dst    : b.dst.value < 2 ^ p.aw
  len    : b.len.value < 2 ^ p.aw
  ret    : b.ret < 2 ^ p.aw
  sSrc   : b.sSrc < 2 ^ p.aw
  sDst   : b.sDst < 2 ^ p.aw
  sLen   : b.sLen < 2 ^ p.aw
  work   : b.work.Wf p
  op     : b.phase = .busy → b.sOp ≠ 0
  writes : b.phase = .busy → b.job.sets.writes.len = 0 ∨ b.job.sets.writes.lo + b.job.sets.writes.len ≤ 2 ^ p.aw

/-- What holds of every state a run reaches: the parameters are as R6 says, memory has its canonical form and lies in
the address space, there is a block (`NINST >= 1`), and every block is well-formed. -/
structure State.Inv (s : State) : Prop where
  params : s.params.wf = true
  canon  : s.mem.wf = true
  below  : s.mem.Below (2 ^ s.params.aw)
  blocks : 1 ≤ s.blocks.length
  each   : ∀ b ∈ s.blocks, b.Wf s.params

/-! ### The buffers of operations, from START until the host has read DONE -/

/-- S_OP, as the command byte it was sampled from, names the operation (R31). -/
def Block.runs (b : Block) (i : Instr) : Prop := b.sOp = i.op

/-- R61, R69: the sets of a BUSY operation are those its rule gives for the memory as it is now, its outcome is still
complete unless it was stuck at START, and the sets that two blocks hold, of BUSY operations and of finished ones whose
DONE the host has not read (D14), do not interfere. -/
structure State.BuffersKept (s : State) : Prop where
  fresh : ∀ k b i, s.block? k = some b → b.phase = .busy → b.job.stuck = false → b.runs i →
    opVerdict i s.params s.mem b.sSrc b.sDst b.sLen = .complete ∧
    opSets i s.params s.mem b.sSrc b.sDst b.sLen = b.job.sets
  apart : ∀ j k x y, j ≠ k → s.block? j = some x → s.block? k = some y → ∀ u ∈ x.held, ∀ w ∈ y.held,
    u.apart w = true

end Sys2Proof.Machine
end

