-- ==== Sys2Proof/Certificates/Slice0/Obligations.lean ====
section
/-! DEFINITION. The statements for the provers, in the order of the spec's files.  `s.sel` is the block an operation
runs on; a block that is not BUSY takes the operation's START, a BUSY block its FINISH (R7, R31, R33). -/

open Sys2Proof Sys2Proof.Machine

/-! ### The command byte (30_encoding.md) -/

/-- R81, R84: exactly the bytes 0x01, 0x02 and 0x03 decode, each to its operation. -/
def Obligations.CommandBytesDecodeAsTabled : Prop :=
  (∀ c : Byte, decode [c] = .ok (.valid, []) ↔ c = 0x01) ∧
  (∀ c : Byte, decode [c] = .ok (.enc, []) ↔ c = 0x02) ∧
  (∀ c : Byte, decode [c] = .ok (.dec, []) ↔ c = 0x03) ∧
  decodeTableWord 8 0b00000001 = some .valid ∧
  decodeTableWord 8 0b00000010 = some .enc ∧
  decodeTableWord 8 0b00000011 = some .dec

/-- R80, R81: decoding an encoded operation gives it back with what follows, and a byte that decodes is the encoding
of what it decodes to. -/
def Obligations.DecodeAndEncodeAgree : Prop :=
  (∀ (i : Instr) (rest : List Byte), decode (encode i ++ rest) = .ok (i, rest)) ∧
  (∀ (c : Byte) (i : Instr), decode [c] = .ok (i, []) → encode i = [c])

/-- R31, R21: where the next event writes a command byte to CMD of a block that is not BUSY, the step is the execution of
the operation the byte decodes to, on that block.  That a block in DONE takes it also before a STATUS read has shown
DONE = 1 (R34, R39) is against the words of R223 and log 28. -/
def Obligations.StepExecutesTheCommandWritten : Prop :=
  ∀ (s : State) (k v : Nat) (rest : List Event) (b : Block) (i : Instr),
    s.script = .wr k 0 v :: rest → s.block? k = some b → b.phase ≠ .busy → v < 2 ^ 8 →
    decode [BitVec.ofNat 8 v] = .ok (i, []) →
    step s = exec i ((s.setScript rest).select k)

/-- R33, R226: where a BUSY block has its turn, the step is the execution of the operation it sampled at START.  Which
block has the turn is the model's choice where the spec leaves the moment and the order of FINISH open: the block the
event `turn` names (log 9); the block a WAIT polls, where it has a FINISH to come (log 6); otherwise, under a WAIT that
does not end (log 6) and with no event to come (log 9), the lowest-numbered block that has one to come. -/
def Obligations.StepExecutesTheSampledOperation : Prop :=
  ∀ (s : State) (k : Nat) (b : Block) (i : Instr),
    s.block? k = some b → b.phase = .busy → b.runs i →
    (∀ rest, s.script = .turn k :: rest → step s = exec i ((s.setScript rest).select k)) ∧
    (∀ rest, s.script = .wait k :: rest → b.job.stuck = false → step s = exec i (s.select k)) ∧
    (b.job.stuck = false →
      (∀ j x, j < k → s.block? j = some x → x.phase ≠ .busy ∨ x.job.stuck = true) →
      (s.script = [] → step s = exec i (s.select k)) ∧
      ∀ j x rest, s.script = .wait j :: rest → s.block? j = some x →
        x.phase = .idle ∨ (x.phase = .busy ∧ x.job.stuck = true) → step s = exec i (s.select k))

/-- R84: a reserved command byte is refused in every phase. -/
def Obligations.ReservedCommandIsRefused : Prop :=
  ∀ (s : State) (k v : Nat) (rest : List Event) (b : Block),
    s.script = .wr k 0 v :: rest → s.block? k = some b → v < 2 ^ 8 → v ≠ 0x01 → v ≠ 0x02 → v ≠ 0x03 →
    step s = .refused .reservedCommand

/-! ### Reset and the host's register accesses (10_state.md, 70_reset_and_hazards.md) -/

/-- R211, R36: after reset every block is IDLE, STATUS reads 0x00 and no operand register has been written. -/
def Obligations.ResetLeavesEveryBlockIdle : Prop :=
  (∀ b ∈ State.reset.blocks, b.phase = .idle ∧ b.phase.status = 0x00 ∧ b.src.written = false ∧
    b.dst.written = false ∧ b.len.written = false) ∧
  (∀ (k : Nat) (rest : List Event), k < State.reset.blocks.length →
    step (State.reset.setScript (.rd k 5 :: rest)) =
      .next ((State.reset.setScript rest).observe (.reg k .status 0x00)))

/-- R22 to R24, R34: a host write of an `AW`-bit value to SRC, DST or LEN of a block that is not BUSY stores it and
changes nothing else.  That a block in DONE takes it also before a STATUS read has shown DONE = 1 is log 28. -/
def Obligations.OperandWriteIsStored : Prop :=
  ∀ (s : State) (k v : Nat) (rest : List Event) (b : Block),
    s.block? k = some b → b.phase ≠ .busy → v < 2 ^ s.params.aw →
    (s.script = .wr k 1 v :: rest →
      step s = .next ((s.setScript rest).putBlock k { b with src := ⟨v, true⟩ })) ∧
    (s.script = .wr k 2 v :: rest →
      step s = .next ((s.setScript rest).putBlock k { b with dst := ⟨v, true⟩ })) ∧
    (s.script = .wr k 3 v :: rest →
      step s = .next ((s.setScript rest).putBlock k { b with len := ⟨v, true⟩ }))

/-- R39, the rows that read: STATUS shows the phase, and a read that shows DONE = 1 ends the time in which the buffers
of the block's finished operations must be left alone (R224, the record of log 25); RET is the return value in DONE
and any value otherwise; an operand register gives the value held, or any value where the host has not written it
since reset; CMD gives any value; a register of number 6 or above is refused. "Any value" is the next free value,
whatever it is.  That RET is the return value in DONE also before a STATUS read has shown it is log 28. -/
def Obligations.HostReadsAsTabled : Prop :=
  ∀ (s : State) (k reg : Nat) (rest : List Event) (b : Block),
    s.script = .rd k reg :: rest → s.block? k = some b →
    (reg = 5 → b.phase = .idle → step s = .next ((s.setScript rest).observe (.reg k .status 0x00))) ∧
    (reg = 5 → b.phase = .busy → step s = .next ((s.setScript rest).observe (.reg k .status 0x01))) ∧
    (reg = 5 → b.phase = .done → step s = .next
      (((s.setScript rest).observe (.reg k .status 0x02)).putBlock k { b with unseen := [] })) ∧
    (reg = 4 → b.phase = .done → step s = .next ((s.setScript rest).observe (.reg k .ret b.ret))) ∧
    (reg = 4 → b.phase ≠ .done → step s = .next (((s.setScript rest).observe
      (.reg k .ret (Config.freeWord s.params.aw s.draws).toNat)).draw 1)) ∧
    (reg = 1 → b.src.written = true → step s = .next ((s.setScript rest).observe (.reg k .src b.src.value))) ∧
    (reg = 1 → b.src.written = false → step s = .next (((s.setScript rest).observe
      (.reg k .src (Config.freeWord s.params.aw s.draws).toNat)).draw 1)) ∧
    (reg = 2 → b.dst.written = true → step s = .next ((s.setScript rest).observe (.reg k .dst b.dst.value))) ∧
    (reg = 2 → b.dst.written = false → step s = .next (((s.setScript rest).observe
      (.reg k .dst (Config.freeWord s.params.aw s.draws).toNat)).draw 1)) ∧
    (reg = 3 → b.len.written = true → step s = .next ((s.setScript rest).observe (.reg k .len b.len.value))) ∧
    (reg = 3 → b.len.written = false → step s = .next (((s.setScript rest).observe
      (.reg k .len (Config.freeWord s.params.aw s.draws).toNat)).draw 1)) ∧
    (reg = 0 → step s = .next (((s.setScript rest).observe
      (.reg k .cmd (Config.freeByte s.draws).toNat)).draw 1)) ∧
    (6 ≤ reg → step s = .refused .noSuchRegister)

/-- R39, the rows that refuse a write: RET and STATUS in every phase; register numbers 6 and above; every register
while BUSY. -/
def Obligations.HostWritesRefusedAsTabled : Prop :=
  ∀ (s : State) (k reg v : Nat) (rest : List Event) (b : Block),
    s.script = .wr k reg v :: rest → s.block? k = some b →
    (reg = 4 → step s = .refused .readOnlyRegister) ∧
    (reg = 5 → step s = .refused .readOnlyRegister) ∧
    (6 ≤ reg → step s = .refused .noSuchRegister) ∧
    (b.phase = .busy → ∃ r, step s = .refused r)

/-! ### START (10_state.md) -/

/-- R31, R38: START of operation `i` on a block that is not BUSY, where every operand register the operation uses has
been written, the outcome is not refuse, and no other block's buffers interfere: what it samples, clears and sets, and
that it changes nothing else.  That S_DST and S_LEN keep their values where R31 does not load them is log 24. -/
def Obligations.StartSamplesOperandsAndTurnsBusy : Prop :=
  ∀ (i : Instr) (s : State) (b : Block),
    s.block? s.sel = some b → b.phase ≠ .busy → b.OperandsWritten i →
    (∀ r, opVerdict i s.params s.mem b.src.value b.dst.value b.len.value ≠ .refuse r) →
    s.ClearOf (opSets i s.params s.mem b.src.value b.dst.value b.len.value) →
    ∃ (t : State) (b' : Block), exec i s = .next t ∧ t.block? s.sel = some b' ∧
      b'.phase = .busy ∧ b'.phase.status = 0x01 ∧ b'.sOp = i.op ∧ b'.sSrc = b.src.value ∧
      b'.sDst = (match i with
        | .valid => b.sDst
        | .enc => b.dst.value
        | .dec => b.dst.value) ∧
      b'.sLen = (match i with
        | .valid => b.sLen
        | .enc => b.len.value
        | .dec => b.sLen) ∧
      b'.work.acc = 0 ∧ b'.work.ipos = 0 ∧ b'.work.opos = 0 ∧ b'.work.pcnt = 0 ∧ b'.work.slen = 0 ∧
      b'.src = b.src ∧ b'.dst = b.dst ∧ b'.len = b.len ∧ b'.ret = b.ret ∧ b'.unseen = b.unseen ∧
      t.mem = s.mem ∧ t.params = s.params ∧ t.sel = s.sel ∧ t.script = s.script ∧ t.seen = s.seen ∧
      t.draws = s.draws ∧ ∀ j, j ≠ s.sel → t.block? j = s.block? j

/-- R228, R37: "a START that uses one before the host has written it is refuse". -/
def Obligations.StartWithUnwrittenOperandIsRefused : Prop :=
  ∀ (i : Instr) (s : State) (b : Block), s.block? s.sel = some b → b.phase ≠ .busy →
    (b.src.written = false ∨ (i ≠ .valid ∧ b.dst.written = false) ∨ (i = .enc ∧ b.len.written = false)) →
    exec i s = .refused .unwrittenOperand

/-- R62: an operation whose read set and write set meet is refused at its START. -/
def Obligations.OverlappingBuffersAreRefused : Prop :=
  ∀ (i : Instr) (s : State) (b : Block) (a : Nat), s.block? s.sel = some b → b.phase ≠ .busy →
    (opSets i s.params s.mem b.src.value b.dst.value b.len.value).reads.Has a →
    (opSets i s.params s.mem b.src.value b.dst.value b.len.value).writes.Has a →
    ∃ r, exec i s = .refused r

/-- R59: an operation with an address of its read set or write set that is not plain memory is refused at its
START (log 5).  For VALID of an unterminated text the read set is that of log 11, and a register window is not plain
memory over the six strides of log 8. -/
def Obligations.BuffersOutsidePlainMemoryAreRefused : Prop :=
  ∀ (i : Instr) (s : State) (b : Block) (a : Nat), s.block? s.sel = some b → b.phase ≠ .busy →
    ((opSets i s.params s.mem b.src.value b.dst.value b.len.value).reads.Has a ∨
     (opSets i s.params s.mem b.src.value b.dst.value b.len.value).writes.Has a) →
    ¬ s.params.Plain a →
    ∃ r, exec i s = .refused r

/-- R56, R131: the fit conditions.  ENC or DEC whose sets would pass the top address is refused at its START; where
they are met the return value fits RET. -/
def Obligations.OperationsThatDoNotFitAreRefused : Prop :=
  (∀ (s : State) (b : Block), s.block? s.sel = some b → b.phase ≠ .busy →
    ((0 < b.len.value ∧ 2 ^ s.params.aw < b.src.value + b.len.value) ∨
      2 ^ s.params.aw ≤ b.dst.value + 4 * divUp b.len.value 3) →
    ∃ r, exec .enc s = .refused r) ∧
  (∀ (s : State) (b : Block) (n : Nat), s.block? s.sel = some b → b.phase ≠ .busy →
    textLen s.params s.mem b.src.value = some n →
    0 < decodedLen (s.mem.bytes b.src.value n) →
    2 ^ s.params.aw < b.dst.value + decodedLen (s.mem.bytes b.src.value n) →
    ∃ r, exec .dec s = .refused r) ∧
  (∀ (p : Params) (src dst n : Nat), 4 ≤ p.aw → EncFits p src dst n → encodedLen n + 1 ≤ 2 ^ p.aw - 3) ∧
  (∀ (p : Params) (m : Memory) (src n : Nat), textLen p m src = some n → decodedLen (m.bytes src n) < 2 ^ p.aw)

/-- R157: DEC on a text that is not well-formed, or on a run of bytes with no terminator, is refused at its START. -/
def Obligations.DecRefusesWhatIsNotWellFormed : Prop :=
  ∀ (s : State) (b : Block), s.block? s.sel = some b → b.phase ≠ .busy →
    (∀ t, textAt s.params s.mem b.src.value = some t → ¬ WF t) →
    ∃ r, exec .dec s = .refused r

/-- R69: a START whose sets interfere with those of another BUSY block is refused (log 5), and so is one that
interferes with those of another block's finished operation whose DONE the host has not read (D14, log 25).  For VALID
of an unterminated text the read set is that of log 11. -/
def Obligations.InterferingStartIsRefused : Prop :=
  ∀ (i : Instr) (s : State) (b : Block) (k a : Nat) (x : Block) (y : Sets), s.block? s.sel = some b →
    b.phase ≠ .busy → k ≠ s.sel → s.block? k = some x → (x.phase = .busy ∧ y = x.job.sets) ∨ y ∈ x.unseen →
    (((opSets i s.params s.mem b.src.value b.dst.value b.len.value).writes.Has a ∧
        (y.reads.Has a ∨ y.writes.Has a)) ∨
     ((opSets i s.params s.mem b.src.value b.dst.value b.len.value).reads.Has a ∧ y.writes.Has a)) →
    ∃ r, exec i s = .refused r

/-! ### Texts and the validator (20_memory.md, 40_validator.md) -/

/-- R52: the length of a text is the least distance to a 0x00 at or below the top address; where there is none, VALID
is started and stuck with memory unchanged (the scan meeting plain memory only, R59), and DEC is refused. -/
def Obligations.TextEndsAtItsFirstTerminator : Prop :=
  (∀ (p : Params) (m : Memory) (a n : Nat), textLen p m a = some n ↔
    (a + n ≤ 2 ^ p.aw - 1 ∧ m.read (a + n) = 0x00 ∧ ∀ k < n, m.read (a + k) ≠ 0x00)) ∧
  (∀ (s : State) (b : Block), s.block? s.sel = some b → b.phase ≠ .busy → b.src.written = true →
    (∀ k, b.src.value + k ≤ 2 ^ s.params.aw - 1 → s.mem.read (b.src.value + k) ≠ 0x00) →
    (∀ a, (askedRange s.params b.src.value).Has a → s.params.Plain a) →
    s.ClearOf (validSets s.params s.mem b.src.value) →
    ∃ (t : State) (b' : Block), exec .valid s = .next t ∧ t.mem = s.mem ∧ t.block? s.sel = some b' ∧
      b'.phase = .busy ∧ b'.job.stuck = true) ∧
  (∀ (s : State) (b : Block), s.block? s.sel = some b → b.phase ≠ .busy →
    (∀ k, b.src.value + k ≤ 2 ^ s.params.aw - 1 → s.mem.read (b.src.value + k) ≠ 0x00) →
    ∃ r, exec .dec s = .refused r)

/-- R114: the procedure of R113 reaches its last line exactly on the well-formed texts, and its `p` is then the number
of trailing `=`; on every other text it finishes with 0. -/
def Obligations.ValidatorAcceptsExactlyWellFormedTexts : Prop :=
  ∀ (m : Memory) (src n : Nat),
    (WF (m.bytes src n) → (validRun m src n).ret = 3 * (n / 4) - padCount (m.bytes src n) ∧
      (validRun m src n).work.pcnt.toNat = padCount (m.bytes src n)) ∧
    (¬ WF (m.bytes src n) → (validRun m src n).ret = 0)

/-- R115: the decoded length of a non-empty well-formed text is at least 1 and below its length, so VALID returns 0
exactly for the empty text and the texts that are not well-formed. -/
def Obligations.ValidReturnsZeroExactlyForEmptyOrMalformed : Prop :=
  (∀ t : List Byte, WF t → t ≠ [] → 1 ≤ decodedLen t ∧ decodedLen t < t.length) ∧
  (∀ (m : Memory) (src n : Nat), (validRun m src n).ret = 0 ↔ (n = 0 ∨ ¬ WF (m.bytes src n)))

/-- R113: FINISH of VALID on a terminated text in plain memory that is admitted for reading: RET is the decoded length
of a well-formed text and 0 of any other, memory is unchanged, the phase is DONE. -/
def Obligations.ValidFinishReturnsDecodedLength : Prop :=
  ∀ (s : State) (b : Block) (n : Nat), s.block? s.sel = some b → b.phase = .busy → b.job.stuck = false →
    textLen s.params s.mem b.sSrc = some n →
    (∀ k ≤ n, s.params.Plain (b.sSrc + k) ∧ s.params.Admits .read (b.sSrc + k)) →
    ∃ (t : State) (b' : Block), exec .valid s = .next t ∧ t.block? s.sel = some b' ∧
      b'.ret = (if WF (s.mem.bytes b.sSrc n) then 3 * (n / 4) - padCount (s.mem.bytes b.sSrc n) else 0) ∧
      b'.phase = .done ∧ b'.phase.status = 0x02 ∧ t.mem = s.mem

/-! ### The encoder (41_encoder.md) -/

/-- R134, R135: FINISH of ENC where it fits, its sets are apart, in plain memory and admitted: the bytes at `d` are
the text `ENC(B)` and the terminator, every other address of memory is unchanged, RET is `4*ceil(n/3) + 1`. -/
def Obligations.EncFinishWritesTheText : Prop :=
  ∀ (s : State) (b : Block), s.mem.wf = true → s.block? s.sel = some b → b.phase = .busy → b.job.stuck = false →
    (0 < b.sLen → b.sSrc + b.sLen ≤ 2 ^ s.params.aw) →
    b.sDst + encodedLen b.sLen ≤ 2 ^ s.params.aw - 1 →
    (∀ a, (encSets b.sSrc b.sDst b.sLen).reads.Has a →
      s.params.Plain a ∧ s.params.Admits .read a ∧ ¬ (encSets b.sSrc b.sDst b.sLen).writes.Has a) →
    (∀ a, (encSets b.sSrc b.sDst b.sLen).writes.Has a → s.params.Plain a ∧ s.params.Admits .write a) →
    ∃ (t : State) (b' : Block), exec .enc s = .next t ∧ t.block? s.sel = some b' ∧
      b'.ret = 4 * ((b.sLen + 2) / 3) + 1 ∧ b'.phase = .done ∧ b'.phase.status = 0x02 ∧
      (∀ q < encodedLen b.sLen, t.mem.read (b.sDst + q) = encChar (s.mem.bytes b.sSrc b.sLen) q) ∧
      t.mem.read (b.sDst + encodedLen b.sLen) = 0x00 ∧
      ∀ a, ¬ (encSets b.sSrc b.sDst b.sLen).writes.Has a → t.mem.read a = s.mem.read a

/-- R136: the text ENC writes is well-formed and canonical, has `(3 - n mod 3) mod 3` padding characters and no 0x00
in it; and, wherever that text stands in memory, VALID on it returns exactly `n`. -/
def Obligations.EncodedTextIsWellFormedAndCanonical : Prop :=
  ∀ bs : List Byte, WF (encodeBytes bs) ∧ Canonical (encodeBytes bs) ∧
    padCount (encodeBytes bs) = (3 - bs.length % 3) % 3 ∧ (0x00 : Byte) ∉ encodeBytes bs ∧
    ∀ (m : Memory) (src : Nat), m.bytes src (encodedLen bs.length) = encodeBytes bs →
      (validRun m src (encodedLen bs.length)).ret = bs.length

/-- R60, R137: ENC with `n = 0` does not use SRC as an address and writes the terminator alone; DEC of the empty text
is complete for every DST and writes nothing; VALID never uses DST. -/
def Obligations.PointersNeverDereferencedAreFree : Prop :=
  (∀ (p : Params) (m : Memory) (src src' dst : Nat), encVerdict p src dst 0 = encVerdict p src' dst 0 ∧
    (encResult m src dst 0).mem = m.write dst 0x00 ∧ (encResult m src dst 0).ret = 1) ∧
  (∀ (p : Params) (m : Memory) (src dst : Nat), textLen p m src = some 0 → p.Plain src → p.Admits .read src →
    decVerdict p m src dst = .complete ∧ (decResult p m src dst).mem = m ∧ (decResult p m src dst).ret = 0) ∧
  (∀ (p : Params) (m : Memory) (src dst dst' len len' : Nat),
    opVerdict .valid p m src dst len = opVerdict .valid p m src dst' len' ∧
    opResult .valid p m src dst len = opResult .valid p m src dst' len')

/-! ### The decoder (42_decoder.md) -/

/-- R154, R158: FINISH of DEC on a well-formed text where it fits, its sets are apart, in plain memory and admitted:
the `m` bytes at `d` are `DEC(t)`, every other address of memory is unchanged, RET is `m`. -/
def Obligations.DecFinishWritesTheBytes : Prop :=
  ∀ (s : State) (b : Block) (t : List Byte), s.mem.wf = true → s.block? s.sel = some b → b.phase = .busy →
    b.job.stuck = false →
    textAt s.params s.mem b.sSrc = some t → WF t →
    (0 < decodedLen t → b.sDst + decodedLen t ≤ 2 ^ s.params.aw) →
    (∀ k ≤ t.length, s.params.Plain (b.sSrc + k) ∧ s.params.Admits .read (b.sSrc + k) ∧
      ¬ (decSets s.params s.mem b.sSrc b.sDst).writes.Has (b.sSrc + k)) →
    (∀ k < decodedLen t, s.params.Plain (b.sDst + k) ∧ s.params.Admits .write (b.sDst + k)) →
    ∃ (u : State) (b' : Block), exec .dec s = .next u ∧ u.block? s.sel = some b' ∧
      b'.ret = 3 * (t.length / 4) - padCount t ∧ b'.phase = .done ∧ b'.phase.status = 0x02 ∧
      (∀ k < decodedLen t, u.mem.read (b.sDst + k) = decByte t k) ∧
      (∀ a, ¬ (decSets s.params s.mem b.sSrc b.sDst).writes.Has a → u.mem.read a = s.mem.read a) ∧
      (decSets s.params s.mem b.sSrc b.sDst).writes = ⟨b.sDst, decodedLen t⟩

/-- R155, R172: where DEC is complete, its RET is VALID's; and DEC is refused as malformed exactly on the terminated
texts VALID rejects. -/
def Obligations.ValidatorAndDecoderAgree : Prop :=
  (∀ (p : Params) (m : Memory) (src dst : Nat), m.wf = true → decVerdict p m src dst = .complete →
    (decResult p m src dst).ret = (validResult p m src).ret) ∧
  (∀ (p : Params) (m : Memory) (src dst n : Nat), textLen p m src = some n →
    (decVerdict p m src dst = .refuse .malformedText ↔ n ≠ 0 ∧ (validResult p m src).ret = 0))

/-! ### The tables and the bit-shifters (30_encoding.md) -/

/-- R90, R91: the alphabet table as its 64-character string, and that it is injective. -/
def Obligations.AlphabetIsTheTabledString : Prop :=
  (List.range 64).map (fun v => alpha (BitVec.ofNat 6 v)) =
    ("ABCDEFGHIJKLMNOPQRSTUVWXYZabcdefghijklmnopqrstuvwxyz0123456789+/".toList.map
      fun c => BitVec.ofNat 8 c.toNat) ∧
  (∀ v w : Sextet, alpha v = alpha w → v = w)

/-- R94, R97: the inverse table inverts the alphabet table; 64 bytes are characters, one is the padding character and
191 are neither. -/
def Obligations.InverseTableInvertsTheAlphabet : Prop :=
  (∀ v : Sextet, rev (alpha v) = .val v) ∧
  (∀ (c : Byte) (v : Sextet), rev c = .val v → alpha v = c) ∧
  (∀ c : Byte, rev c = .pad ↔ c = 0x3D) ∧
  ((List.range 256).filter fun n => decide (classOf (BitVec.ofNat 8 n) = .alphaCh)).length = 64 ∧
  ((List.range 256).filter fun n => decide (classOf (BitVec.ofNat 8 n) = .padCh)).length = 1 ∧
  ((List.range 256).filter fun n => decide (classOf (BitVec.ofNat 8 n) = .invalidCh)).length = 191

/-- R86: the bits of each sextet and of each byte of a group, and that SPLIT and JOIN are inverse. -/
def Obligations.SplitAndJoinAreInverse : Prop :=
  (∀ b0 b1 b2 : Byte, split b0 b1 b2 =
    (b0.extractLsb' 2 6, b0.extractLsb' 0 2 ++ b1.extractLsb' 4 4, b1.extractLsb' 0 4 ++ b2.extractLsb' 6 2,
      b2.extractLsb' 0 6)) ∧
  (∀ s0 s1 s2 s3 : Sextet, join s0 s1 s2 s3 =
    (s0 ++ s1.extractLsb' 4 2, s1.extractLsb' 0 4 ++ s2.extractLsb' 2 4, s2.extractLsb' 0 2 ++ s3)) ∧
  (∀ b0 b1 b2 : Byte,
    join (split b0 b1 b2).1 (split b0 b1 b2).2.1 (split b0 b1 b2).2.2.1 (split b0 b1 b2).2.2.2 = (b0, b1, b2)) ∧
  (∀ s0 s1 s2 s3 : Sextet,
    split (join s0 s1 s2 s3).1 (join s0 s1 s2 s3).2.1 (join s0 s1 s2 s3).2.2 = (s0, s1, s2, s3))

/-! ### The laws (43_laws.md) -/

/-- R170, with the length law of R171: decoding the encoding of any byte sequence gives it back. -/
def Obligations.DecodingAnEncodingGivesTheBytesBack : Prop :=
  ∀ bs : List Byte, WF (encodeBytes bs) ∧ decodeText (encodeBytes bs) = bs ∧
    (encodeBytes bs).length = 4 * divUp bs.length 3 ∧ decodedLen (encodeBytes bs) = bs.length

/-- R173: a well-formed text is reproduced by decoding and encoding exactly when it is canonical. -/
def Obligations.TextRoundTripExactlyWhenCanonical : Prop :=
  ∀ t : List Byte, WF t → (encodeBytes (decodeText t) = t ↔ Canonical t)

/-- R175: ENC is injective, and every canonical text is the encoding of exactly one byte sequence, its decoding. -/
def Obligations.EveryCanonicalTextIsOneEncoding : Prop :=
  (∀ bs cs : List Byte, encodeBytes bs = encodeBytes cs → bs = cs) ∧
  (∀ t : List Byte, WF t → Canonical t → ∀ bs, encodeBytes bs = t ↔ bs = decodeText t)

/-- R176: decoding and encoding a well-formed text clears the discarded bits of the last character before the padding
and changes nothing else; both texts decode to the same bytes. -/
def Obligations.ReencodingClearsTheDiscardedBits : Prop :=
  ∀ t : List Byte, WF t →
    (encodeBytes (decodeText t)).length = t.length ∧
    padCount (encodeBytes (decodeText t)) = padCount t ∧
    (∀ q < t.length, (padCount t = 0 ∨ q + padCount t + 1 ≠ t.length) → (encodeBytes (decodeText t))[q]? = t[q]?) ∧
    (padCount t = 1 → revBits ((encodeBytes (decodeText t)).getD (t.length - 2) PAD) =
      revBits (t.getD (t.length - 2) PAD) &&& 0b111100) ∧
    (padCount t = 2 → revBits ((encodeBytes (decodeText t)).getD (t.length - 3) PAD) =
      revBits (t.getD (t.length - 3) PAD) &&& 0b110000) ∧
    decodeText (encodeBytes (decodeText t)) = decodeText t

/-! ### What FINISH and a stuck operation leave alone -/

/-- R33, R55, R70: FINISH changes RET, the phase and the unobservable working registers of its own block and the bytes
of its write set; every other register, flag, block and byte stays.  The operation's sets join those that others leave
alone until DONE is read (R224, the record of log 25). -/
def Obligations.FinishFrame : Prop :=
  ∀ (i : Instr) (s t : State) (b : Block), s.mem.wf = true → s.block? s.sel = some b → b.phase = .busy →
    exec i s = .next t →
    t.params = s.params ∧ t.sel = s.sel ∧ t.script = s.script ∧ t.seen = s.seen ∧ t.draws = s.draws ∧
    (∀ j, j ≠ s.sel → t.block? j = s.block? j) ∧
    (∃ b', t.block? s.sel = some b' ∧ b'.src = b.src ∧ b'.dst = b.dst ∧ b'.len = b.len ∧ b'.sOp = b.sOp ∧
      b'.sSrc = b.sSrc ∧ b'.sDst = b.sDst ∧ b'.sLen = b.sLen ∧
      (b' = b ∨ (b'.phase = .done ∧ b'.unseen = b.job.sets :: b.unseen))) ∧
    (i = .valid → t.mem = s.mem) ∧
    ∀ a, ¬ (opSets i s.params s.mem b.sSrc b.sDst b.sLen).writes.Has a → t.mem.read a = s.mem.read a

/-- R63, R11: an operation that would be complete but for an address the platform does not admit is started and
stuck. -/
def Obligations.UnadmittedAccessIsStuck : Prop :=
  ∀ (i : Instr) (s : State) (b : Block) (a : Nat), s.block? s.sel = some b → b.phase ≠ .busy → b.OperandsWritten i →
    (∀ q, opVerdict i { s.params with denied := [] } s.mem b.src.value b.dst.value b.len.value ≠ .refuse q) →
    (∃ n, textLen s.params s.mem b.src.value = some n ∨ i = .enc) →
    (((opSets i s.params s.mem b.src.value b.dst.value b.len.value).reads.Has a ∧ ¬ s.params.Admits .read a) ∨
     ((opSets i s.params s.mem b.src.value b.dst.value b.len.value).writes.Has a ∧ ¬ s.params.Admits .write a)) →
    s.ClearOf (opSets i s.params s.mem b.src.value b.dst.value b.len.value) →
    ∃ (t : State) (b' : Block), exec i s = .next t ∧ t.block? s.sel = some b' ∧ b'.phase = .busy ∧
      b'.job.stuck = true ∧ b'.ret = b.ret ∧ t.mem = s.mem

/-- R11, R63, R83: a stuck block stays BUSY through every step but its own reset, its registers unchanged; a WAIT on it
does not end, and where no other block has a FINISH to come it changes nothing at all (log 6). -/
def Obligations.StuckOperationNeverFinishes : Prop :=
  (∀ (s t : State) (k : Nat) (b : Block), s.block? k = some b → b.phase = .busy → b.job.stuck = true →
    s.script.head? ≠ some (.reset k) → step s = .next t → t.block? k = some b) ∧
  (∀ (s t : State) (k : Nat) (b : Block) (rest : List Event), s.script = .wait k :: rest → s.block? k = some b →
    b.phase = .busy → b.job.stuck = true → step s = .next t → t.script = .wait k :: rest) ∧
  (∀ (s : State) (k : Nat) (b : Block) (rest : List Event), s.script = .wait k :: rest → s.block? k = some b →
    b.phase = .busy → b.job.stuck = true → (∀ x ∈ s.blocks, x.phase = .busy → x.job.stuck = true) →
    step s = .next s)

/-! ### Agents, memory and reset -/

/-- R61, R32, R224: a write of another agent into the read set or write set of an operation is refused while the
operation is BUSY and on until the host has read its DONE; a read of its write set in that time gives any value (the
next free value, whatever it is).  That reads after FINISH are free until then is log 25. -/
def Obligations.AgentAccessToBusyBuffers : Prop :=
  ∀ (s : State) (k a : Nat) (b : Block) (x : Sets) (v : Byte) (rest : List Event),
    s.block? k = some b → (b.phase = .busy ∧ x = b.job.sets) ∨ x ∈ b.unseen → a < 2 ^ s.params.aw →
    s.params.Plain a →
    (x.reads.Has a ∨ x.writes.Has a → s.script = .memWrite a v :: rest →
      step s = .refused .bufferInterference) ∧
    (x.writes.Has a → s.script = .memRead a :: rest →
      step s = .next (((s.setScript rest).observe (.mem a (Config.freeByte s.draws))).draw 1))

/-- R59, R50: a byte an agent writes to plain memory that no operation in progress uses (none that is BUSY, and none
whose DONE the host has not read) is what the next read of that address gives, whatever other blocks are doing, and no
other address changes; an address of `2^AW` or more is a fault (log 16). -/
def Obligations.PlainMemoryReadsBackWhatWasWritten : Prop :=
  (∀ (s : State) (a : Nat) (v : Byte) (rest : List Event), s.mem.wf = true → a < 2 ^ s.params.aw →
    s.params.Plain a → ¬ s.InUse a → s.script = .memWrite a v :: .memRead a :: rest →
    ∃ t, steps 2 s = .next t ∧ t.script = rest ∧ t.seen = .mem a v :: s.seen ∧ t.blocks = s.blocks ∧
      ∀ x, x ≠ a → t.mem.read x = s.mem.read x) ∧
  (∀ (s : State) (a : Nat) (v : Byte) (rest : List Event), 2 ^ s.params.aw ≤ a →
    (s.script = .memWrite a v :: rest ∨ s.script = .memRead a :: rest) → step s = .fault .addressOutsideSpace)

/-- R212, R211: reset of a block leaves it IDLE with no operand register written and no operation to resume; where it
was BUSY, bytes outside its write set are unchanged; where it was not, all of memory is. That the other blocks keep
their state is log 13. -/
def Obligations.ResetAbandonsTheOperation : Prop :=
  ∀ (s : State) (k : Nat) (b : Block) (rest : List Event), s.mem.wf = true → s.script = .reset k :: rest →
    s.block? k = some b →
    ∃ (t : State) (b' : Block), step s = .next t ∧ t.block? k = some b' ∧ b'.phase = .idle ∧
      b'.phase.status = 0x00 ∧ b'.src.written = false ∧ b'.dst.written = false ∧ b'.len.written = false ∧
      (∀ j, j ≠ k → t.block? j = s.block? j) ∧ t.params = s.params ∧ t.script = rest ∧
      (b.phase ≠ .busy → t.mem = s.mem) ∧
      ∀ a, ¬ b.job.sets.writes.Has a → t.mem.read a = s.mem.read a

/-! ### Whole-machine rules -/

/-- The invariant of the state holds right after reset. -/
def Obligations.ResetMeetsTheInvariant : Prop :=
  State.reset.Inv ∧ State.reset.BuffersKept

/-- Every step keeps the invariant of the state: memory canonical and inside the address space (R50), every `AW`-bit
register an `AW`-bit value (R20, R28, R56), the parameters legal (R6), every BUSY block running one of the three
operations (R31). -/
def Obligations.EveryStepKeepsTheInvariant : Prop :=
  ∀ s t : State, s.Inv → step s = .next t → t.Inv

/-- R61, R66, R69: every step keeps the buffers of operations apart, from START until the host has read DONE (D14,
log 25), and the outcomes of BUSY operations as they were at START. -/
def Obligations.EveryStepKeepsTheBuffersApart : Prop :=
  ∀ s t : State, s.Inv → s.BuffersKept → step s = .next t → t.BuffersKept

/-- R33, R226: in every state of the two invariants, a BUSY operation that was not stuck at START finishes when its
block has its turn (the event `turn` of log 9): nothing that other agents did meanwhile turned its outcome into refuse
or stuck. -/
def Obligations.StartedOperationFinishesAtItsTurn : Prop :=
  ∀ (s : State) (k : Nat) (b : Block) (rest : List Event), s.Inv → s.BuffersKept → s.script = .turn k :: rest →
    s.block? k = some b → b.phase = .busy → b.job.stuck = false →
    ∃ (t : State) (b' : Block), step s = .next t ∧ t.block? k = some b' ∧ b'.phase = .done

/-- R30, R26: the phases as STATUS shows them, and that every step moves a block only from IDLE or DONE to BUSY by a
CMD write, from BUSY to DONE by FINISH, which takes place where it has its turn (its event `turn`, a WAIT, or no event
to come), or to IDLE by its reset.  That FINISH takes place at exactly these is the model's choice of log 6 and log 9,
and that reset is an event of one block is log 13. -/
def Obligations.PhasesMoveOnlyAsTabled : Prop :=
  Phase.idle.status = 0x00 ∧ Phase.busy.status = 0x01 ∧ Phase.done.status = 0x02 ∧
  ∀ (s t : State) (k : Nat) (b : Block), step s = .next t → s.block? k = some b →
    ∃ b', t.block? k = some b' ∧
      (b'.phase = b.phase ∨
       (b.phase ≠ .busy ∧ b'.phase = .busy ∧ ∃ v, s.script.head? = some (.wr k 0 v)) ∨
       (b.phase = .busy ∧ b'.phase = .done ∧
         (s.script = [] ∨ s.script.head? = some (.turn k) ∨ ∃ j, s.script.head? = some (.wait j))) ∨
       (b'.phase = .idle ∧ s.script.head? = some (.reset k)))

/-- R25: RET of a block changes only at its FINISH or at its reset (reset is an event of one block by log 13). -/
def Obligations.RetChangesOnlyAtFinish : Prop :=
  ∀ (s t : State) (k : Nat) (b : Block), step s = .next t → s.block? k = some b →
    ∃ b', t.block? k = some b' ∧
      (b'.ret = b.ret ∨ (b.phase = .busy ∧ b'.phase = .done) ∨ s.script.head? = some (.reset k))

/-- R22, R23, R24: SRC, DST and LEN are "never written by the block": they change only where the next event is a host
write to that block while it is not BUSY (R32), or its reset (an event of one block by log 13). -/
def Obligations.OperandRegistersChangeOnlyByTheHost : Prop :=
  ∀ (s t : State) (k : Nat) (b : Block), step s = .next t → s.block? k = some b →
    ∃ b', t.block? k = some b' ∧
      ((b'.src = b.src ∧ b'.dst = b.dst ∧ b'.len = b.len) ∨
       (b.phase ≠ .busy ∧ ∃ reg v, s.script.head? = some (.wr k reg v)) ∨
       s.script.head? = some (.reset k))

/-- R6, R199: no step changes the parameters or the number of blocks. -/
def Obligations.ParametersAndBlocksAreFixed : Prop :=
  ∀ s t : State, step s = .next t → t.params = s.params ∧ t.blocks.length = s.blocks.length

/-- R55, R34: a byte of memory changes only by an agent's write to it, or in the write set of a BUSY operation; so
with every block IDLE or DONE the blocks write nothing. -/
def Obligations.MemoryChangesOnlyInBusyWriteSets : Prop :=
  ∀ (s t : State) (a : Nat), s.Inv → s.BuffersKept → step s = .next t → t.mem.read a ≠ s.mem.read a →
    (∃ v, s.script.head? = some (.memWrite a v)) ∨
    (∃ b ∈ s.blocks, b.phase = .busy ∧ b.job.sets.writes.Has a)

/-- R35: two complete operations with the same command, used operands and read-set bytes, whatever else differs
between the two machines of one platform, finish with the same RET and the same bytes in the write set.  The outcomes
stuck and refuse are EqualStartsHaveEqualOutcomes. -/
def Obligations.OutcomeDependsOnlyOnOperandsAndReadSet : Prop :=
  ∀ (i : Instr) (s1 s2 t1 : State) (b1 b2 b1' : Block), s1.params = s2.params → s1.mem.wf = true →
    s2.mem.wf = true → s1.block? s1.sel = some b1 → s2.block? s2.sel = some b2 →
    b1.phase = .busy → b2.phase = .busy → b1.job.stuck = false → b2.job.stuck = false →
    b1.sSrc = b2.sSrc → (i ≠ .valid → b1.sDst = b2.sDst) → (i = .enc → b1.sLen = b2.sLen) →
    (∀ a, (opSets i s1.params s1.mem b1.sSrc b1.sDst b1.sLen).reads.Has a → s1.mem.read a = s2.mem.read a) →
    exec i s1 = .next t1 → t1.block? s1.sel = some b1' → b1'.phase = .done →
    ∃ (t2 : State) (b2' : Block), exec i s2 = .next t2 ∧ t2.block? s2.sel = some b2' ∧ b2'.phase = .done ∧
      b2'.ret = b1'.ret ∧
      ∀ a, (opSets i s1.params s1.mem b1.sSrc b1.sDst b1.sLen).writes.Has a → t2.mem.read a = t1.mem.read a

/-- R69: two BUSY operations on different blocks finish in either order with the same blocks and the same memory. -/
def Obligations.FinishOrderOfTwoBlocksDoesNotMatter : Prop :=
  ∀ (s : State) (j k : Nat) (x y : Block) (rest : List Event), s.Inv → s.BuffersKept → j ≠ k →
    s.block? j = some x → s.block? k = some y → x.phase = .busy → y.phase = .busy →
    x.job.stuck = false → y.job.stuck = false →
    ∃ t1 t2 : State, steps 2 (s.setScript (.turn j :: .turn k :: rest)) = .next t1 ∧
      steps 2 (s.setScript (.turn k :: .turn j :: rest)) = .next t2 ∧
      t1.blocks = t2.blocks ∧ t1.mem = t2.mem ∧ t1.script = rest ∧ t2.script = rest

/-- R82, R83: a request on a block that is not BUSY, whose operation is complete for the request's operands, runs
through its expansion (operand writes, CMD write, WAIT, `RD RET`) to the operation's memory and a read of its return
value, and leaves no DONE to be read.  That WAIT takes two steps, the FINISH and the poll that shows DONE, and records
nothing is log 6; that a block in DONE takes the writes also before a STATUS read has shown DONE = 1 is log 28. -/
def Obligations.RequestRunsToItsResult : Prop :=
  ∀ (s : State) (k : Nat) (b : Block) (r : Request) (rest : List Event) (src dst n : Nat),
    s.block? k = some b → b.phase ≠ .busy → r.wf s.params = true → r.operands = (src, dst, n) →
    opVerdict r.instr s.params s.mem src dst n = .complete →
    (s.select k).ClearOf (opSets r.instr s.params s.mem src dst n) →
    ∃ (t : State) (b' : Block),
      steps ((r.expand k).length + 1) (s.setScript (r.expand k ++ rest)) = .next t ∧ t.script = rest ∧
      t.mem = (opResult r.instr s.params s.mem src dst n).mem ∧
      t.seen = .reg k .ret (opResult r.instr s.params s.mem src dst n).ret :: s.seen ∧
      t.block? k = some b' ∧ b'.phase = .done ∧ b'.unseen = [] ∧
      b'.ret = (opResult r.instr s.params s.mem src dst n).ret ∧
      ∀ j, j ≠ k → t.block? j = s.block? j

/-- R35, for all four outcomes: the outcome and the access sets of an operation depend only on its used operands and
the bytes of its read set.  R54 gives an unterminated text no read set, and there it is every byte from SRC up to the
top address that decides.  So two STARTs with the same command, used operands and such bytes are refused alike, or both
start with the same sets and are both stuck or both not. -/
def Obligations.EqualStartsHaveEqualOutcomes : Prop :=
  (∀ (i : Instr) (p : Params) (m1 m2 : Memory) (src dst1 dst2 len1 len2 : Nat),
    (i ≠ .valid → dst1 = dst2) → (i = .enc → len1 = len2) →
    (∀ a, (opSets i p m1 src dst1 len1).reads.Has a ∨
      (i ≠ .enc ∧ textLen p m1 src = none ∧ src ≤ a ∧ a < 2 ^ p.aw) → m1.read a = m2.read a) →
    opVerdict i p m2 src dst2 len2 = opVerdict i p m1 src dst1 len1 ∧
    opSets i p m2 src dst2 len2 = opSets i p m1 src dst1 len1) ∧
  (∀ (i : Instr) (s1 s2 : State) (b1 b2 : Block), s1.params = s2.params →
    s1.block? s1.sel = some b1 → s2.block? s2.sel = some b2 → b1.phase ≠ .busy → b2.phase ≠ .busy →
    b1.OperandsWritten i → b2.OperandsWritten i → b1.src.value = b2.src.value →
    (i ≠ .valid → b1.dst.value = b2.dst.value) → (i = .enc → b1.len.value = b2.len.value) →
    (∀ a, (opSets i s1.params s1.mem b1.src.value b1.dst.value b1.len.value).reads.Has a ∨
      (i ≠ .enc ∧ textLen s1.params s1.mem b1.src.value = none ∧ b1.src.value ≤ a ∧ a < 2 ^ s1.params.aw) →
      s1.mem.read a = s2.mem.read a) →
    s1.ClearOf (opSets i s1.params s1.mem b1.src.value b1.dst.value b1.len.value) →
    s2.ClearOf (opSets i s1.params s1.mem b1.src.value b1.dst.value b1.len.value) →
    (∃ r, exec i s1 = .refused r ∧ exec i s2 = .refused r) ∨
    (∃ (t1 t2 : State) (x1 x2 : Block), exec i s1 = .next t1 ∧ exec i s2 = .next t2 ∧
      t1.block? s1.sel = some x1 ∧ t2.block? s2.sel = some x2 ∧ x1.phase = .busy ∧ x2.phase = .busy ∧
      x1.job = x2.job))

/-- R226 with the fairness of D22: in every state of the two invariants, where no event stands in the way (there is
none to come, or the host waits for a block that is not DONE), each step finishes one more of the BUSY
operations that are not stuck, until none is left; so every such operation finishes, whatever the host waits for.  That
one step finishes one of them is log 6 and log 9. -/
def Obligations.WaitingLetsEveryOperationFinish : Prop :=
  ∀ (s : State), s.Inv → s.BuffersKept →
    (s.script = [] ∨ ∃ k rest x, s.script = .wait k :: rest ∧ s.block? k = some x ∧ x.phase ≠ .done) →
    (∃ b ∈ s.blocks, b.phase = .busy ∧ b.job.stuck = false) →
    ∃ (t : State) (k : Nat) (b b' : Block), step s = .next t ∧ t.script = s.script ∧
      s.block? k = some b ∧ b.phase = .busy ∧ t.block? k = some b' ∧ b'.phase = .done ∧
      t.blocks.countP Block.runnable + 1 = s.blocks.countP Block.runnable

/-- R83: WAIT ends where the block is DONE, by a read that shows DONE = 1, and changes nothing else; that read is the
observation that ends the duty of R224 (log 25). -/
def Obligations.WaitEndsWhenDoneIsRead : Prop :=
  ∀ (s : State) (k : Nat) (b : Block) (rest : List Event), s.script = .wait k :: rest → s.block? k = some b →
    b.phase = .done → step s = .next ((s.setScript rest).putBlock k { b with unseen := [] })

/-- R61, R66, R224: from START until the host has read DONE, no step changes a byte of the operation's read set or
write set but a FINISH of the same block or the reset of that block while it is BUSY.  The sets of a finished
operation are the record of log 25. -/
def Obligations.BuffersStandUntilDoneIsRead : Prop :=
  ∀ (s t : State) (k a : Nat) (b : Block) (x : Sets), s.Inv → s.BuffersKept → step s = .next t →
    s.block? k = some b → (b.phase = .busy ∧ x = b.job.sets) ∨ x ∈ b.unseen → x.reads.Has a ∨ x.writes.Has a →
    t.mem.read a ≠ s.mem.read a →
    b.phase = .busy ∧ b.job.sets.writes.Has a ∧
      ((∃ b', t.block? k = some b' ∧ b'.phase = .done) ∨ s.script.head? = some (.reset k))

/-- R223, R32, R39: while the block is BUSY a read of STATUS goes on and shows BUSY, every host write is refused, and a
read of RET or CMD gives any value (the next free value, whatever it is); and once a STATUS read has shown DONE = 1, a
read of RET gives the return value.  That the duty of R223 ends with BUSY and not at the STATUS read is log 28. -/
def Obligations.RegistersAreLeftAloneWhileBusy : Prop :=
  ∀ (s : State) (k : Nat) (rest : List Event) (b : Block), s.block? k = some b →
    (b.phase = .busy →
      (s.script = .rd k 5 :: rest → step s = .next ((s.setScript rest).observe (.reg k .status 0x01))) ∧
      (∀ reg v, s.script = .wr k reg v :: rest → ∃ r, step s = .refused r) ∧
      (s.script = .rd k 4 :: rest → step s = .next (((s.setScript rest).observe
        (.reg k .ret (Config.freeWord s.params.aw s.draws).toNat)).draw 1)) ∧
      (s.script = .rd k 0 :: rest → step s = .next (((s.setScript rest).observe
        (.reg k .cmd (Config.freeByte s.draws).toNat)).draw 1))) ∧
    (b.phase = .done → s.script = .rd k 5 :: .rd k 4 :: rest → ∃ t : State, steps 2 s = .next t ∧
      t.script = rest ∧ t.seen = .reg k .ret b.ret :: .reg k .status 0x02 :: s.seen)

/-- R34, R25: in DONE, whether or not the host has read it (log 28), a host write of SRC, DST or LEN changes neither
RET, nor STATUS, nor memory, so that RET reads after it as before; RET reads the same at every read; and with the operands
of operation `i` written, its outcome not refuse and no other block's buffers in the way, a write of its command byte
turns the block BUSY and clears DONE, with memory unchanged. -/
def Obligations.DoneHoldsUntilTheNextStart : Prop :=
  ∀ (s : State) (k : Nat) (b : Block) (rest : List Event), s.block? k = some b → b.phase = .done →
    (∀ reg v, 1 ≤ reg → reg ≤ 3 → v < 2 ^ s.params.aw → s.script = .wr k reg v :: .rd k 4 :: .rd k 5 :: rest →
      ∃ (t : State) (b' : Block), steps 3 s = .next t ∧ t.script = rest ∧ t.mem = s.mem ∧ t.block? k = some b' ∧
        b'.ret = b.ret ∧ b'.phase = .done ∧ t.seen = .reg k .status 0x02 :: .reg k .ret b.ret :: s.seen) ∧
    (s.script = .rd k 4 :: .rd k 4 :: rest → ∃ t : State, steps 2 s = .next t ∧ t.script = rest ∧
      t.seen = .reg k .ret b.ret :: .reg k .ret b.ret :: s.seen ∧ t.mem = s.mem ∧ t.blocks = s.blocks) ∧
    (∀ (i : Instr) (v : Nat), v < 2 ^ 8 → decode [BitVec.ofNat 8 v] = .ok (i, []) → s.script = .wr k 0 v :: rest →
      b.OperandsWritten i →
      (∀ r, opVerdict i s.params s.mem b.src.value b.dst.value b.len.value ≠ .refuse r) →
      (s.select k).ClearOf (opSets i s.params s.mem b.src.value b.dst.value b.len.value) →
      ∃ (t : State) (b' : Block), step s = .next t ∧ t.script = rest ∧ t.mem = s.mem ∧ t.block? k = some b' ∧
        b'.phase = .busy ∧ b'.phase.status = 0x01 ∧ b'.ret = b.ret)
end

