-- ==== Sys2Proof/Laws/Memory.lean ====
section
/-! SUPPORT. The laws of memory: a read after a write, the canonical form, the address bound, bytes of a buffer, and
the meaning of the range predicates address by address. -/

namespace Sys2Proof

/-- Two ranges are disjoint exactly when no address lies in both. -/
theorem Range.disjoint_iff (r q : Range) : r.Disjoint q ↔ ∀ a, r.Has a → ¬ q.Has a := by
  constructor
  · rintro h a ⟨h1, h2⟩ ⟨h3, h4⟩
    rcases h with h | h | h | h <;> omega
  · intro h
    have h1 := h r.lo
    have h2 := h q.lo
    simp only [Range.Has, Range.Disjoint] at *
    omega

theorem Range.disjoint_symm {r q : Range} (h : r.Disjoint q) : q.Disjoint r := by
  simp only [Range.Disjoint] at *
  omega

/-- A range is admitted exactly when every address of it is (R63). -/
theorem Params.admitsAll_iff (p : Params) (k : AccessKind) (r : Range) :
    p.AdmitsAll k r ↔ ∀ a, r.Has a → p.Admits k a := by
  constructor
  · intro h a ha d hd hk hda
    exact (Range.disjoint_iff _ _).mp (h d hd hk) a hda ha
  · intro h d hd hk
    exact (Range.disjoint_iff _ _).mpr fun a hda ha => h a ha d hd hk hda

/-- A range is plain memory exactly when every address of it is (R59). -/
theorem Params.plainAll_iff (p : Params) (r : Range) : p.PlainAll r ↔ ∀ a, r.Has a → p.Plain a := by
  constructor
  · intro h a ha q hq hqa
    exact (Range.disjoint_iff _ _).mp (h q hq) a hqa ha
  · intro h q hq
    exact (Range.disjoint_iff _ _).mpr fun a hqa ha => h a ha q hq hqa

namespace Machine

/-! ### The canonical form -/

theorem Memory.wfFrom_le {m : Memory} {lo hi : Nat} (h : Memory.wfFrom hi m = true) (hl : lo ≤ hi) :
    Memory.wfFrom lo m = true := by
  cases m with
  | nil => rfl
  | cons c rest =>
    obtain ⟨k, b⟩ := c
    simp only [Memory.wfFrom, Bool.and_eq_true, decide_eq_true_eq] at *
    exact ⟨⟨by omega, h.1.2⟩, h.2⟩

/-- Below the first listed address every address reads as unlisted. -/
theorem Memory.read_below {m : Memory} {lo a : Nat} (h : Memory.wfFrom lo m = true) (ha : a < lo) :
    Memory.read m a = Memory.unlisted := by
  induction m generalizing lo with
  | nil => rfl
  | cons c rest ih =>
    obtain ⟨k, b⟩ := c
    simp only [Memory.wfFrom, Bool.and_eq_true, decide_eq_true_eq] at h
    have hne : a ≠ k := by omega
    simp only [Memory.read, hne, if_false]
    exact ih h.2 (by omega)

/-- A write keeps the canonical form from any bound at or below the address. -/
theorem Memory.wfFrom_write {m : Memory} {lo a : Nat} (v : Byte) (h : Memory.wfFrom lo m = true) (ha : lo ≤ a) :
    Memory.wfFrom lo (Memory.write m a v) = true := by
  induction m generalizing lo with
  | nil =>
    by_cases hv : v = Memory.unlisted
    · simp [Memory.write, hv, Memory.wfFrom]
    · simp [Memory.write, hv, Memory.wfFrom, ha]
  | cons c rest ih =>
    obtain ⟨k, b⟩ := c
    have h' := h
    simp only [Memory.wfFrom, Bool.and_eq_true, decide_eq_true_eq] at h
    by_cases hak : a < k
    · by_cases hv : v = Memory.unlisted
      · simpa [Memory.write, hak, hv] using h'
      · simp only [Memory.write, hak, hv, if_true, if_false, Memory.wfFrom, Bool.and_eq_true, decide_eq_true_eq]
        exact ⟨⟨ha, hv⟩, ⟨by omega, h.1.2⟩, h.2⟩
    · by_cases hek : a = k
      · subst hek
        by_cases hv : v = Memory.unlisted
        · simp only [Memory.write, Nat.lt_irrefl, hv, if_true, if_false]
          exact Memory.wfFrom_le h.2 (by omega)
        · simp only [Memory.write, Nat.lt_irrefl, hv, if_true, if_false, Memory.wfFrom, Bool.and_eq_true,
            decide_eq_true_eq]
          exact ⟨⟨ha, hv⟩, h.2⟩
      · simp only [Memory.write, hak, hek, if_false, Memory.wfFrom, Bool.and_eq_true, decide_eq_true_eq]
        exact ⟨⟨h.1.1, h.1.2⟩, ih h.2 (by omega)⟩

/-- A write keeps the canonical form. -/
theorem Memory.wf_write {m : Memory} (h : m.wf = true) (a : Nat) (v : Byte) : (m.write a v).wf = true :=
  Memory.wfFrom_write v h (Nat.zero_le a)

/-- Free bytes stored over a range keep the canonical form. -/
theorem Memory.wf_scramble {m : Memory} (h : m.wf = true) (a d n : Nat) : (m.scramble a d n).wf = true := by
  induction n generalizing m a d with
  | zero => exact h
  | succ n ih => exact ih (Memory.wf_write h a _) (a + 1) (d + 1)

/-! ### Read after write -/

theorem Memory.read_writeFrom {m : Memory} {lo : Nat} (h : Memory.wfFrom lo m = true) (a x : Nat) (v : Byte) :
    (Memory.write m a v).read x = if x = a then v else Memory.read m x := by
  induction m generalizing lo with
  | nil =>
    by_cases hv : v = Memory.unlisted <;> by_cases hx : x = a <;> simp [Memory.write, Memory.read, hv, hx]
  | cons c rest ih =>
    obtain ⟨k, b⟩ := c
    simp only [Memory.wfFrom, Bool.and_eq_true, decide_eq_true_eq] at h
    by_cases hak : a < k
    · by_cases hv : v = Memory.unlisted
      · simp only [Memory.write, hak, hv, if_true]
        by_cases hx : x = a
        · subst hx
          have hxk : x ≠ k := by omega
          simp only [Memory.read, hxk, if_false, if_true]
          exact Memory.read_below h.2 (by omega)
        · simp [hx]
      · simp [Memory.write, hak, hv, Memory.read]
    · by_cases hek : a = k
      · subst hek
        by_cases hv : v = Memory.unlisted
        · simp only [Memory.write, Nat.lt_irrefl, hv, if_true, if_false]
          by_cases hx : x = a
          · subst hx
            simpa using Memory.read_below h.2 (Nat.lt_succ_self x)
          · simp [Memory.read, hx]
        · by_cases hx : x = a <;> simp [Memory.write, Memory.read, hv, hx]
      · simp only [Memory.write, hak, hek, if_false, Memory.read]
        by_cases hx : x = k
        · subst hx
          have : x ≠ a := fun e => hek e.symm
          simp [this]
        · simp only [hx, if_false]
          exact ih h.2

/-- A read after a write: the byte written at its address, the old byte anywhere else (R59). -/
theorem Memory.read_write {m : Memory} (h : m.wf = true) (a x : Nat) (v : Byte) :
    (m.write a v).read x = if x = a then v else m.read x :=
  Memory.read_writeFrom h a x v

/-- Free bytes stored over a range leave every address outside it alone (R212). -/
theorem Memory.read_scramble_outside {m : Memory} (h : m.wf = true) (a d n x : Nat)
    (hx : ¬ (⟨a, n⟩ : Range).Has x) : (m.scramble a d n).read x = m.read x := by
  induction n generalizing m a d with
  | zero => rfl
  | succ n ih =>
    have h1 : ¬ (⟨a + 1, n⟩ : Range).Has x := by
      simp only [Range.Has] at *
      omega
    have h2 : x ≠ a := by
      simp only [Range.Has] at hx
      omega
    rw [Memory.scramble, ih (Memory.wf_write h a _) (a + 1) (d + 1) h1, Memory.read_write h]
    simp [h2]

/-- In the canonical form equal reads are equal memories. -/
theorem Memory.ext_from {m m' : Memory} {lo : Nat} (h : Memory.wfFrom lo m = true) (h' : Memory.wfFrom lo m' = true)
    (hr : ∀ a, m.read a = m'.read a) : m = m' := by
  induction m generalizing m' lo with
  | nil =>
    cases m' with
    | nil => rfl
    | cons c rest =>
      obtain ⟨k, b⟩ := c
      simp only [Memory.wfFrom, Bool.and_eq_true, decide_eq_true_eq] at h'
      have := hr k
      simp only [Memory.read, if_true] at this
      exact absurd this.symm h'.1.2
  | cons c rest ih =>
    obtain ⟨k, b⟩ := c
    have hw := h
    simp only [Memory.wfFrom, Bool.and_eq_true, decide_eq_true_eq] at h
    cases m' with
    | nil =>
      have := hr k
      simp only [Memory.read, if_true] at this
      exact absurd this h.1.2
    | cons c' rest' =>
      obtain ⟨k', b'⟩ := c'
      have hw' := h'
      simp only [Memory.wfFrom, Bool.and_eq_true, decide_eq_true_eq] at h'
      have hk : k = k' := by
        rcases Nat.lt_trichotomy k k' with hlt | heq | hgt
        · have hx := hr k
          have hne : k ≠ k' := by omega
          simp only [Memory.read, if_true, hne, if_false] at hx
          rw [Memory.read_below h'.2 (by omega)] at hx
          exact absurd hx h.1.2
        · exact heq
        · have hx := hr k'
          have hne : k' ≠ k := by omega
          simp only [Memory.read, if_true, hne, if_false] at hx
          rw [Memory.read_below h.2 (by omega)] at hx
          exact absurd hx.symm h'.1.2
      subst hk
      have hb : b = b' := by simpa [Memory.read] using hr k
      subst hb
      have : rest = rest' := by
        refine ih h.2 h'.2 fun a => ?_
        by_cases ha : a = k
        · subst ha
          rw [Memory.read_below h.2 (by omega), Memory.read_below h'.2 (by omega)]
        · simpa [Memory.read, ha] using hr a
      rw [this]

/-- In the canonical form equal reads are equal memories. -/
theorem Memory.ext {m m' : Memory} (h : m.wf = true) (h' : m'.wf = true) (hr : ∀ a, m.read a = m'.read a) : m = m' :=
  Memory.ext_from h h' hr

/-! ### The address bound -/

theorem Memory.below_write {m : Memory} {top a : Nat} (h : m.Below top) (ha : a < top) (v : Byte) :
    (m.write a v).Below top := by
  induction m with
  | nil =>
    intro c hc
    by_cases hv : v = Memory.unlisted
    · simp [Memory.write, hv] at hc
    · simp only [Memory.write, hv, if_false, List.mem_singleton] at hc
      subst hc
      exact ha
  | cons c rest ih =>
    obtain ⟨k, b⟩ := c
    have hk : k < top := h (k, b) (List.mem_cons_self ..)
    have hrest : Memory.Below rest top := fun x hx => h x (List.mem_cons_of_mem _ hx)
    intro x hx
    simp only [Memory.write] at hx
    split at hx
    · split at hx
      · exact h x hx
      · rcases List.mem_cons.mp hx with rfl | hx
        · exact ha
        · exact h x hx
    · split at hx
      · split at hx
        · exact hrest x hx
        · rcases List.mem_cons.mp hx with rfl | hx
          · exact ha
          · exact hrest x hx
      · rcases List.mem_cons.mp hx with rfl | hx
        · exact hk
        · exact ih hrest x hx

theorem Memory.below_scramble {m : Memory} {top a : Nat} (h : m.Below top) (d n : Nat)
    (hn : n = 0 ∨ a + n ≤ top) : (m.scramble a d n).Below top := by
  induction n generalizing m a d with
  | zero => exact h
  | succ n ih => exact ih (Memory.below_write h (by omega) _) (d + 1) (by omega)

/-! ### The bytes of a buffer (R51) -/

@[simp] theorem Memory.length_bytes (m : Memory) (a n : Nat) : (m.bytes a n).length = n := by
  induction n generalizing a with
  | zero => rfl
  | succ n ih => simp [Memory.bytes, ih]

/-- Element `k` of a buffer at `a` is the byte at `a + k`. -/
theorem Memory.getElem?_bytes (m : Memory) (a n k : Nat) :
    (m.bytes a n)[k]? = if k < n then some (m.read (a + k)) else none := by
  induction n generalizing a k with
  | zero => simp [Memory.bytes]
  | succ n ih =>
    cases k with
    | zero => simp [Memory.bytes]
    | succ k =>
      simp only [Memory.bytes, List.getElem?_cons_succ, ih, Nat.add_lt_add_iff_right]
      rw [Nat.add_right_comm, Nat.add_assoc]

/-- Memories that agree on a buffer have the same bytes there. -/
theorem Memory.bytes_congr {m m' : Memory} {a n : Nat} (h : ∀ x, (⟨a, n⟩ : Range).Has x → m.read x = m'.read x) :
    m.bytes a n = m'.bytes a n := by
  induction n generalizing a with
  | zero => rfl
  | succ n ih =>
    have h0 : m.read a = m'.read a := h a (by simp [Range.Has])
    have h1 : m.bytes (a + 1) n = m'.bytes (a + 1) n := ih fun x hx => h x (by simp only [Range.Has] at *; omega)
    simp only [Memory.bytes, h0, h1]

end Machine
end Sys2Proof
end

