-- ==== Sys2Proof/Laws/State.lean ====
section
/-! SUPPORT. One lemma for each field of State and of Block under each named update, so that no later proof unfolds a
record update; and which block a named update leaves at which number. -/

namespace Sys2Proof.Machine

variable (s : State)

/-! ### setMem -/

@[simp] theorem State.setMem_params (m : Memory) : (s.setMem m).params = s.params := rfl
@[simp] theorem State.setMem_mem (m : Memory) : (s.setMem m).mem = m := rfl
@[simp] theorem State.setMem_blocks (m : Memory) : (s.setMem m).blocks = s.blocks := rfl
@[simp] theorem State.setMem_sel (m : Memory) : (s.setMem m).sel = s.sel := rfl
@[simp] theorem State.setMem_script (m : Memory) : (s.setMem m).script = s.script := rfl
@[simp] theorem State.setMem_seen (m : Memory) : (s.setMem m).seen = s.seen := rfl
@[simp] theorem State.setMem_draws (m : Memory) : (s.setMem m).draws = s.draws := rfl
@[simp] theorem State.setMem_block? (m : Memory) (j : Nat) : (s.setMem m).block? j = s.block? j := rfl

/-! ### putBlock -/

@[simp] theorem State.putBlock_params (k : Nat) (b : Block) : (s.putBlock k b).params = s.params := rfl
@[simp] theorem State.putBlock_mem (k : Nat) (b : Block) : (s.putBlock k b).mem = s.mem := rfl
@[simp] theorem State.putBlock_blocks (k : Nat) (b : Block) : (s.putBlock k b).blocks = s.blocks.set k b := rfl
@[simp] theorem State.putBlock_sel (k : Nat) (b : Block) : (s.putBlock k b).sel = s.sel := rfl
@[simp] theorem State.putBlock_script (k : Nat) (b : Block) : (s.putBlock k b).script = s.script := rfl
@[simp] theorem State.putBlock_seen (k : Nat) (b : Block) : (s.putBlock k b).seen = s.seen := rfl
@[simp] theorem State.putBlock_draws (k : Nat) (b : Block) : (s.putBlock k b).draws = s.draws := rfl

/-! ### select -/

@[simp] theorem State.select_params (k : Nat) : (s.select k).params = s.params := rfl
@[simp] theorem State.select_mem (k : Nat) : (s.select k).mem = s.mem := rfl
@[simp] theorem State.select_blocks (k : Nat) : (s.select k).blocks = s.blocks := rfl
@[simp] theorem State.select_sel (k : Nat) : (s.select k).sel = k := rfl
@[simp] theorem State.select_script (k : Nat) : (s.select k).script = s.script := rfl
@[simp] theorem State.select_seen (k : Nat) : (s.select k).seen = s.seen := rfl
@[simp] theorem State.select_draws (k : Nat) : (s.select k).draws = s.draws := rfl
@[simp] theorem State.select_block? (k : Nat) (j : Nat) : (s.select k).block? j = s.block? j := rfl

/-! ### setScript -/

@[simp] theorem State.setScript_params (es : List Event) : (s.setScript es).params = s.params := rfl
@[simp] theorem State.setScript_mem (es : List Event) : (s.setScript es).mem = s.mem := rfl
@[simp] theorem State.setScript_blocks (es : List Event) : (s.setScript es).blocks = s.blocks := rfl
@[simp] theorem State.setScript_sel (es : List Event) : (s.setScript es).sel = s.sel := rfl
@[simp] theorem State.setScript_script (es : List Event) : (s.setScript es).script = es := rfl
@[simp] theorem State.setScript_seen (es : List Event) : (s.setScript es).seen = s.seen := rfl
@[simp] theorem State.setScript_draws (es : List Event) : (s.setScript es).draws = s.draws := rfl
@[simp] theorem State.setScript_block? (es : List Event) (j : Nat) : (s.setScript es).block? j = s.block? j := rfl

/-! ### observe -/

@[simp] theorem State.observe_params (o : Seen) : (s.observe o).params = s.params := rfl
@[simp] theorem State.observe_mem (o : Seen) : (s.observe o).mem = s.mem := rfl
@[simp] theorem State.observe_blocks (o : Seen) : (s.observe o).blocks = s.blocks := rfl
@[simp] theorem State.observe_sel (o : Seen) : (s.observe o).sel = s.sel := rfl
@[simp] theorem State.observe_script (o : Seen) : (s.observe o).script = s.script := rfl
@[simp] theorem State.observe_seen (o : Seen) : (s.observe o).seen = o :: s.seen := rfl
@[simp] theorem State.observe_draws (o : Seen) : (s.observe o).draws = s.draws := rfl
@[simp] theorem State.observe_block? (o : Seen) (j : Nat) : (s.observe o).block? j = s.block? j := rfl

/-! ### draw -/

@[simp] theorem State.draw_params (n : Nat) : (s.draw n).params = s.params := rfl
@[simp] theorem State.draw_mem (n : Nat) : (s.draw n).mem = s.mem := rfl
@[simp] theorem State.draw_blocks (n : Nat) : (s.draw n).blocks = s.blocks := rfl
@[simp] theorem State.draw_sel (n : Nat) : (s.draw n).sel = s.sel := rfl
@[simp] theorem State.draw_script (n : Nat) : (s.draw n).script = s.script := rfl
@[simp] theorem State.draw_seen (n : Nat) : (s.draw n).seen = s.seen := rfl
@[simp] theorem State.draw_draws (n : Nat) : (s.draw n).draws = s.draws + n := rfl
@[simp] theorem State.draw_block? (n : Nat) (j : Nat) : (s.draw n).block? j = s.block? j := rfl

/-! ### Blocks by number -/

/-- A block that exists is replaced by the block put in its place. -/
theorem State.putBlock_block?_same {k : Nat} {b : Block} (h : s.block? k = some b) (b' : Block) :
    (s.putBlock k b').block? k = some b' := by
  obtain ⟨hk, -⟩ := List.getElem?_eq_some_iff.mp h
  simp [State.block?, State.putBlock, hk]

/-- No other block is touched. -/
theorem State.putBlock_block?_other {j k : Nat} (h : j ≠ k) (b' : Block) :
    (s.putBlock k b').block? j = s.block? j := by
  simp [State.block?, State.putBlock, List.getElem?_set_ne (Ne.symm h)]

/-- The block found after a replacement is the new one, or one that was there before under the same number. -/
theorem State.putBlock_block?_cases {j k : Nat} {b' x : Block} (h : (s.putBlock k b').block? j = some x) :
    (j = k ∧ x = b') ∨ (j ≠ k ∧ s.block? j = some x) := by
  by_cases hj : j = k
  · subst hj
    left
    refine ⟨rfl, ?_⟩
    have h' := h
    simp only [State.block?, State.putBlock] at h'
    obtain ⟨hlt, hx⟩ := List.getElem?_eq_some_iff.mp h'
    simpa using hx.symm
  · exact .inr ⟨hj, by rwa [State.putBlock_block?_other s hj] at h⟩

/-- The number of blocks does not change. -/
@[simp] theorem State.putBlock_length (k : Nat) (b : Block) : (s.putBlock k b).blocks.length = s.blocks.length := by
  simp [State.putBlock]

/-- A block found by number is a member of the list. -/
theorem State.block?_mem {k : Nat} {b : Block} (h : s.block? k = some b) : b ∈ s.blocks :=
  List.mem_of_getElem? h

/-- A member of the list is found by number. -/
theorem State.exists_block? {b : Block} (h : b ∈ s.blocks) : ∃ k, s.block? k = some b :=
  List.getElem?_of_mem h

/-! ### A block after START, after FINISH and after reset -/

variable (b : Block) (i : Instr) (j : Job) (r : Result)

@[simp] theorem Block.started_src : (b.started i j).src = b.src := rfl
@[simp] theorem Block.started_dst : (b.started i j).dst = b.dst := rfl
@[simp] theorem Block.started_len : (b.started i j).len = b.len := rfl
@[simp] theorem Block.started_ret : (b.started i j).ret = b.ret := rfl
@[simp] theorem Block.started_phase : (b.started i j).phase = .busy := rfl
@[simp] theorem Block.started_sOp : (b.started i j).sOp = i.op := rfl
@[simp] theorem Block.started_sSrc : (b.started i j).sSrc = b.src.value := rfl
@[simp] theorem Block.started_sDst : (b.started i j).sDst = if (operandUse i).dst then b.dst.value else b.sDst := rfl
@[simp] theorem Block.started_sLen : (b.started i j).sLen = if (operandUse i).len then b.len.value else b.sLen := rfl
@[simp] theorem Block.started_work : (b.started i j).work = .clear := rfl
@[simp] theorem Block.started_job : (b.started i j).job = j := rfl
@[simp] theorem Block.started_unseen : (b.started i j).unseen = b.unseen := rfl
@[simp] theorem Block.started_held : (b.started i j).held = j.sets :: b.unseen := rfl

@[simp] theorem Block.finished_src : (b.finished r).src = b.src := rfl
@[simp] theorem Block.finished_dst : (b.finished r).dst = b.dst := rfl
@[simp] theorem Block.finished_len : (b.finished r).len = b.len := rfl
@[simp] theorem Block.finished_ret : (b.finished r).ret = r.ret := rfl
@[simp] theorem Block.finished_phase : (b.finished r).phase = .done := rfl
@[simp] theorem Block.finished_sOp : (b.finished r).sOp = b.sOp := rfl
@[simp] theorem Block.finished_sSrc : (b.finished r).sSrc = b.sSrc := rfl
@[simp] theorem Block.finished_sDst : (b.finished r).sDst = b.sDst := rfl
@[simp] theorem Block.finished_sLen : (b.finished r).sLen = b.sLen := rfl
@[simp] theorem Block.finished_work : (b.finished r).work = r.work := rfl
@[simp] theorem Block.finished_job : (b.finished r).job = .none := rfl
@[simp] theorem Block.finished_unseen : (b.finished r).unseen = b.job.sets :: b.unseen := rfl
@[simp] theorem Block.finished_held : (b.finished r).held = b.job.sets :: b.unseen := rfl

@[simp] theorem Block.doneRead_src : b.doneRead.src = b.src := rfl
@[simp] theorem Block.doneRead_dst : b.doneRead.dst = b.dst := rfl
@[simp] theorem Block.doneRead_len : b.doneRead.len = b.len := rfl
@[simp] theorem Block.doneRead_ret : b.doneRead.ret = b.ret := rfl
@[simp] theorem Block.doneRead_phase : b.doneRead.phase = b.phase := rfl
@[simp] theorem Block.doneRead_sOp : b.doneRead.sOp = b.sOp := rfl
@[simp] theorem Block.doneRead_sSrc : b.doneRead.sSrc = b.sSrc := rfl
@[simp] theorem Block.doneRead_sDst : b.doneRead.sDst = b.sDst := rfl
@[simp] theorem Block.doneRead_sLen : b.doneRead.sLen = b.sLen := rfl
@[simp] theorem Block.doneRead_work : b.doneRead.work = b.work := rfl
@[simp] theorem Block.doneRead_job : b.doneRead.job = b.job := rfl
@[simp] theorem Block.doneRead_unseen : b.doneRead.unseen = [] := rfl

theorem Block.held_busy {b : Block} (h : b.phase = .busy) : b.held = b.job.sets :: b.unseen := if_pos h

theorem Block.held_of_not_busy {b : Block} (h : b.phase ≠ .busy) : b.held = b.unseen := if_neg h

@[simp] theorem Block.reset_unseen : Block.reset.unseen = [] := rfl
@[simp] theorem Block.reset_held : Block.reset.held = [] := rfl
@[simp] theorem Block.reset_phase : Block.reset.phase = .idle := rfl
@[simp] theorem Block.reset_src : Block.reset.src = .unwritten := rfl
@[simp] theorem Block.reset_dst : Block.reset.dst = .unwritten := rfl
@[simp] theorem Block.reset_len : Block.reset.len = .unwritten := rfl

/-! ### The working registers as START clears them -/

@[simp] theorem Work.clear_acc : Work.clear.acc = 0 := rfl
@[simp] theorem Work.clear_ipos : Work.clear.ipos = 0 := rfl
@[simp] theorem Work.clear_opos : Work.clear.opos = 0 := rfl
@[simp] theorem Work.clear_pcnt : Work.clear.pcnt = 0 := rfl
@[simp] theorem Work.clear_slen : Work.clear.slen = 0 := rfl

end Sys2Proof.Machine
end

