-- ==== Sys2Proof/Laws/Operations.lean ====
section
/-! SUPPORT. What each shared operation can do, said once: START, FINISH, the three operations through one equation,
the outcome of an operation, and the operation named by S_OP. -/

namespace Sys2Proof.Machine

/-! ### START and FINISH -/

/-- A START that goes on: the operands were written, no BUSY block interferes, and the outcome is complete or stuck
(R31, R11). -/
theorem startOperation_next {i : Instr} {x : Sets} {v : Verdict} {b : Block} {s t : State}
    (h : startOperation i x v b s = .next t) :
    b.OperandsWritten i ∧ s.ClearOf x ∧
      ((v = .complete ∧ t = s.putBlock s.sel (b.started i ⟨x, false⟩)) ∨
       (v = .stuck ∧ t = s.putBlock s.sel (b.started i ⟨x, true⟩))) := by
  unfold startOperation at h
  split at h
  · cases h
  · rename_i hw
    have hw' : b.OperandsWritten i := Decidable.not_not.mp hw
    cases v with
    | refuse r => cases h
    | complete =>
      simp only at h
      split at h
      · rename_i hc
        cases h
        exact ⟨hw', hc, .inl ⟨rfl, rfl⟩⟩
      · cases h
    | stuck =>
      simp only at h
      split at h
      · rename_i hc
        cases h
        exact ⟨hw', hc, .inr ⟨rfl, rfl⟩⟩
      · cases h

/-- A START of a complete or stuck operation whose operands are written and that interferes with no BUSY block goes
on (R31). -/
theorem startOperation_eq {i : Instr} {x : Sets} {v : Verdict} {b : Block} {s : State} (hw : b.OperandsWritten i)
    (hc : s.ClearOf x) (stuck : Bool) (hv : v = if stuck then .stuck else .complete) :
    startOperation i x v b s = .next (s.putBlock s.sel (b.started i ⟨x, stuck⟩)) := by
  unfold startOperation
  rw [if_neg (not_not.mpr hw)]
  subst hv
  cases stuck
  · exact if_pos hc
  · exact if_pos hc

/-- A FINISH that goes on: nothing happens where the operation is stuck, otherwise its rule's writes and result
(R33). -/
theorem finishOperation_next {v : Verdict} {r : Result} {b : Block} {s t : State}
    (h : finishOperation v r b s = .next t) :
    (t = s ∧ (b.job.stuck = true ∨ v = .stuck)) ∨
    (b.job.stuck = false ∧ v = .complete ∧ t = (s.setMem r.mem).putBlock s.sel (b.finished r)) := by
  unfold finishOperation at h
  split at h
  · rename_i hs
    cases h
    exact .inl ⟨rfl, .inl hs⟩
  · rename_i hs
    cases v with
    | refuse r => cases h
    | stuck =>
      cases h
      exact .inl ⟨rfl, .inr rfl⟩
    | complete =>
      cases h
      exact .inr ⟨by simpa using hs, rfl, rfl⟩

/-- FINISH of a complete operation (R33). -/
theorem finishOperation_complete {r : Result} {b : Block} {s : State} (h : b.job.stuck = false) :
    finishOperation .complete r b s = .next ((s.setMem r.mem).putBlock s.sel (b.finished r)) := by
  simp [finishOperation, h]

/-- The three operations through one equation: on a block that is not BUSY the START of the operation, on a BUSY
block its FINISH. -/
theorem exec_eq (i : Instr) (s : State) : exec i s =
    match s.block? s.sel with
    | none => .refused .noSuchBlock
    | some b =>
      if b.phase = .busy then
        finishOperation (opVerdict i s.params s.mem b.sSrc b.sDst b.sLen)
          (opResult i s.params s.mem b.sSrc b.sDst b.sLen) b s
      else
        startOperation i (opSets i s.params s.mem b.src.value b.dst.value b.len.value)
          (opVerdict i s.params s.mem b.src.value b.dst.value b.len.value) b s := by
  cases i <;> rfl

/-- The operation on a block that is not BUSY is its START. -/
theorem exec_start {i : Instr} {s : State} {b : Block} (hb : s.block? s.sel = some b) (hp : b.phase ≠ .busy) :
    exec i s = startOperation i (opSets i s.params s.mem b.src.value b.dst.value b.len.value)
      (opVerdict i s.params s.mem b.src.value b.dst.value b.len.value) b s := by
  rw [exec_eq, hb]
  exact if_neg hp

/-- The operation on a BUSY block is its FINISH. -/
theorem exec_finish {i : Instr} {s : State} {b : Block} (hb : s.block? s.sel = some b) (hp : b.phase = .busy) :
    exec i s = finishOperation (opVerdict i s.params s.mem b.sSrc b.sDst b.sLen)
      (opResult i s.params s.mem b.sSrc b.sDst b.sLen) b s := by
  rw [exec_eq, hb]
  exact if_pos hp

/-! ### The outcome of an operation -/

/-- The sets of a complete operation: plain, disjoint and admitted (R59, R62, R63). -/
theorem judgeSets_complete {p : Params} {x : Sets} (h : judgeSets p x = .complete) :
    p.PlainAll x.reads ∧ p.PlainAll x.writes ∧ x.reads.Disjoint x.writes ∧ p.AdmitsAll .read x.reads ∧
      p.AdmitsAll .write x.writes := by
  unfold judgeSets at h
  split at h
  · cases h
  · rename_i h1
    split at h
    · cases h
    · rename_i h2
      split at h
      · rename_i h3
        exact ⟨(not_not.mp h1).1, (not_not.mp h1).2, not_not.mp h2, h3.1, h3.2⟩
      · cases h

/-- The sets of an operation that is not refused: plain and disjoint (R59, R62). -/
theorem judgeSets_accepted {p : Params} {x : Sets} (h : ∀ r, judgeSets p x ≠ .refuse r) :
    p.PlainAll x.reads ∧ p.PlainAll x.writes ∧ x.reads.Disjoint x.writes := by
  unfold judgeSets at h
  split at h
  · exact absurd rfl (h _)
  · rename_i h1
    split at h
    · exact absurd rfl (h _)
    · rename_i h2
      exact ⟨(not_not.mp h1).1, (not_not.mp h1).2, not_not.mp h2⟩

/-- Sets that are plain, disjoint and admitted are complete. -/
theorem judgeSets_of {p : Params} {x : Sets} (h1 : p.PlainAll x.reads) (h2 : p.PlainAll x.writes)
    (h3 : x.reads.Disjoint x.writes) (h4 : p.AdmitsAll .read x.reads) (h5 : p.AdmitsAll .write x.writes) :
    judgeSets p x = .complete := by
  unfold judgeSets
  rw [if_neg (not_not.mpr ⟨h1, h2⟩), if_neg (not_not.mpr h3), if_pos ⟨h4, h5⟩]

/-- VALID is complete exactly where the text is terminated and its sets are (R113). -/
theorem validVerdict_complete {p : Params} {m : Memory} {src : Nat} (h : validVerdict p m src = .complete) :
    ∃ n, textLen p m src = some n ∧ judgeSets p (validSets p m src) = .complete := by
  unfold validVerdict at h
  split at h
  · split at h <;> cases h
  · rename_i n hn
    exact ⟨n, hn, h⟩

/-- ENC is complete only where it fits and its sets are (R133). -/
theorem encVerdict_complete {p : Params} {src dst n : Nat} (h : encVerdict p src dst n = .complete) :
    EncFits p src dst n ∧ judgeSets p (encSets src dst n) = .complete := by
  unfold encVerdict at h
  split at h
  · rename_i hf
    exact ⟨hf, h⟩
  · cases h

/-- DEC is complete only where the text is terminated, well-formed and fits, and its sets are complete (R153). -/
theorem decVerdict_complete {p : Params} {m : Memory} {src dst : Nat} (h : decVerdict p m src dst = .complete) :
    ∃ n, textLen p m src = some n ∧ WF (m.bytes src n) ∧ DecFits p dst (decodedLen (m.bytes src n)) ∧
      judgeSets p (decSets p m src dst) = .complete := by
  unfold decVerdict at h
  split at h
  · cases h
  · rename_i n hn
    split at h
    · cases h
    · rename_i hw
      split at h
      · cases h
      · rename_i hf
        exact ⟨n, hn, not_not.mp hw, not_not.mp hf, h⟩

/-- Where an operation is not refused, its write set lies in the address space (R56). -/
theorem opSets_writes_fit {i : Instr} {p : Params} {m : Memory} {src dst len : Nat}
    (h : ∀ r, opVerdict i p m src dst len ≠ .refuse r) :
    (opSets i p m src dst len).writes.len = 0 ∨
      (opSets i p m src dst len).writes.lo + (opSets i p m src dst len).writes.len ≤ 2 ^ p.aw := by
  cases i with
  | valid => exact .inl rfl
  | enc =>
    simp only [opVerdict, encVerdict] at h
    split at h
    · rename_i hf
      have h1 := hf.2
      have h2 : 0 < 2 ^ p.aw := Nat.two_pow_pos _
      simp only [opSets, encSets]
      omega
    · exact absurd rfl (h _)
  | dec =>
    simp only [opVerdict, decVerdict] at h
    split at h
    · exact absurd rfl (h _)
    · rename_i n hn
      split at h
      · exact absurd rfl (h _)
      · split at h
        · exact absurd rfl (h _)
        · rename_i hf
          have hf' := not_not.mp hf
          simp only [opSets, decSets, hn]
          by_cases h0 : 0 < decodedLen (m.bytes src n)
          · exact .inr (hf' h0)
          · exact .inl (by omega)

/-! ### The operation named by S_OP -/

/-- The decoder reads from S_OP the operation whose OP it is, and rejects S_OP = 0 only (R81, R84). -/
theorem decodeByte_op (op : BitVec 2) (i : Instr) : decodeByte (op.setWidth 8) = .ok i ↔ op = i.op := by
  revert op
  cases i <;> decide

theorem decodeByte_op_self (i : Instr) : decodeByte (i.op.setWidth 8) = .ok i := (decodeByte_op _ i).mpr rfl

theorem Instr.op_ne_zero (i : Instr) : i.op ≠ 0 := by cases i <;> decide

/-- An S_OP that is not zero names an operation. -/
theorem exists_op {op : BitVec 2} (h : op ≠ 0) : ∃ i : Instr, op = i.op := by
  have key : ∀ op : BitVec 2, op ≠ 0 → op = Instr.valid.op ∨ op = Instr.enc.op ∨ op = Instr.dec.op := by decide
  rcases key op h with h | h | h
  · exact ⟨_, h⟩
  · exact ⟨_, h⟩
  · exact ⟨_, h⟩

end Sys2Proof.Machine
end

