-- ==== Sys2Proof/Laws/Texts.lean ====
section
/-! SUPPORT. The laws of texts: where a text ends (R52), what its padding and its characters are (R111), and that two
memories which agree on a text have the same text. -/

namespace Sys2Proof.Machine

/-! ### The end of a text -/

theorem scanText_some {m : Memory} {f a n : Nat} (h : scanText m f a = some n) :
    n < f ∧ m.read (a + n) = NUL ∧ ∀ k < n, m.read (a + k) ≠ NUL := by
  induction f generalizing a n with
  | zero => cases h
  | succ f ih =>
    rw [scanText] at h
    split at h
    · rename_i h0
      cases h
      exact ⟨by omega, h0, fun k hk => absurd hk (Nat.not_lt_zero k)⟩
    · rename_i h0
      obtain ⟨n', hn', rfl⟩ := Option.map_eq_some_iff.mp h
      obtain ⟨h1, h2, h3⟩ := ih hn'
      refine ⟨by omega, by rw [← h2]; congr 1; omega, fun k hk => ?_⟩
      cases k with
      | zero => exact h0
      | succ k =>
        have := h3 k (by omega)
        rwa [show a + 1 + k = a + (k + 1) by omega] at this

theorem scanText_of {m : Memory} {f a n : Nat} (hf : n < f) (h0 : m.read (a + n) = NUL)
    (h : ∀ k < n, m.read (a + k) ≠ NUL) : scanText m f a = some n := by
  induction f generalizing a n with
  | zero => omega
  | succ f ih =>
    rw [scanText]
    cases n with
    | zero => exact if_pos h0
    | succ n =>
      rw [if_neg (by simpa using h 0 (by omega)), ih (n := n) (by omega) (by rw [← h0]; congr 1; omega)]
      · rfl
      · intro k hk
        have := h (k + 1) (by omega)
        rwa [show a + (k + 1) = a + 1 + k by omega] at this

/-- A memory that agrees with another on a text and its terminator has the same text there. -/
theorem textLen_congr {p : Params} {m m' : Memory} {a n : Nat} (h : textLen p m a = some n)
    (hm : ∀ x, (⟨a, n + 1⟩ : Range).Has x → m'.read x = m.read x) : textLen p m' a = some n := by
  obtain ⟨h1, h2, h3⟩ := scanText_some h
  refine scanText_of h1 ?_ fun k hk => ?_
  · rw [hm _ (by simp only [Range.Has]; omega)]
    exact h2
  · rw [hm _ (by simp only [Range.Has]; omega)]
    exact h3 k hk

theorem textLen_lt {p : Params} {m : Memory} {a n : Nat} (h : textLen p m a = some n) : a + n < 2 ^ p.aw := by
  have := (scanText_some h).1
  omega

/-! ### Padding and characters -/

theorem padCount_le (t : List Byte) : padCount t ≤ t.length := by
  have := List.takeWhile_prefix (p := fun c : Byte => decide (c = PAD)) (l := t.reverse)
  simpa [padCount] using this.length_le

/-- The last `padCount t` characters of a text are `=`. -/
theorem getElem_pad {t : List Byte} {q : Nat} (hq : q < t.length) (h : t.length - padCount t ≤ q) : t[q] = PAD := by
  have hp := List.takeWhile_prefix (p := fun c : Byte => decide (c = PAD)) (l := t.reverse)
  have hlt : t.length - 1 - q < (t.reverse.takeWhile fun c => decide (c = PAD)).length := by
    have : padCount t = (t.reverse.takeWhile fun c => decide (c = PAD)).length := rfl
    omega
  have hmem := List.mem_takeWhile_imp (List.getElem_mem hlt)
  have heq := hp.getElem hlt
  rw [List.getElem_reverse] at heq
  have hidx : t.length - 1 - (t.length - 1 - q) = q := by omega
  rw [heq] at hmem
  simpa [hidx] using hmem

/-- Every other character of a well-formed text is an alphabet character. -/
theorem WF.classOf_eq {t : List Byte} (h : WF t) {q : Nat} (hq : q < t.length - padCount t) :
    classOf (t[q]'(by omega)) = .alphaCh := by
  refine h.2.2 _ ?_
  rw [List.mem_take_iff_getElem]
  exact ⟨q, by omega, rfl⟩

theorem ne_pad_of_class {c : Byte} (h : classOf c = .alphaCh) : c ≠ PAD := by
  rintro rfl
  exact absurd h (by decide)

theorem ne_nul_of_class {c : Byte} (h : classOf c = .alphaCh) : c ≠ NUL := by
  rintro rfl
  exact absurd h (by decide)

/-- A character of a well-formed text is `=` exactly at the last `padCount t` positions. -/
theorem WF.eq_pad_iff {t : List Byte} (h : WF t) {q : Nat} (hq : q < t.length) :
    t[q] = PAD ↔ t.length - padCount t ≤ q := by
  constructor
  · intro hp
    by_contra hc
    exact ne_pad_of_class (h.classOf_eq (by omega)) hp
  · exact getElem_pad hq

/-- The byte of memory that is a character of the text there. -/
theorem read_text {m : Memory} {a n q : Nat} (hq : q < n) :
    (m.bytes a n)[q]'(by simpa using hq) = m.read (a + q) := by
  have h := Memory.getElem?_bytes m a n q
  rw [if_pos hq] at h
  exact (List.getElem?_eq_some_iff.mp h).2

end Sys2Proof.Machine
end

