-- ==== Sys2Proof/Laws/Decoder.lean ====
section
/-! SUPPORT. What one group, the loop and the whole of DEC leave: the working registers, the canonical form, the
addresses written and the bytes there (R153). -/

namespace Sys2Proof.Machine

/-! ### One group -/

theorem decGroup_ipos (src dst : Nat) (m : Memory) (w : Work) : (decGroup src dst m w).2.ipos = w.ipos + 4 := by
  simp only [decGroup]
  split
  · rfl
  · split <;> rfl

theorem decGroup_slen (src dst : Nat) (m : Memory) (w : Work) : (decGroup src dst m w).2.slen = w.slen := by
  simp only [decGroup]
  split
  · rfl
  · split <;> rfl

/-- How many bytes the padding parser has a group yield (R152). -/
def groupYield (m : Memory) (a : Nat) : Nat := if m.read (a + 2) = PAD then 1 else if m.read (a + 3) = PAD then 2 else 3

theorem decGroup_opos (src dst : Nat) (m : Memory) (w : Work) :
    (decGroup src dst m w).2.opos = w.opos + groupYield m (src + w.ipos) := by
  simp only [decGroup, groupYield]
  split
  · rfl
  · split <;> rfl

theorem decGroup_wf (src dst : Nat) {m : Memory} (h : m.wf = true) (w : Work) :
    (decGroup src dst m w).1.wf = true := by
  simp only [decGroup]
  split
  · exact Memory.wf_write h _ _
  · split
    · exact Memory.wf_write (Memory.wf_write h _ _) _ _
    · exact Memory.wf_write (Memory.wf_write (Memory.wf_write h _ _) _ _) _ _

/-- A group writes the bytes it yields from `dst + j` up and nothing else. -/
theorem decGroup_read (src dst : Nat) {m : Memory} (h : m.wf = true) (w : Work) (x : Nat) :
    (decGroup src dst m w).1.read x =
      if dst + w.opos ≤ x ∧ x < dst + w.opos + groupYield m (src + w.ipos) then
        byteOf (sextetsAt m (src + w.ipos)) (x - (dst + w.opos))
      else m.read x := by
  have h1 := Memory.wf_write h (dst + w.opos) (byteOf (sextetsAt m (src + w.ipos)) 0)
  have h2 := Memory.wf_write h1 (dst + w.opos + 1) (byteOf (sextetsAt m (src + w.ipos)) 1)
  simp only [decGroup, groupYield]
  split
  · rw [Memory.read_write h]
    by_cases hx : x = dst + w.opos
    · subst hx
      simp
    · rw [if_neg hx, if_neg (by omega)]
  · split
    · rw [Memory.read_write h1, Memory.read_write h]
      by_cases hx : dst + w.opos ≤ x ∧ x < dst + w.opos + 2
      · obtain ⟨e, rfl⟩ := Nat.exists_eq_add_of_le hx.1
        have he : e < 2 := by omega
        rw [if_pos hx, Nat.add_sub_cancel_left]
        interval_cases e <;> simp
      · rw [if_neg hx, if_neg (by omega), if_neg (by omega)]
    · rw [Memory.read_write h2, Memory.read_write h1, Memory.read_write h]
      by_cases hx : dst + w.opos ≤ x ∧ x < dst + w.opos + 3
      · obtain ⟨e, rfl⟩ := Nat.exists_eq_add_of_le hx.1
        have he : e < 3 := by omega
        rw [if_pos hx, Nat.add_sub_cancel_left]
        interval_cases e <;> simp
      · rw [if_neg hx, if_neg (by omega), if_neg (by omega), if_neg (by omega)]

theorem decGroup_below (src dst : Nat) {m : Memory} {top : Nat} (h : m.Below top) (w : Work)
    (hk : dst + w.opos + groupYield m (src + w.ipos) ≤ top) : (decGroup src dst m w).1.Below top := by
  simp only [decGroup, groupYield] at *
  split
  · rename_i h0
    rw [if_pos h0] at hk
    exact Memory.below_write h (by omega) _
  · rename_i h0
    rw [if_neg h0] at hk
    split
    · rename_i h1
      rw [if_pos h1] at hk
      exact Memory.below_write (Memory.below_write h (by omega) _) (by omega) _
    · rename_i h1
      rw [if_neg h1] at hk
      exact Memory.below_write (Memory.below_write (Memory.below_write h (by omega) _) (by omega) _) (by omega) _

/-! ### The loop -/

/-- The loop over `j + r` groups is the loop over `j`, then over `r`: a terminator that ends the first ends the
second. -/
theorem decLoop_add (src dst j r : Nat) (m : Memory) (w : Work) :
    decLoop src dst (j + r) m w = decLoop src dst r (decLoop src dst j m w).1 (decLoop src dst j m w).2 := by
  induction j generalizing m w with
  | zero => simp [decLoop]
  | succ j ih =>
    rw [show j + 1 + r = (j + r) + 1 by omega, decLoop, decLoop]
    split
    · rename_i h0
      cases r with
      | zero => rfl
      | succ r => simp [decLoop, h0]
    · exact ih _ _

/-- The full groups: no terminator and no `=` in any of the `k` groups from `src + i` up. -/
def FullGroups (m : Memory) (a k : Nat) : Prop :=
  ∀ g < k, m.read (a + 4 * g) ≠ NUL ∧ m.read (a + 4 * g + 2) ≠ PAD ∧ m.read (a + 4 * g + 3) ≠ PAD

/-- The bytes read and the bytes written by `k` full groups are apart. -/
def GroupsApart (a b k : Nat) : Prop := ∀ x, a ≤ x → x < a + 4 * k → ¬ (b ≤ x ∧ x < b + 3 * k)

/-- What the loop leaves after `k` full groups that are apart from what they write (R153). -/
theorem decLoop_full (src dst k : Nat) {m : Memory} (h : m.wf = true) (w : Work)
    (hf : FullGroups m (src + w.ipos) k) (hd : GroupsApart (src + w.ipos) (dst + w.opos) k) :
    (decLoop src dst k m w).2.ipos = w.ipos + 4 * k ∧ (decLoop src dst k m w).2.opos = w.opos + 3 * k ∧
      (decLoop src dst k m w).2.slen = w.slen ∧ (decLoop src dst k m w).1.wf = true ∧
      (∀ x, ¬ (dst + w.opos ≤ x ∧ x < dst + w.opos + 3 * k) → (decLoop src dst k m w).1.read x = m.read x) ∧
      (∀ g < k, ∀ e < 3, (decLoop src dst k m w).1.read (dst + w.opos + 3 * g + e) =
        byteOf (sextetsAt m (src + w.ipos + 4 * g)) e) := by
  induction k generalizing m w with
  | zero =>
    refine ⟨rfl, rfl, rfl, h, fun _ _ => rfl, fun g hg => absurd hg (Nat.not_lt_zero g)⟩
  | succ k ih =>
    obtain ⟨h0, h2, h3⟩ := hf 0 (by omega)
    simp only [Nat.mul_zero, Nat.add_zero] at h0 h2 h3
    have hy : groupYield m (src + w.ipos) = 3 := by simp [groupYield, h2, h3]
    have hi := decGroup_ipos src dst m w
    have ho := decGroup_opos src dst m w
    have hr := decGroup_read src dst h w
    rw [hy] at ho
    rw [hy] at hr
    have keep : ∀ x, src + w.ipos ≤ x → x < src + w.ipos + 4 * (k + 1) →
        (decGroup src dst m w).1.read x = m.read x := by
      intro x h1 h2
      rw [hr, if_neg]
      have := hd x h1 h2
      omega
    have hf' : FullGroups (decGroup src dst m w).1 (src + (decGroup src dst m w).2.ipos) k := by
      intro g hg
      have := hf (g + 1) (by omega)
      rw [hi, show src + (w.ipos + 4) + 4 * g = src + w.ipos + 4 * (g + 1) by omega,
        keep _ (by omega) (by omega), keep _ (by omega) (by omega), keep _ (by omega) (by omega)]
      exact this
    have hd' : GroupsApart (src + (decGroup src dst m w).2.ipos) (dst + (decGroup src dst m w).2.opos) k := by
      intro x h1 h2
      rw [hi] at h1 h2
      rw [ho]
      have := hd x (by omega) (by omega)
      omega
    obtain ⟨e1, e2, e3, e4, e5, e6⟩ := ih (decGroup_wf src dst h w) (decGroup src dst m w).2 hf' hd'
    rw [decLoop, if_neg h0]
    refine ⟨by rw [e1, hi]; omega, by rw [e2, ho]; omega, by rw [e3, decGroup_slen], e4, ?_, ?_⟩
    · intro x hx
      rw [e5 x (by rw [ho]; omega), hr, if_neg (by omega)]
    · intro g hg e he
      cases g with
      | zero =>
        rw [e5 _ (by rw [ho]; omega), hr, if_pos (by omega),
          show dst + w.opos + 3 * 0 + e - (dst + w.opos) = e by omega]
        rfl
      | succ g =>
        have := e6 g (by omega) e he
        rw [ho, hi, show dst + (w.opos + 3) + 3 * g + e = dst + w.opos + 3 * (g + 1) + e by omega,
          show src + (w.ipos + 4) + 4 * g = src + w.ipos + 4 * (g + 1) by omega] at this
        rw [this]
        simp only [sextetsAt]
        rw [keep _ (by omega) (by omega), keep _ (by omega) (by omega), keep _ (by omega) (by omega),
          keep _ (by omega) (by omega)]

theorem decLoop_below (src dst k : Nat) {m : Memory} {top : Nat} (h : m.Below top) (w : Work)
    (hk : dst + (decLoop src dst k m w).2.opos ≤ top) : (decLoop src dst k m w).1.Below top := by
  have mono : ∀ k (m : Memory) (w : Work), w.opos ≤ (decLoop src dst k m w).2.opos := by
    intro k
    induction k with
    | zero => intro m w; exact Nat.le_refl _
    | succ k ih =>
      intro m w
      rw [decLoop]
      split
      · exact Nat.le_refl _
      · refine Nat.le_trans ?_ (ih _ _)
        rw [decGroup_opos]
        omega
  induction k generalizing m w with
  | zero => exact h
  | succ k ih =>
    rw [decLoop] at hk ⊢
    split
    · exact h
    · rename_i h0
      rw [if_neg h0] at hk
      refine ih (decGroup_below src dst h w ?_) _ hk
      simp only at hk
      have := mono k (decGroup src dst m w).1 (decGroup src dst m w).2
      rw [decGroup_opos] at this
      omega

/-! ### The whole operation -/

/-- The loop of DEC over a well-formed text that its write set does not meet, from cleared indices: IPOS has counted
the characters, OPOS the bytes (R155); memory keeps its canonical form and changes only in the write set (R55). -/
theorem decLoop_text {m : Memory} (h : m.wf = true) (src dst n : Nat) (w : Work) (wi : w.ipos = 0) (wo : w.opos = 0)
    (hw : WF (m.bytes src n))
    (hd : ∀ x, (⟨src, n + 1⟩ : Range).Has x → ¬ (⟨dst, decodedLen (m.bytes src n)⟩ : Range).Has x) :
    (decLoop src dst (n / 4) m w).2.ipos = n ∧
      (decLoop src dst (n / 4) m w).2.opos = decodedLen (m.bytes src n) ∧
      (decLoop src dst (n / 4) m w).2.slen = w.slen ∧ (decLoop src dst (n / 4) m w).1.wf = true ∧
      ∀ x, ¬ (⟨dst, decodedLen (m.bytes src n)⟩ : Range).Has x →
        (decLoop src dst (n / 4) m w).1.read x = m.read x := by
  have hlen : (m.bytes src n).length = n := Memory.length_bytes m src n
  have h4 : n % 4 = 0 := by simpa [hlen] using hw.1
  have hp2 : padCount (m.bytes src n) ≤ 2 := hw.2.1
  have hchar : ∀ q, q < n - padCount (m.bytes src n) → classOf (m.read (src + q)) = .alphaCh := by
    intro q hq
    have := hw.classOf_eq (q := q) (by rw [hlen]; exact hq)
    rwa [read_text (by omega)] at this
  have hpad : ∀ q, q < n → n - padCount (m.bytes src n) ≤ q → m.read (src + q) = PAD := by
    intro q hq hq'
    have := getElem_pad (t := m.bytes src n) (q := q) (by rw [hlen]; exact hq) (by rw [hlen]; exact hq')
    rwa [read_text hq] at this
  have hdl : decodedLen (m.bytes src n) = 3 * (n / 4) - padCount (m.bytes src n) := by rw [decodedLen, hlen]
  have hpn := padCount_le (m.bytes src n)
  rw [hlen] at hpn
  simp only [Range.Has, hdl] at hd ⊢
  generalize padCount (m.bytes src n) = p at *
  have full : ∀ k, 4 * k ≤ n - p → FullGroups m (src + w.ipos) k := by
    intro k hk g hg
    rw [wi, Nat.add_zero]
    refine ⟨ne_nul_of_class (hchar (4 * g) (by omega)), ?_, ?_⟩
    · exact ne_pad_of_class (by simpa [Nat.add_assoc] using hchar (4 * g + 2) (by omega))
    · exact ne_pad_of_class (by simpa [Nat.add_assoc] using hchar (4 * g + 3) (by omega))
  have apart : ∀ k, 4 * k ≤ n - p → GroupsApart (src + w.ipos) (dst + w.opos) k := by
    intro k hk x h1 h2
    rw [wi] at h1 h2
    rw [wo]
    have := hd x (by omega)
    omega
  by_cases hp : p = 0
  · subst hp
    obtain ⟨e1, e2, e3, e4, e5, -⟩ := decLoop_full src dst (n / 4) h w (full _ (by omega)) (apart _ (by omega))
    rw [wo] at e5
    exact ⟨by rw [e1, wi]; omega, by rw [e2, wo]; omega, e3, e4, fun x hx => e5 x (by omega)⟩
  · obtain ⟨j, hj⟩ : ∃ j, n / 4 = j + 1 := ⟨n / 4 - 1, by omega⟩
    obtain ⟨e1, e2, e3, e4, e5, -⟩ := decLoop_full src dst j h w (full _ (by omega)) (apart _ (by omega))
    rw [hj, decLoop_add]
    rw [wi, Nat.zero_add] at e1
    rw [wo, Nat.zero_add] at e2
    rw [wo] at e5
    generalize decLoop src dst j m w = r at *
    have keep : ∀ q, q ≤ n → r.1.read (src + q) = m.read (src + q) := by
      intro q hq
      refine e5 _ ?_
      have := hd (src + q) (by omega)
      omega
    have hy : groupYield r.1 (src + r.2.ipos) = 3 - p := by
      have k2 : r.1.read (src + r.2.ipos + 2) = m.read (src + (4 * j + 2)) := by
        rw [e1, Nat.add_assoc]
        exact keep _ (by omega)
      have k3 : r.1.read (src + r.2.ipos + 3) = m.read (src + (4 * j + 3)) := by
        rw [e1, Nat.add_assoc]
        exact keep _ (by omega)
      have p3 : m.read (src + (4 * j + 3)) = PAD := hpad _ (by omega) (by omega)
      rw [groupYield, k2, k3, p3]
      by_cases hp1 : p = 1
      · have : m.read (src + (4 * j + 2)) ≠ PAD := ne_pad_of_class (hchar _ (by omega))
        rw [if_neg this, if_pos rfl]
        omega
      · have : m.read (src + (4 * j + 2)) = PAD := hpad _ (by omega) (by omega)
        rw [if_pos this]
        omega
    have h0 : r.1.read (src + r.2.ipos) ≠ NUL := by
      rw [e1, keep _ (by omega)]
      exact ne_nul_of_class (hchar _ (by omega))
    simp only [decLoop, if_neg h0]
    refine ⟨?_, ?_, ?_, decGroup_wf _ _ e4 _, ?_⟩
    · rw [decGroup_ipos, e1]
      omega
    · rw [decGroup_opos, hy, e2]
      omega
    · rw [decGroup_slen, e3]
    · intro x hx
      rw [decGroup_read _ _ e4, hy, if_neg (by omega)]
      exact e5 x (by omega)

/-- DEC of a well-formed text that its write set does not meet (R153, R155, R55). -/
theorem decRun_frame {m : Memory} (h : m.wf = true) (src dst n : Nat) (hw : WF (m.bytes src n))
    (hd : ∀ x, (⟨src, n + 1⟩ : Range).Has x → ¬ (⟨dst, decodedLen (m.bytes src n)⟩ : Range).Has x) :
    (decRun m src dst n).work.ipos = n ∧ (decRun m src dst n).work.opos = decodedLen (m.bytes src n) ∧
      (decRun m src dst n).work.slen = n ∧ (decRun m src dst n).ret = decodedLen (m.bytes src n) ∧
      (decRun m src dst n).mem.wf = true ∧
      ∀ x, ¬ (⟨dst, decodedLen (m.bytes src n)⟩ : Range).Has x → (decRun m src dst n).mem.read x = m.read x := by
  obtain ⟨e1, e2, e3, e4, e5⟩ := decLoop_text h src dst n { Work.clear with slen := n } rfl rfl hw hd
  exact ⟨e1, e2, e3, e2, e4, e5⟩

theorem decRun_below {m : Memory} {top : Nat} (h : m.Below top) (src dst n : Nat)
    (hk : dst + (decRun m src dst n).ret ≤ top) : (decRun m src dst n).mem.Below top :=
  decLoop_below src dst (n / 4) h _ hk

end Sys2Proof.Machine
end

