-- ==== Sys2Proof/Laws/Encoder.lean ====
section
/-! SUPPORT. What the loop, the padding logic and the whole of ENC leave: the working registers, the canonical form,
the addresses written and the bytes there (R133). -/

namespace Sys2Proof.Machine

theorem encGroup_wf {m : Memory} (h : m.wf = true) (a : Nat) (g : Group) (chars : Nat) :
    (encGroup m a g chars).wf = true :=
  Memory.wf_write (Memory.wf_write (Memory.wf_write (Memory.wf_write h _ _) _ _) _ _) _ _

/-- A group is four characters at four addresses; every other address reads as before. -/
theorem encGroup_read {m : Memory} (h : m.wf = true) (a : Nat) (g : Group) (chars x : Nat) :
    (encGroup m a g chars).read x =
      if a ≤ x ∧ x < a + 4 then groupChar g chars (x - a) else m.read x := by
  have h1 := Memory.wf_write h a (groupChar g chars 0)
  have h2 := Memory.wf_write h1 (a + 1) (groupChar g chars 1)
  have h3 := Memory.wf_write h2 (a + 2) (groupChar g chars 2)
  rw [encGroup, Memory.read_write h3, Memory.read_write h2, Memory.read_write h1, Memory.read_write h]
  by_cases hx : a ≤ x ∧ x < a + 4
  · obtain ⟨e, rfl⟩ := Nat.exists_eq_add_of_le hx.1
    have he : e < 4 := by omega
    rw [if_pos hx, Nat.add_sub_cancel_left]
    interval_cases e <;> simp
  · rw [if_neg hx, if_neg (by omega), if_neg (by omega), if_neg (by omega), if_neg (by omega)]

theorem encGroup_below {m : Memory} {top a : Nat} (h : m.Below top) (ha : a + 4 ≤ top) (g : Group) (chars : Nat) :
    (encGroup m a g chars).Below top :=
  Memory.below_write (Memory.below_write (Memory.below_write (Memory.below_write h (by omega) _) (by omega) _)
    (by omega) _) (by omega) _

/-- The loop over the full groups advances IPOS by 3 and OPOS by 4 a group (R27). -/
theorem encLoop_work (src dst k : Nat) (m : Memory) (w : Work) :
    (encLoop src dst k m w).2.ipos = w.ipos + 3 * k ∧ (encLoop src dst k m w).2.opos = w.opos + 4 * k ∧
      (encLoop src dst k m w).2.pcnt = w.pcnt ∧ (encLoop src dst k m w).2.slen = w.slen := by
  induction k generalizing m w with
  | zero => simp [encLoop]
  | succ k ih =>
    rw [encLoop]
    obtain ⟨h1, h2, h3, h4⟩ := ih (encGroup m (dst + w.opos) (groupAt m (src + w.ipos)) 4)
      { w with acc := groupAt m (src + w.ipos), ipos := w.ipos + 3, opos := w.opos + 4 }
    refine ⟨?_, ?_, h3, h4⟩
    · refine h1.trans ?_
      simp only
      omega
    · refine h2.trans ?_
      simp only
      omega

theorem encLoop_wf (src dst k : Nat) {m : Memory} (h : m.wf = true) (w : Work) :
    (encLoop src dst k m w).1.wf = true := by
  induction k generalizing m w with
  | zero => exact h
  | succ k ih => exact ih (encGroup_wf h _ _ _) _

/-- The loop writes four bytes a group from `dst + j` up and nothing else. -/
theorem encLoop_outside (src dst k : Nat) {m : Memory} (h : m.wf = true) (w : Work) {x : Nat}
    (hx : ¬ (dst + w.opos ≤ x ∧ x < dst + w.opos + 4 * k)) : (encLoop src dst k m w).1.read x = m.read x := by
  induction k generalizing m w with
  | zero => rfl
  | succ k ih =>
    have hn := ih (encGroup_wf h (dst + w.opos) (groupAt m (src + w.ipos)) 4)
      { w with acc := groupAt m (src + w.ipos), ipos := w.ipos + 3, opos := w.opos + 4 }
      (by simp only; omega)
    refine hn.trans ?_
    rw [encGroup_read h, if_neg (by omega)]

/-- Where the bytes read and the bytes written are apart, the character `e` of group `g` is the alphabet's for the
sextet `e` of the three bytes of group `g` (R133). -/
theorem encLoop_inside (src dst k : Nat) {m : Memory} (h : m.wf = true) (w : Work)
    (hd : ∀ x, src + w.ipos ≤ x → x < src + w.ipos + 3 * k → ¬ (dst + w.opos ≤ x ∧ x < dst + w.opos + 4 * k))
    {g e : Nat} (hg : g < k) (he : e < 4) :
    (encLoop src dst k m w).1.read (dst + w.opos + 4 * g + e) =
      alpha (sextetOf (groupAt m (src + w.ipos + 3 * g)) e) := by
  induction k generalizing m w g with
  | zero => omega
  | succ k ih =>
    rw [encLoop]
    have hw := encGroup_wf h (dst + w.opos) (groupAt m (src + w.ipos)) 4
    cases g with
    | zero =>
      refine (encLoop_outside src dst k hw _ (by simp only; omega)).trans ?_
      rw [encGroup_read h, if_pos (by omega)]
      have h0 : dst + w.opos + 4 * 0 + e - (dst + w.opos) = e := by omega
      rw [h0, groupChar, if_pos he]
      rfl
    | succ g =>
      have hstep := ih hw { w with acc := groupAt m (src + w.ipos), ipos := w.ipos + 3, opos := w.opos + 4 }
        (by
          intro x h1 h2
          simp only at *
          have := hd x (by omega) (by omega)
          omega) (g := g) (by omega)
      simp only at hstep
      have e1 : dst + w.opos + 4 * (g + 1) + e = dst + (w.opos + 4) + 4 * g + e := by omega
      have e2 : src + w.ipos + 3 * (g + 1) = src + (w.ipos + 3) + 3 * g := by omega
      rw [e1, e2]
      refine hstep.trans ?_
      have keep : ∀ y, src + (w.ipos + 3) + 3 * g ≤ y → y < src + (w.ipos + 3) + 3 * g + 3 →
          (encGroup m (dst + w.opos) (groupAt m (src + w.ipos)) 4).read y = m.read y := by
        intro y h1 h2
        rw [encGroup_read h, if_neg]
        have := hd y (by omega) (by omega)
        omega
      simp only [groupAt] at keep ⊢
      rw [keep _ (by omega) (by omega), keep _ (by omega) (by omega), keep _ (by omega) (by omega)]

theorem encLoop_below (src dst k : Nat) {m : Memory} {top : Nat} (h : m.Below top) (w : Work)
    (hk : dst + w.opos + 4 * k ≤ top) : (encLoop src dst k m w).1.Below top := by
  induction k generalizing m w with
  | zero => exact h
  | succ k ih => exact ih (encGroup_below h (by omega) _ _) _ (by simp only; omega)

/-! ### The partial group and the whole operation -/

/-- The group the padding logic makes of the `r` bytes from `a` up, 1 or 2, "the missing bytes ... constant zero". -/
def tailGroup (m : Memory) (a r : Nat) : Group :=
  groupOfBytes (m.read a) (if r = 1 then 0 else m.read (a + 1)) 0

/-- The partial group: nothing where `r` is 0, otherwise one group with `r + 1` real characters (R132). -/
theorem encTail_eq (src dst r : Nat) (m : Memory) (w : Work) (hr : r < 3) :
    encTail src dst r m w =
      if r = 0 then (m, w)
      else (encGroup m (dst + w.opos) (tailGroup m (src + w.ipos) r) (r + 1),
        { w with acc := tailGroup m (src + w.ipos) r, ipos := w.ipos + r, opos := w.opos + 4 }) := by
  interval_cases r <;> rfl

theorem encodedLen_eq (n : Nat) : encodedLen n = 4 * (n / 3) + if n % 3 = 0 then 0 else 4 := by
  unfold encodedLen divUp
  split <;> omega

/-- What ENC leaves, but for the bytes written: IPOS has counted the input, OPOS the characters, RET the terminator
too (R27, R135); memory keeps its canonical form and changes only in the write set (R55). -/
theorem encResult_frame {m : Memory} (h : m.wf = true) (src dst n : Nat) :
    (encResult m src dst n).work.ipos = n ∧ (encResult m src dst n).work.opos = encodedLen n ∧
      (encResult m src dst n).work.slen = 0 ∧ (encResult m src dst n).ret = encodedLen n + 1 ∧
      (encResult m src dst n).mem.wf = true ∧
      (∀ x, ¬ (encSets src dst n).writes.Has x → (encResult m src dst n).mem.read x = m.read x) ∧
      (encResult m src dst n).mem.read (dst + encodedLen n) = NUL := by
  obtain ⟨h1, h2, -, h4⟩ := encLoop_work src dst (n / 3) m .clear
  have hw := encLoop_wf src dst (n / 3) h .clear
  have hr : n - (encLoop src dst (n / 3) m .clear).2.ipos = n % 3 := by
    rw [h1]
    simp only [Work.clear_ipos]
    omega
  have hout := fun x => encLoop_outside src dst (n / 3) h .clear (x := x)
  simp only [encResult, hr, encTail_eq _ _ _ _ _ (Nat.mod_lt n (by decide : 0 < 3)), encSets]
  simp only [Work.clear_ipos, Work.clear_opos, Work.clear_slen, Nat.zero_add, Nat.add_zero] at h1 h2 h4 hout
  rw [encodedLen_eq]
  by_cases h0 : n % 3 = 0
  · simp only [h0, if_true, h1, h2, h4]
    refine ⟨by omega, by omega, trivial, trivial, Memory.wf_write hw _ _, ?_, ?_⟩
    · intro x hx
      simp only [Range.Has] at hx
      rw [Memory.read_write hw, if_neg (by omega)]
      exact hout x (by omega)
    · rw [Memory.read_write hw, if_pos (by omega)]
  · simp only [h0, if_false, h1, h2, h4]
    have hg := encGroup_wf hw (dst + 4 * (n / 3))
      (tailGroup (encLoop src dst (n / 3) m .clear).1 (src + 3 * (n / 3)) (n % 3)) (n % 3 + 1)
    refine ⟨by omega, trivial, trivial, trivial, Memory.wf_write hg _ _, ?_, ?_⟩
    · intro x hx
      simp only [Range.Has] at hx
      rw [Memory.read_write hg, if_neg (by omega), encGroup_read hw, if_neg (by omega)]
      exact hout x (by omega)
    · rw [Memory.read_write hg, if_pos (by omega)]

theorem encResult_below {m : Memory} {top : Nat} (h : m.Below top) (src dst n : Nat)
    (hk : dst + encodedLen n < top) : (encResult m src dst n).mem.Below top := by
  obtain ⟨h1, h2, -, -⟩ := encLoop_work src dst (n / 3) m .clear
  have hr : n - (encLoop src dst (n / 3) m .clear).2.ipos = n % 3 := by
    rw [h1]
    simp only [Work.clear_ipos]
    omega
  rw [encodedLen_eq] at hk
  simp only [encResult, hr, encTail_eq _ _ _ _ _ (Nat.mod_lt n (by decide : 0 < 3))]
  simp only [Work.clear_opos, Nat.zero_add] at h2
  have hl := encLoop_below src dst (n / 3) h .clear
  simp only [Work.clear_opos, Nat.add_zero] at hl
  split <;> rename_i h0
  · rw [if_pos h0] at hk
    simp only [h2]
    exact Memory.below_write (hl (by omega)) (by omega) _
  · rw [if_neg h0] at hk
    simp only [h2]
    exact Memory.below_write (encGroup_below (hl (by omega)) (by omega) _ _) (by omega) _

end Sys2Proof.Machine
end

