-- ==== Sys2Proof/Laws/PerInstr.lean ====
section
/-! SUPPORT. The statement made of each operation as syntax: it is well-formed, and its command byte is legal, has its
reserved bits zero and decodes back to it. -/

namespace Sys2Proof.Laws.RoundTrip

/-- R80, R81: the operation is well-formed, and decoding what it encodes to gives it back with nothing left over;
R21: the reserved bits of its command byte are zero. -/
def Statement (i : Instr) : Prop :=
  i.wf = true ∧ decode (encode i) = .ok (i, []) ∧ commandReserved i.command = 0 ∧ commandOp i.command = i.op

theorem valid : Statement .valid := ⟨rfl, rfl, rfl, rfl⟩

theorem enc : Statement .enc := ⟨rfl, rfl, rfl, rfl⟩

theorem dec : Statement .dec := ⟨rfl, rfl, rfl, rfl⟩

end Sys2Proof.Laws.RoundTrip
end

