-- ==== Sys2Proof/Laws/Validator.lean ====
section
/-! SUPPORT. What the scan and the whole of VALID leave, but for the verdict on the text (R113). -/

namespace Sys2Proof.Machine

/-- The scan returns at most `3*(n/4)`, counts at most the characters it is given, and leaves OPOS and SLEN alone. -/
theorem validScan_bounds (m : Memory) (src n k : Nat) (w : Work) :
    (validScan m src n k w).1 ≤ 3 * (n / 4) ∧ (validScan m src n k w).2.ipos ≤ w.ipos + k ∧
      (validScan m src n k w).2.opos = w.opos ∧ (validScan m src n k w).2.slen = w.slen := by
  induction k generalizing w with
  | zero => exact ⟨Nat.sub_le _ _, Nat.le_refl _, rfl, rfl⟩
  | succ k ih =>
    have stop : 0 ≤ 3 * (n / 4) ∧ w.ipos ≤ w.ipos + (k + 1) ∧ w.opos = w.opos ∧ w.slen = w.slen :=
      ⟨Nat.zero_le _, Nat.le_add_right _ _, rfl, rfl⟩
    rw [validScan]
    split
    · exact stop
    · split
      · exact stop
      · obtain ⟨h1, h2, h3, h4⟩ := ih { w with pcnt := w.pcnt + 1, ipos := w.ipos + 1 }
        exact ⟨h1, by simp only at h2; omega, h3, h4⟩
    · split
      · exact stop
      · obtain ⟨h1, h2, h3, h4⟩ := ih { w with ipos := w.ipos + 1 }
        exact ⟨h1, by simp only at h2; omega, h3, h4⟩

/-- VALID writes no memory; RET is at most `3*(n/4)`, IPOS at most `n`, SLEN is the text's length (R110, R115). -/
theorem validRun_frame (m : Memory) (src n : Nat) :
    (validRun m src n).mem = m ∧ (validRun m src n).ret ≤ 3 * (n / 4) ∧ (validRun m src n).work.ipos ≤ n ∧
      (validRun m src n).work.opos = 0 ∧ (validRun m src n).work.slen = n := by
  have stop : m = m ∧ 0 ≤ 3 * (n / 4) ∧ 0 ≤ n ∧ (0 : Nat) = 0 ∧ n = n :=
    ⟨rfl, Nat.zero_le _, Nat.zero_le _, rfl, rfl⟩
  simp only [validRun]
  split
  · exact stop
  · split
    · exact stop
    · obtain ⟨h1, h2, h3, h4⟩ := validScan_bounds m src n n { Work.clear with slen := n }
      exact ⟨rfl, h1, by simpa using h2, h3, h4⟩

end Sys2Proof.Machine
end

