-- ==== Sys2Proof/Laws/Results.lean ====
section
/-! SUPPORT. What every complete operation leaves, for the three operations at once, and on what its outcome
depends. -/

namespace Sys2Proof.Machine

/-- What a complete operation leaves: memory in its canonical form and inside the address space, changed only in the
write set (R55); RET and the indices fit their registers (R56). -/
theorem opResult_frame {i : Instr} {p : Params} {m : Memory} {src dst len : Nat} (hp : 4 ≤ p.aw) (hm : m.wf = true)
    (hb : m.Below (2 ^ p.aw)) (hlen : len < 2 ^ p.aw)
    (hv : opVerdict i p m src dst len = .complete) :
    (opResult i p m src dst len).mem.wf = true ∧ (opResult i p m src dst len).mem.Below (2 ^ p.aw) ∧
    (opResult i p m src dst len).ret < 2 ^ p.aw ∧ (opResult i p m src dst len).work.Wf p ∧
    ∀ x, ¬ (opSets i p m src dst len).writes.Has x → (opResult i p m src dst len).mem.read x = m.read x := by
  have hpow : (2 : Nat) ^ 4 ≤ 2 ^ p.aw := Nat.pow_le_pow_right (by omega) hp
  cases i with
  | valid =>
    obtain ⟨n, hn, -⟩ := validVerdict_complete hv
    obtain ⟨h1, h2, h3, h4, h5⟩ := validRun_frame m src n
    have := textLen_lt hn
    simp only [opResult, validResult, hn, h1]
    exact ⟨hm, hb, by omega, ⟨by omega, by omega, by omega⟩, fun _ _ => trivial⟩
  | enc =>
    obtain ⟨hf, hj⟩ := encVerdict_complete hv
    obtain ⟨h1, h2, h3, h4, h5, h6, -⟩ := encResult_frame hm src dst len
    have hf2 := hf.2
    have : encodedLen len % 4 = 0 := by simp [encodedLen]
    have e4 : 2 ^ p.aw % 4 = 0 := by
      obtain ⟨k, hk⟩ := Nat.exists_eq_add_of_le hp
      rw [hk, Nat.pow_add]
      omega
    simp only [opResult, opSets]
    exact ⟨h5, encResult_below hb src dst len (by omega), by omega, ⟨by omega, by omega, by omega⟩, h6⟩
  | dec =>
    obtain ⟨n, hn, hw, hf, hj⟩ := decVerdict_complete hv
    obtain ⟨-, -, hd, -, -⟩ := judgeSets_complete hj
    have hd' := (Range.disjoint_iff _ _).mp hd
    simp only [decSets, textRange, hn] at hd'
    obtain ⟨h1, h2, h3, h4, h5, h6⟩ := decRun_frame hm src dst n hw hd'
    have := textLen_lt hn
    have hl : decodedLen (m.bytes src n) ≤ n := by
      simp only [decodedLen, Memory.length_bytes]
      omega
    simp only [opResult, decResult, hn, opSets, decSets]
    refine ⟨h5, ?_, by omega, ⟨by omega, by omega, by omega⟩, h6⟩
    by_cases h0 : 0 < decodedLen (m.bytes src n)
    · exact decRun_below hb src dst n (by rw [h4]; exact hf h0)
    · have : (decRun m src dst n).mem = m := Memory.ext h5 hm fun a => h6 a (by simp only [Range.Has]; omega)
      rw [this]
      exact hb

/-- A memory that agrees with another on the read set of a complete operation has the same outcome and the same access
sets (R35, R61). -/
theorem opVerdict_congr {i : Instr} {p : Params} {m m' : Memory} {src dst len : Nat}
    (hv : opVerdict i p m src dst len = .complete)
    (hm : ∀ x, (opSets i p m src dst len).reads.Has x → m'.read x = m.read x) :
    opVerdict i p m' src dst len = .complete ∧ opSets i p m' src dst len = opSets i p m src dst len := by
  cases i with
  | valid =>
    obtain ⟨n, hn, hj⟩ := validVerdict_complete hv
    simp only [opSets, validSets, textRange, hn] at hm
    have hn' := textLen_congr hn hm
    simp only [opVerdict, opSets, validVerdict, validSets, textRange, hn, hn'] at hj ⊢
    exact ⟨hj, trivial⟩
  | enc => exact ⟨hv, rfl⟩
  | dec =>
    obtain ⟨n, hn, hw, hf, hj⟩ := decVerdict_complete hv
    simp only [opSets, decSets, textRange, hn] at hm
    have hn' := textLen_congr hn hm
    have hb : m'.bytes src n = m.bytes src n := Memory.bytes_congr fun x hx =>
      hm x (by simp only [Range.Has] at *; omega)
    have : decSets p m' src dst = decSets p m src dst := by simp only [decSets, textRange, hn, hn', hb]
    simp only [opVerdict, opSets, decVerdict, hn', hb, this]
    rw [if_neg (not_not.mpr hw), if_neg (not_not.mpr hf)]
    exact ⟨hj, trivial⟩

/-- Not interfering is symmetric (R69). -/
theorem Sets.apart_symm {x y : Sets} (h : x.apart y = true) : y.apart x = true := by
  simp only [Sets.apart, Bool.and_eq_true, decide_eq_true_eq] at *
  exact ⟨⟨h.2, Range.disjoint_symm h.1.2⟩, h.1.1⟩

end Sys2Proof.Machine
end

