-- ==== Sys2Proof/Laws/Step.lean ====
section
/-! SUPPORT. What one step can do, said once: `Change`, one constructor for each kind of change to memory and blocks,
and `step_change`, that every step which goes on is one of them. -/

namespace Sys2Proof.Machine

/-- `b'` is `b` but for one operand register, which the host has written with an `AW`-bit value (R22 to R24). -/
inductive OperandWrite (p : Params) (b : Block) : Block → Prop where
  | src (v : Nat) (h : v < 2 ^ p.aw) : OperandWrite p b { b with src := ⟨v, true⟩ }
  | dst (v : Nat) (h : v < 2 ^ p.aw) : OperandWrite p b { b with dst := ⟨v, true⟩ }
  | len (v : Nat) (h : v < 2 ^ p.aw) : OperandWrite p b { b with len := ⟨v, true⟩ }

/-- The next event lets block `k` take its FINISH: there is none, it is the block's turn, or the host waits (R226). -/
def State.MayFinish (s : State) (k : Nat) : Prop :=
  s.script = [] ∨ s.script.head? = some (.turn k) ∨ ∃ j, s.script.head? = some (.wait j)

/-- The change a step makes to the parameters, memory and blocks: nothing; an operand register written; a START; a
FINISH; DONE read by the host; a byte written by another agent; a reset. -/
inductive Change (s t : State) : Prop where
  | nothing (hp : t.params = s.params) (hm : t.mem = s.mem) (hb : t.blocks = s.blocks)
  | operand (k : Nat) (b b' : Block) (hp : t.params = s.params) (hm : t.mem = s.mem)
      (hb : s.block? k = some b) (hph : b.phase ≠ .busy) (hw : OperandWrite s.params b b')
      (hev : ∃ reg v, s.script.head? = some (.wr k reg v))
      (ht : t.blocks = s.blocks.set k b')
  | start (k : Nat) (b : Block) (i : Instr) (stuck : Bool) (hp : t.params = s.params) (hm : t.mem = s.mem)
      (hb : s.block? k = some b) (hph : b.phase ≠ .busy) (hw : b.OperandsWritten i)
      (hev : ∃ v, s.script.head? = some (.wr k 0 v))
      (hc : (s.select k).ClearOf (opSets i s.params s.mem b.src.value b.dst.value b.len.value))
      (hv : opVerdict i s.params s.mem b.src.value b.dst.value b.len.value = if stuck then .stuck else .complete)
      (ht : t.blocks = s.blocks.set k
        (b.started i ⟨opSets i s.params s.mem b.src.value b.dst.value b.len.value, stuck⟩))
  | finish (k : Nat) (b : Block) (i : Instr) (hp : t.params = s.params)
      (hb : s.block? k = some b) (hph : b.phase = .busy) (hev : s.MayFinish k) (hr : b.runs i)
      (hs : b.job.stuck = false)
      (hv : opVerdict i s.params s.mem b.sSrc b.sDst b.sLen = .complete)
      (hm : t.mem = (opResult i s.params s.mem b.sSrc b.sDst b.sLen).mem)
      (ht : t.blocks = s.blocks.set k (b.finished (opResult i s.params s.mem b.sSrc b.sDst b.sLen)))
  | doneRead (k : Nat) (b : Block) (hp : t.params = s.params) (hm : t.mem = s.mem)
      (hb : s.block? k = some b) (hph : b.phase = .done)
      (hev : s.script.head? = some (.rd k 5) ∨ s.script.head? = some (.wait k))
      (ht : t.blocks = s.blocks.set k b.doneRead)
  | agent (a : Nat) (v : Byte) (hp : t.params = s.params) (hev : s.script.head? = some (.memWrite a v))
      (ha : a < 2 ^ s.params.aw) (hpl : s.params.Plain a) (hu : ¬ s.InUse a)
      (hm : t.mem = s.mem.write a v) (hb : t.blocks = s.blocks)
  | reset (k : Nat) (b : Block) (hp : t.params = s.params) (hev : s.script.head? = some (.reset k))
      (hb : s.block? k = some b)
      (hm : t.mem = if b.phase = .busy then s.mem.scramble b.job.sets.writes.lo s.draws b.job.sets.writes.len
        else s.mem)
      (ht : t.blocks = s.blocks.set k .reset)

/-- What an operation on the selected block can do: its START or its FINISH. -/
theorem exec_change {i : Instr} {s t : State} (h : exec i s = .next t) :
    ∃ b, s.block? s.sel = some b ∧
      ((b.phase ≠ .busy ∧ b.OperandsWritten i ∧
        s.ClearOf (opSets i s.params s.mem b.src.value b.dst.value b.len.value) ∧
        ∃ stuck : Bool,
          opVerdict i s.params s.mem b.src.value b.dst.value b.len.value = (if stuck then .stuck else .complete) ∧
          t = s.putBlock s.sel
            (b.started i ⟨opSets i s.params s.mem b.src.value b.dst.value b.len.value, stuck⟩)) ∨
       (b.phase = .busy ∧
        (t = s ∨
         (b.job.stuck = false ∧ opVerdict i s.params s.mem b.sSrc b.sDst b.sLen = .complete ∧
          t = (s.setMem (opResult i s.params s.mem b.sSrc b.sDst b.sLen).mem).putBlock s.sel
            (b.finished (opResult i s.params s.mem b.sSrc b.sDst b.sLen)))))) := by
  cases hb : s.block? s.sel with
  | none => simp [exec_eq, hb] at h
  | some b =>
    refine ⟨b, rfl, ?_⟩
    by_cases hp : b.phase = .busy
    · rw [exec_finish hb hp] at h
      right
      refine ⟨hp, ?_⟩
      rcases finishOperation_next h with ⟨ht, -⟩ | ⟨hs, hv, ht⟩
      · exact .inl ht
      · exact .inr ⟨hs, hv, ht⟩
    · rw [exec_start hb hp] at h
      left
      obtain ⟨hw, hc, ⟨hv, ht⟩ | ⟨hv, ht⟩⟩ := startOperation_next h
      · exact ⟨hp, hw, hc, false, by simpa using hv, ht⟩
      · exact ⟨hp, hw, hc, true, by simpa using hv, ht⟩

/-- The turn of a BUSY block is the execution of the operation in S_OP (R33). -/
theorem blockTurn_busy {s : State} {k : Nat} {b : Block} {i : Instr} (hb : s.block? k = some b) (hp : b.phase = .busy)
    (hr : b.runs i) : blockTurn s k = exec i (s.select k) := by
  have hd : decodeByte (b.sOp.setWidth 8) = .ok i := (decodeByte_op _ _).mpr hr
  simp only [blockTurn, hb, hp, if_true, hd]

/-- The turn of a block, whatever events are to come: nothing, or the FINISH of the operation it runs (R33). -/
theorem blockTurn_change_of {s t : State} {k : Nat} {rest : List Event} (hev : s.MayFinish k)
    (h : blockTurn (s.setScript rest) k = .next t) : Change s t := by
  unfold blockTurn at h
  split at h
  · cases h
  · rename_i b hb
    split at h
    · rename_i hp
      split at h
      · cases h
      · rename_i i hi
        have hr : b.runs i := (decodeByte_op _ _).mp hi
        obtain ⟨b', hb', hc⟩ := exec_change h
        have hbb : b' = b := by
          have : s.block? k = some b' := by simpa using hb'
          rw [State.setScript_block?] at hb
          rw [hb] at this
          exact (Option.some.inj this).symm
        subst hbb
        rcases hc with ⟨hn, -⟩ | ⟨-, rfl | ⟨hs, hv, rfl⟩⟩
        · exact absurd hp hn
        · exact .nothing rfl rfl rfl
        · exact .finish k b' i rfl hb hp hev hr hs hv rfl rfl
    · cases h
      exact .nothing rfl rfl rfl

/-- The turn of a block: nothing, or the FINISH of the operation it runs (R33). -/
theorem blockTurn_change {s t : State} {k : Nat} (hev : s.MayFinish k) (h : blockTurn s k = .next t) : Change s t :=
  blockTurn_change_of (rest := s.script) hev h

/-- With no event to take: nothing, or the FINISH of some block (R226). -/
theorem quietTurn_change {s t : State} (hev : ∀ k, s.MayFinish k) (h : quietTurn s = .next t) : Change s t := by
  unfold quietTurn at h
  split at h
  · exact blockTurn_change (hev _) h
  · cases h
    exact .nothing rfl rfl rfl

/-- `WAIT`: it ends with DONE read, or lets a block take its FINISH (R83, R226). -/
theorem waitDone_change {s t : State} {k : Nat} {rest : List Event} (hev : s.script = .wait k :: rest)
    (h : waitDone s k rest = .next t) : Change s t := by
  have head : s.script.head? = some (.wait k) := by simp [hev]
  have may : ∀ j, s.MayFinish j := fun _ => .inr (.inr ⟨k, head⟩)
  unfold waitDone at h
  split at h
  · cases h
  · rename_i b hb
    split at h
    · rename_i hp
      cases h
      exact .doneRead k b rfl rfl hb hp (.inr head) rfl
    · split at h
      · exact blockTurn_change (may k) h
      · exact quietTurn_change may h

/-- A host write goes on only where the block is not BUSY, and is then what it would be without that duty (R32). -/
theorem hostMayWrite_next {b : Block} {act : Host.Outcome State Fault Refusal} {t : State}
    (h : hostMayWrite b act = .next t) : b.phase ≠ .busy ∧ act = .next t := by
  unfold hostMayWrite at h
  split at h
  · cases h
  · exact ⟨‹_›, h⟩

/-- In IDLE and DONE the host writes (R34, R39). -/
theorem hostMayWrite_eq {b : Block} (hp : b.phase ≠ .busy) (act : Host.Outcome State Fault Refusal) :
    hostMayWrite b act = act := if_neg hp

/-- While BUSY the host is refused (R32). -/
theorem hostMayWrite_refused {b : Block} (h : b.phase = .busy) (act : Host.Outcome State Fault Refusal) :
    hostMayWrite b act = .refused .writeWhileBusy := if_pos h

/-- A host write: an operand register of a block that is not BUSY, or a START (R31, R39). -/
theorem hostWrite_change {s t : State} {k reg v : Nat} {rest : List Event}
    (hev : s.script = .wr k reg v :: rest) (h : hostWrite (s.setScript rest) k reg v = .next t) : Change s t := by
  have head : s.script.head? = some (.wr k reg v) := by simp [hev]
  unfold hostWrite at h
  split at h
  · cases h
  · rename_i b hb
    rw [State.setScript_block?] at hb
    have operand : ∀ put : Block → OperandReg → Block,
        (∀ v, v < 2 ^ s.params.aw → OperandWrite s.params b (put b ⟨v, true⟩)) →
        writeOperand (s.setScript rest) k b v put = .next t → Change s t := by
      intro put hput h
      obtain ⟨hp, h⟩ := hostMayWrite_next h
      split at h
      · rename_i hv
        cases h
        exact .operand k b _ rfl rfl hb hp (hput v hv) ⟨reg, v, head⟩ rfl
      · cases h
    split at h
    · cases h
    · rename_i hreg
      have hreg0 : reg = 0 := by
        match reg, hreg with
        | 0, _ => rfl
        | 1, hreg | 2, hreg | 3, hreg | 4, hreg | 5, hreg => simp [Register.ofNumber] at hreg
        | n + 6, hreg => simp [Register.ofNumber] at hreg
      subst hreg0
      unfold writeCommand at h
      split at h
      · cases h
      · split at h
        · cases h
        · rename_i i hi
          obtain ⟨hp, h⟩ := hostMayWrite_next h
          obtain ⟨b', hb', hc⟩ := exec_change h
          have hbb : b' = b := by
            have : s.block? k = some b' := by simpa using hb'
            rw [hb] at this
            exact (Option.some.inj this).symm
          subst hbb
          rcases hc with ⟨-, hw, hcl, stuck, hv, rfl⟩ | ⟨hn, -⟩
          · exact .start k b' i stuck rfl rfl hb hp hw ⟨v, head⟩ hcl hv rfl
          · exact absurd hn hp
    · exact operand _ (fun v hv => .src v hv) h
    · exact operand _ (fun v hv => .dst v hv) h
    · exact operand _ (fun v hv => .len v hv) h
    · cases h
    · cases h

/-- A host read changes nothing but what has been seen, the free values drawn, and, where it shows DONE, the buffers
that others must leave alone (R39, R224). -/
theorem hostRead_next {s t : State} {k reg : Nat} (h : hostRead s k reg = .next t) :
    ∃ r v n, t = (s.observe (.reg k r v)).draw n ∨ t = s.observe (.reg k r v) ∨
      ∃ b, reg = 5 ∧ s.block? k = some b ∧ b.phase = .done ∧
        t = (s.observe (.reg k r v)).putBlock k b.doneRead := by
  unfold hostRead readStatus readRet readValue readAnyByte readOperand at h
  split at h
  · cases h
  · rename_i b hb
    have word : ∀ (r : Register) (x : OperandReg),
        (if x.written then readValue s k r x.value else readAnyWord s k r) = .next t →
        ∃ r v n, t = (s.observe (.reg k r v)).draw n ∨ t = s.observe (.reg k r v) ∨
          ∃ b, reg = 5 ∧ s.block? k = some b ∧ b.phase = .done ∧
            t = (s.observe (.reg k r v)).putBlock k b.doneRead := by
      intro r x h
      split at h
      · cases h
        exact ⟨_, _, 0, .inr (.inl rfl)⟩
      · cases h
        exact ⟨_, _, _, .inl rfl⟩
    split at h
    · cases h
    · cases h
      exact ⟨_, _, _, .inl rfl⟩
    · exact word _ _ h
    · exact word _ _ h
    · exact word _ _ h
    · split at h
      · cases h
        exact ⟨_, _, 0, .inr (.inl rfl)⟩
      · cases h
        exact ⟨_, _, _, .inl rfl⟩
    · rename_i hreg
      have hreg5 : reg = 5 := by
        match reg, hreg with
        | 5, _ => rfl
        | 0, hreg | 1, hreg | 2, hreg | 3, hreg | 4, hreg => simp [Register.ofNumber] at hreg
        | n + 6, hreg => simp [Register.ofNumber] at hreg
      split at h
      · rename_i hp
        cases h
        exact ⟨_, _, 0, .inr (.inr ⟨b, hreg5, hb, hp, rfl⟩)⟩
      · cases h
        exact ⟨_, _, 0, .inr (.inl rfl)⟩

/-- A memory write of another agent lands only in the address space, in plain memory, outside the sets of every
operation that is BUSY or whose DONE the host has not read (R50, R59, R61, R224). -/
theorem agentWrite_next {s t : State} {a : Nat} {v : Byte} (h : agentWrite s a v = .next t) :
    a < 2 ^ s.params.aw ∧ s.params.Plain a ∧ ¬ s.InUse a ∧ t = s.setMem (s.mem.write a v) := by
  unfold agentWrite at h
  split at h
  · cases h
  · rename_i h1
    split at h
    · cases h
    · rename_i h2
      split at h
      · cases h
      · rename_i h3
        cases h
        exact ⟨not_not.mp h1, not_not.mp h2, h3, rfl⟩

/-- A memory write of another agent to plain memory that no operation in progress uses goes on. -/
theorem agentWrite_eq {s : State} {a : Nat} {v : Byte} (ha : a < 2 ^ s.params.aw) (hp : s.params.Plain a)
    (hu : ¬ s.InUse a) : agentWrite s a v = .next (s.setMem (s.mem.write a v)) := by
  unfold agentWrite
  rw [if_neg (not_not.mpr ha), if_neg (not_not.mpr hp), if_neg hu]

/-- A memory read of another agent of plain memory outside the write set of every operation in progress. -/
theorem agentRead_eq {s : State} {a : Nat} (ha : a < 2 ^ s.params.aw) (hp : s.params.Plain a)
    (hu : ¬ s.BeingWritten a) : agentRead s a = .next (s.observe (.mem a (s.mem.read a))) := by
  unfold agentRead
  rw [if_neg (not_not.mpr ha), if_neg (not_not.mpr hp), if_neg hu]

/-- A memory read of another agent changes nothing but what has been seen and the free values drawn (R32). -/
theorem agentRead_next {s t : State} {a : Nat} (h : agentRead s a = .next t) :
    a < 2 ^ s.params.aw ∧ s.params.Plain a ∧
      ((s.BeingWritten a ∧ t = (s.observe (.mem a (Config.freeByte s.draws))).draw 1) ∨
       (¬ s.BeingWritten a ∧ t = s.observe (.mem a (s.mem.read a)))) := by
  unfold agentRead at h
  split at h
  · cases h
  · rename_i h1
    split at h
    · cases h
    · rename_i h2
      split at h
      · rename_i h3
        cases h
        exact ⟨not_not.mp h1, not_not.mp h2, .inl ⟨h3, rfl⟩⟩
      · rename_i h3
        cases h
        exact ⟨not_not.mp h1, not_not.mp h2, .inr ⟨h3, rfl⟩⟩

/-- Every step that goes on makes one of the changes. -/
theorem step_change {s t : State} (h : step s = .next t) : Change s t := by
  unfold step at h
  split at h
  · rename_i hev
    exact quietTurn_change (fun _ => .inl hev) h
  · rename_i e rest hev
    have head : s.script.head? = some e := by simp [hev]
    cases e with
    | wr k reg v => exact hostWrite_change hev h
    | rd k reg =>
      obtain ⟨r, v, n, rfl | rfl | ⟨b, rfl, hb, hp, rfl⟩⟩ := hostRead_next h
      · exact .nothing rfl rfl rfl
      · exact .nothing rfl rfl rfl
      · exact .doneRead k b rfl rfl hb hp (.inl head) rfl
    | wait k => exact waitDone_change hev h
    | memWrite a v =>
      obtain ⟨h1, h2, h3, rfl⟩ := agentWrite_next h
      exact .agent a v rfl head h1 h2 h3 rfl rfl
    | memRead a =>
      obtain ⟨-, -, ⟨-, rfl⟩ | ⟨-, rfl⟩⟩ := agentRead_next h
      · exact .nothing rfl rfl rfl
      · exact .nothing rfl rfl rfl
    | turn k => exact blockTurn_change_of (.inr (.inl head)) h
    | reset k =>
      simp only [takeEvent, resetBlock] at h
      split at h
      · cases h
      · rename_i b hb
        split at h
        · rename_i hp
          cases h
          exact .reset k b rfl head hb (by simp [hp]) rfl
        · rename_i hp
          cases h
          exact .reset k b rfl head hb (by simp [hp]) rfl

end Sys2Proof.Machine
end

