-- ==== Sys2Proof/Tests/Slice0.lean ====
section
/-! SUPPORT. The model's own tests: decoded words, ill-formed terms refused, vectors of spec/95_test_vectors.md, and one
witness for every obligation that has hypotheses.  Expected values come from the spec, not from the model. -/

namespace Sys2Proof.Tests

open Sys2Proof.Machine

/-! ### Small states -/

/-- `bs` stored from `a` up. -/
def store (m : Memory) (a : Nat) : List Byte → Memory
  | [] => m
  | b :: bs => store (m.write a b) (a + 1) bs

/-- `AW = 4`, as in section 2.7 of 95_test_vectors.md. -/
def four : Params := { Params.default with aw := 4 }

/-- `AW = 8`. -/
def eight : Params := { Params.default with aw := 8 }

/-- `AW = 8` with a device at 0xF0 to 0xFF. -/
def eightWithDevice : Params := { eight with devices := [⟨0xF0, 0x10⟩] }

/-- `AW = 8` with writes admitted below 0x80 only. -/
def eightDenied : Params := { eight with denied := [⟨.write, 0x80, 0x80⟩] }

/-- `AW = 8` with reads admitted below 0x80 only. -/
def eightUnreadable : Params := { eight with denied := [⟨.read, 0x80, 0x80⟩] }

/-- An IDLE block whose operand registers the host has written. -/
def ready (src dst len : Nat) : Block := { Block.reset with src := ⟨src, true⟩, dst := ⟨dst, true⟩, len := ⟨len, true⟩ }

/-- A BUSY block that runs `i`, started in memory `m`. -/
def running (i : Instr) (p : Params) (m : Memory) (src dst len : Nat) : Block :=
  (ready src dst len).started i ⟨opSets i p m src dst len, false⟩

/-- A BUSY block that runs ENC and is stuck. -/
def stuckEnc (p : Params) (m : Memory) (src dst len : Nat) : Block :=
  (ready src dst len).started .enc ⟨opSets .enc p m src dst len, true⟩

/-- A DONE block whose DONE the host has read. -/
def finished (src dst len : Nat) : Block := { ready src dst len with phase := .done, ret := 3 }

/-- A DONE block that has finished an ENC from 0..2 to 8..12, whose DONE the host has not read. -/
def unread : Block := { finished 0 8 3 with unseen := [encSets 0 8 3] }

/-- A machine of the blocks `bs` with the events `es` to come. -/
def machine (p : Params) (m : Memory) (bs : List Block) (es : List Event) : State :=
  { params := p, mem := m, blocks := bs, sel := 0, script := es, seen := [], draws := 0 }

/-- The step goes on and leaves `P`. -/
def goesTo (o : Host.Outcome State Fault Refusal) (P : State → Bool) : Bool :=
  match o with
  | .next t => P t
  | .fault _ => false
  | .refused _ => false

/-- The step is refused for `r`. -/
def refusedAs (o : Host.Outcome State Fault Refusal) (r : Refusal) : Bool :=
  match o with
  | .next _ => false
  | .fault _ => false
  | .refused q => decide (q = r)

/-- FINISH of `i` from the memory `m` ends DONE with RET `ret`, and the bytes from `at_` up read `bs`. -/
def finishes (i : Instr) (p : Params) (m : Memory) (src dst len ret at_ : Nat) (bs : List Byte) : Bool :=
  goesTo (exec i (machine p m [running i p m src dst len] [])) fun t =>
    t.blocks.map (fun b => (b.phase, b.ret)) == [(.done, ret)] && t.mem.bytes at_ bs.length == bs

/-- `"ABC="` at 0. -/
def textAbc : Memory := store [] 0 [0x41, 0x42, 0x43, 0x3D]

/-- `"AAAA"` at 0. -/
def textAaaa : Memory := store [] 0 [0x41, 0x41, 0x41, 0x41]

/-- `"AAAA"` at 0 and a byte 0x55 at 7. -/
def overwritten : Memory := textAaaa.write 7 0x55

/-! ### Decoding: the words of the operation table (R81), and reserved bytes (R84) -/

theorem test_decode_valid_word : decode [0b000000_01, 0xAA] = .ok (.valid, [0xAA]) := by decide

theorem test_decode_enc_word : decode [0b000000_10] = .ok (.enc, []) := by decide

theorem test_decode_dec_word : decode [0b000000_11] = .ok (.dec, []) := by decide

theorem test_reserved_words_rejected :
    decode [0x00] = .error .opZero ∧ decode [0x04] = .error .reservedBits ∧ decode [0x81] = .error .reservedBits ∧
    decode [0xFF] = .error .reservedBits ∧ decode [] = .error .noByte := by decide

/-- R84: "0x00 (OP = 00) and all 252 bytes with any of bits 7:2 set". -/
theorem test_three_bytes_of_256_decode :
    ((List.range 256).filter fun n => (decodeTableWord 8 n).isSome) = [1, 2, 3] := by decide

theorem test_encode_gives_the_table_words : [encode .valid, encode .enc, encode .dec] = [[0x01], [0x02], [0x03]] := by
  decide

/-- Each row of the table is what the first step after reset runs: the block is BUSY with the row's OP in S_OP. -/
theorem test_first_step_runs_each_row :
    ∀ w ∈ [1, 2, 3], goesTo (step (State.reset.withFetchWord 8 w)) (fun t =>
      t.blocks.map (fun b => (b.phase, b.sOp.toNat)) == [(.busy, w)]) = true := by decide

/-! ### Well-formedness refuses ill-formed terms -/

theorem test_params_wf_refuses_narrow_address : Params.wf { four with aw := 3 } = false := by decide

theorem test_params_wf_refuses_zero_stride : Params.wf { four with windows := [⟨0, 0⟩] } = false := by decide

theorem test_event_wf_refuses_absent_block :
    Event.wf four 1 (.wr 1 1 0) = false ∧ Event.wf four 1 (.rd 1 1) = false ∧ Event.wf four 1 (.wait 1) = false ∧
    Event.wf four 1 (.turn 1) = false ∧ Event.wf four 1 (.reset 1) = false := by decide

theorem test_event_wf_refuses_absent_register :
    Event.wf four 1 (.wr 0 6 0) = false ∧ Event.wf four 1 (.rd 0 6) = false := by decide

theorem test_event_wf_refuses_wide_value :
    Event.wf four 1 (.wr 0 0 256) = false ∧ Event.wf four 1 (.wr 0 1 16) = false ∧
    Event.wf four 1 (.wr 0 2 16) = false ∧ Event.wf four 1 (.wr 0 3 16) = false ∧ Event.wf four 1 (.wr 0 3 15) = true := by
  decide

theorem test_event_wf_refuses_address_outside_space :
    Event.wf four 1 (.memWrite 16 0) = false ∧ Event.wf four 1 (.memRead 16) = false := by decide

theorem test_request_wf_refuses_wide_operands :
    Request.wf four (.valid 16) = false ∧ Request.wf four (.enc 16 0 0) = false ∧ Request.wf four (.enc 0 16 0) = false ∧
    Request.wf four (.enc 0 0 16) = false ∧ Request.wf four (.dec 16 0) = false ∧ Request.wf four (.dec 0 16) = false ∧
    Request.wf four (.enc 15 15 15) = true := by decide

theorem test_instr_wf : ∀ i : Instr, i.wf = true := by intro i; cases i <;> rfl

/-! ### Vectors (sections 1.1 to 1.5 and 2.7 of 95_test_vectors.md) -/

/-- `"ABC="` gives 2; `"A==A"` gives 0. -/
theorem test_valid_vectors :
    finishes .valid eight textAbc 0 0 0 2 0 [0x41] = true ∧
    finishes .valid eight (store [] 0 [0x41, 0x3D, 0x3D, 0x41]) 0 0 0 0 0 [0x41] = true := by decide

/-- `"AAAA"` at 11..14 ends at the top address, RET = 3; 0x41 at 12..15 is unterminated, so VALID is stuck. -/
theorem test_valid_at_the_top :
    finishes .valid four (store [] 11 [0x41, 0x41, 0x41, 0x41]) 11 0 0 3 15 [0x00] = true ∧
    validVerdict four (store [] 12 [0x41, 0x41, 0x41, 0x41]) 12 = .stuck := by decide

/-- 0F 86 BE FF F0 gives `"D4a+//A="` and the terminator, RET = 9. -/
theorem test_enc_vector :
    finishes .enc eight (store [] 0 [0x0F, 0x86, 0xBE, 0xFF, 0xF0]) 0 0x20 5 9 0x20
      [0x44, 0x34, 0x61, 0x2B, 0x2F, 0x2F, 0x41, 0x3D, 0x00] = true := by decide

/-- `AW = 4`, the rows for ENC: which operands fit. -/
theorem test_enc_fit :
    encVerdict four 9 0 6 = .complete ∧ encVerdict four 13 0 3 = .complete ∧
    encVerdict four 14 0 3 = .refuse .doesNotFit ∧ encVerdict four 0 11 3 = .complete ∧
    encVerdict four 0 12 3 = .refuse .doesNotFit ∧ encVerdict four 15 15 0 = .complete ∧
    encVerdict four 0 0 15 = .refuse .doesNotFit := by decide

/-- `"D4a+//A="` gives 0F 86 BE FF F0 and no terminator, RET = 5. -/
theorem test_dec_vector :
    finishes .dec eight (store (store [] 0x25 [0x77]) 0 [0x44, 0x34, 0x61, 0x2B, 0x2F, 0x2F, 0x41, 0x3D]) 0 0x20 0 5 0x20
      [0x0F, 0x86, 0xBE, 0xFF, 0xF0, 0x77] = true := by decide

/-- `AW = 4`, the rows for DEC: fit, the empty text, an unterminated run of bytes, overlap. -/
theorem test_dec_fit :
    decVerdict four textAaaa 0 13 = .complete ∧ decVerdict four textAaaa 0 14 = .refuse .doesNotFit ∧
    decVerdict four [] 0 15 = .complete ∧ decVerdict four (store [] 12 [0x41, 0x41, 0x41, 0x41]) 12 0 =
      .refuse .malformedText ∧ decVerdict four textAaaa 0 4 = .refuse .buffersOverlap ∧
    decVerdict four textAaaa 0 5 = .complete := by decide

/-! ### The time until DONE is read (R224, D14), register accesses in DONE (R34, R39), and WAIT (R83, R226) -/

/-- Section 2.6 of 95_test_vectors.md, after step 11, a DONE that has not been read: "`WR CMD, 0x02` (ENC uses LEN, which
has no value)" is refused, and with LEN written (R39, R31) it is a START. -/
theorem test_command_in_unread_done :
    refusedAs (step (machine eight [] [{ unread with len := .unwritten }] [.wr 0 0 2])) .unwrittenOperand = true ∧
    goesTo (step (machine eight [] [unread] [.wr 0 0 2])) (fun t =>
      t.blocks.map (fun b => b.phase) == [.busy]) = true := by
  decide

/-- Section 2.6 of 95_test_vectors.md, steps 6 and 7: FINISH of VALID of `"QUJD"`, RD STATUS gives 02 and RD RET 3. -/
theorem test_ret_after_done_is_read :
    goesTo (steps 3 (machine eight (store [] 0 [0x51, 0x55, 0x4A, 0x44])
      [running .valid eight (store [] 0 [0x51, 0x55, 0x4A, 0x44]) 0 0 0] [.turn 0, .rd 0 5, .rd 0 4])) (fun t =>
      t.seen == [.reg 0 .ret 3, .reg 0 .status 2]) = true := by
  decide

/-- A write into the buffers of a finished operation is refused until a STATUS read has shown DONE = 1. -/
theorem test_buffers_held_until_done_is_read :
    refusedAs (step (machine four [] [unread] [.memWrite 8 1])) .bufferInterference = true ∧
    goesTo (steps 2 (machine four [] [unread] [.rd 0 5, .memWrite 8 1])) (fun t => t.mem.read 8 == 1) = true := by
  decide

/-- While the host waits for an IDLE block, the other block's VALID of `"AAAA"` finishes. -/
theorem test_wait_lets_another_block_finish :
    goesTo (step (machine four textAaaa [ready 0 0 0, running .valid four textAaaa 0 0 0] [.wait 0])) (fun t =>
      t.blocks.map (fun b => (b.phase, b.ret)) == [(.idle, 0), (.done, 3)] && t.script == [.wait 0]) = true := by
  decide

/-! ### Witnesses: states and operands that meet the hypotheses of the obligations -/

/-- With no device and no register window every address is plain memory. -/
theorem plain_of_none (p : Params) (h : p.special = []) (a : Nat) : p.Plain a := by
  intro r hr
  rw [h] at hr
  cases hr

/-- With nothing denied every access is admitted. -/
theorem admits_of_none (p : Params) (h : p.denied = []) (k : AccessKind) (a : Nat) : p.Admits k a := by
  intro d hd
  rw [h] at hd
  cases hd

/-- The hypotheses that every statement about START shares, for every operand. -/
theorem machine_ready (p : Params) (m : Memory) (src dst len : Nat) (bs : List Block) :
    (machine p m (ready src dst len :: bs) []).block? 0 = some (ready src dst len) ∧
    (ready src dst len).phase ≠ .busy ∧ ∀ i : Instr, (ready src dst len).OperandsWritten i := by
  refine ⟨rfl, Phase.noConfusion, ?_⟩
  intro i
  exact ⟨fun _ => rfl, fun _ => rfl, fun _ => rfl⟩

/-- An outcome that is complete is not refuse. -/
theorem not_refused {v : Verdict} (h : v = .complete) (r : Refusal) : v ≠ .refuse r := by
  subst h
  exact Verdict.noConfusion

theorem witness_DecodeAndEncodeAgree : decode [0x02] = .ok (.enc, []) := by decide

theorem witness_ResetLeavesEveryBlockIdle : Block.reset ∈ State.reset.blocks ∧ 0 < State.reset.blocks.length := by decide

theorem witness_AlphabetIsTheTabledString : alpha 63 = alpha 63 := rfl

theorem witness_InverseTableInvertsTheAlphabet : rev 0x2B = .val 62 ∧ rev 0x2F = .val 63 := by decide

theorem witness_StepExecutesTheCommandWritten : ∀ v ∈ [1, 2, 3], ∃ i : Instr,
    (machine four [] [unread] [.wr 0 0 v]).script = .wr 0 0 v :: [] ∧
    (machine four [] [unread] [.wr 0 0 v]).block? 0 = some unread ∧
    unread.phase ≠ .busy ∧ v < 2 ^ 8 ∧ decode [BitVec.ofNat 8 v] = .ok (i, []) := by
  intro v hv
  simp only [List.mem_cons, List.not_mem_nil, or_false] at hv
  obtain rfl | rfl | rfl := hv
  · exact ⟨.valid, rfl, rfl, by decide, by decide, by decide⟩
  · exact ⟨.enc, rfl, rfl, by decide, by decide, by decide⟩
  · exact ⟨.dec, rfl, rfl, by decide, by decide, by decide⟩

/-- Each of the four scripts, the last a WAIT on another block; the earlier block is IDLE, and the same holds of one
that is stuck. -/
theorem witness_StepExecutesTheSampledOperation : ∀ es ∈ [[Event.turn 1], [Event.wait 1], [], [Event.wait 0]],
    ∀ y ∈ [ready 0 0 0, stuckEnc four textAaaa 0 11 3],
    (machine four textAaaa [y, running .dec four textAaaa 0 8 0] es).block? 1 =
      some (running .dec four textAaaa 0 8 0) ∧
    (running .dec four textAaaa 0 8 0).phase = .busy ∧ (running .dec four textAaaa 0 8 0).runs .dec ∧
    (running .dec four textAaaa 0 8 0).job.stuck = false ∧
    (machine four textAaaa [y, running .dec four textAaaa 0 8 0] es).block? 0 = some y ∧
    (y.phase = .idle ∨ (y.phase = .busy ∧ y.job.stuck = true)) ∧
    ∀ j x, j < 1 → (machine four textAaaa [y, running .dec four textAaaa 0 8 0] es).block? j = some x →
      x.phase ≠ .busy ∨ x.job.stuck = true := by
  intro es _ y hy
  have hy' : y.phase = .idle ∨ (y.phase = .busy ∧ y.job.stuck = true) := by
    revert y
    decide
  refine ⟨rfl, rfl, rfl, rfl, rfl, hy', ?_⟩
  intro j x hj hx
  obtain rfl : j = 0 := by omega
  cases hx
  rcases hy' with h | h
  · exact .inl (by rw [h]; decide)
  · exact .inr h.2

theorem witness_ReservedCommandIsRefused : ∀ v ∈ [0x00, 0x04, 0x80, 0xFF],
    (machine four [] [running .valid four [] 0 0 0] [.wr 0 0 v]).script = .wr 0 0 v :: [] ∧
    (machine four [] [running .valid four [] 0 0 0] [.wr 0 0 v]).block? 0 = some (running .valid four [] 0 0 0) ∧
    v < 2 ^ 8 ∧ v ≠ 0x01 ∧ v ≠ 0x02 ∧ v ≠ 0x03 := by
  decide

/-- The two ends of the range of an operand, and each of the three registers. -/
theorem witness_OperandWriteIsStored : ∀ reg ∈ [1, 2, 3], ∀ v ∈ [0, 15],
    (machine four [] [finished 1 1 1] [.wr 0 reg v]).block? 0 = some (finished 1 1 1) ∧
    (finished 1 1 1).phase ≠ .busy ∧ v < 2 ^ four.aw ∧
    (machine four [] [finished 1 1 1] [.wr 0 reg v]).script = .wr 0 reg v :: [] := by
  decide

/-- One block and register for each clause: STATUS in each phase, RET in DONE read and not read and in IDLE, each operand
register written and not written, CMD, and register 6. -/
theorem witness_HostReadsAsTabled :
    (∀ b ∈ [finished 1 1 1, unread, Block.reset, running .valid four [] 0 0 0], ∀ reg ∈ [0, 1, 2, 3, 4, 5, 6],
      (machine four [] [b] [.rd 0 reg]).script = .rd 0 reg :: [] ∧
      (machine four [] [b] [.rd 0 reg]).block? 0 = some b) ∧
    (finished 1 1 1).phase = .done ∧ unread.phase = .done ∧ Block.reset.phase ≠ .done ∧ Block.reset.phase = .idle ∧
    (running .valid four [] 0 0 0).phase = .busy ∧
    (finished 1 1 1).src.written = true ∧ Block.reset.src.written = false ∧
    (finished 1 1 1).dst.written = true ∧ Block.reset.dst.written = false ∧
    (finished 1 1 1).len.written = true ∧ Block.reset.len.written = false := by
  decide

theorem witness_HostWritesRefusedAsTabled : ∀ reg ∈ [0, 1, 2, 3, 4, 5, 6],
    (machine four [] [running .valid four [] 0 0 0] [.wr 0 reg 1]).script = .wr 0 reg 1 :: [] ∧
    (machine four [] [running .valid four [] 0 0 0] [.wr 0 reg 1]).block? 0 = some (running .valid four [] 0 0 0) ∧
    (running .valid four [] 0 0 0).phase = .busy := by
  decide

theorem witness_StartSamplesOperandsAndTurnsBusy : ∀ i : Instr,
    (machine four textAaaa [ready 0 8 3] []).block? 0 = some (ready 0 8 3) ∧ (ready 0 8 3).phase ≠ .busy ∧
    (ready 0 8 3).OperandsWritten i ∧ (∀ r, opVerdict i four textAaaa 0 8 3 ≠ .refuse r) ∧
    (machine four textAaaa [ready 0 8 3] []).ClearOf (opSets i four textAaaa 0 8 3) := by
  intro i
  have hv : opVerdict i four textAaaa 0 8 3 = .complete := by cases i <;> decide
  refine ⟨rfl, by decide, by cases i <;> decide, not_refused hv, ?_⟩
  cases i <;> decide

/-- Each clause: SRC, DST and LEN unwritten. -/
theorem witness_StartWithUnwrittenOperandIsRefused :
    (machine four [] [Block.reset] []).block? 0 = some Block.reset ∧ Block.reset.phase ≠ .busy ∧
    Block.reset.src.written = false ∧
    (machine four [] [{ ready 0 0 0 with dst := .unwritten }] []).block? 0 = some { ready 0 0 0 with dst := .unwritten } ∧
    (Instr.dec ≠ .valid ∧ ({ ready 0 0 0 with dst := .unwritten } : Block).dst.written = false) ∧
    (machine four [] [{ ready 0 0 0 with len := .unwritten }] []).block? 0 = some { ready 0 0 0 with len := .unwritten } ∧
    ({ ready 0 0 0 with len := .unwritten } : Block).len.written = false := by
  decide

/-- `AW = 32`, ENC with `s = 0x100`, `n = 3`: `d = 0x102` and `d = 0xFC` meet the read set at its ends. -/
theorem witness_OverlappingBuffersAreRefused :
    (machine .default [] [ready 0x100 0x102 3] []).block? 0 = some (ready 0x100 0x102 3) ∧
    (ready 0x100 0x102 3).phase ≠ .busy ∧
    (opSets .enc .default [] 0x100 0x102 3).reads.Has 0x102 ∧ (opSets .enc .default [] 0x100 0x102 3).writes.Has 0x102 ∧
    (opSets .enc .default [] 0x100 0xFC 3).reads.Has 0x100 ∧ (opSets .enc .default [] 0x100 0xFC 3).writes.Has 0x100 := by
  decide

/-- A read set and a write set that reach a device at 0xF0. -/
theorem witness_BuffersOutsidePlainMemoryAreRefused :
    (machine eightWithDevice [] [ready 0xEE 0x10 3] []).block? 0 = some (ready 0xEE 0x10 3) ∧
    (ready 0xEE 0x10 3).phase ≠ .busy ∧
    (opSets .enc eightWithDevice [] 0xEE 0x10 3).reads.Has 0xF0 ∧
    (opSets .enc eightWithDevice [] 0x10 0xEC 3).writes.Has 0xF0 ∧ ¬ eightWithDevice.Plain 0xF0 := by
  decide

/-- `AW = 4`, each clause at its boundary: `s + n = 17`, `d + 4 = 16`, `d + m = 17`, and the largest ENC that fits. -/
theorem witness_OperationsThatDoNotFitAreRefused :
    (machine four textAaaa [ready 14 0 3] []).block? 0 = some (ready 14 0 3) ∧ (ready 14 0 3).phase ≠ .busy ∧
    (0 < 3 ∧ 2 ^ four.aw < 14 + 3) ∧ 2 ^ four.aw ≤ 12 + 4 * divUp 3 3 ∧
    textLen four textAaaa 0 = some 4 ∧ 0 < decodedLen (textAaaa.bytes 0 4) ∧
    2 ^ four.aw < 14 + decodedLen (textAaaa.bytes 0 4) ∧
    4 ≤ four.aw ∧ EncFits four 7 0 9 ∧ textLen four (store [] 11 [0x41, 0x41, 0x41, 0x41]) 11 = some 4 := by
  decide

/-- A text VALID rejects, and bytes with no terminator. -/
theorem witness_DecRefusesWhatIsNotWellFormed :
    (machine four (store [] 0 [0x41]) [ready 0 8 0] []).block? 0 = some (ready 0 8 0) ∧ (ready 0 8 0).phase ≠ .busy ∧
    (∀ t, textAt four (store [] 0 [0x41]) 0 = some t → ¬ WF t) ∧
    (∀ t, textAt four (store [] 12 [0x41, 0x41, 0x41, 0x41]) 12 = some t → ¬ WF t) := by
  refine ⟨rfl, by decide, ?_, ?_⟩
  · intro t ht
    have : textAt four (store [] 0 [0x41]) 0 = some [0x41] := by decide
    rw [this] at ht
    cases ht
    decide
  · intro t ht
    have : textAt four (store [] 12 [0x41, 0x41, 0x41, 0x41]) 12 = none := by decide
    rw [this] at ht
    cases ht

/-- Block 1 runs ENC from 0..2 to 8..12, or has finished it with its DONE not read: an ENC to 2..6 writes into its read set, one to 12..16 into its write set,
and one from 10..12 reads its write set. -/
theorem witness_InterferingStartIsRefused :
    (machine eight [] [ready 0x40 2 3, running .enc eight [] 0 8 3] []).block? 0 = some (ready 0x40 2 3) ∧
    (ready 0x40 2 3).phase ≠ .busy ∧ 1 ≠ (machine eight [] [ready 0x40 2 3, running .enc eight [] 0 8 3] []).sel ∧
    (machine eight [] [ready 0x40 2 3, running .enc eight [] 0 8 3] []).block? 1 = some (running .enc eight [] 0 8 3) ∧
    (running .enc eight [] 0 8 3).phase = .busy ∧
    ((opSets .enc eight [] 0x40 2 3).writes.Has 2 ∧ (running .enc eight [] 0 8 3).job.sets.reads.Has 2) ∧
    ((opSets .enc eight [] 0x40 12 3).writes.Has 12 ∧ (running .enc eight [] 0 8 3).job.sets.writes.Has 12) ∧
    ((opSets .enc eight [] 10 0x40 3).reads.Has 12 ∧ (running .enc eight [] 0 8 3).job.sets.writes.Has 12) ∧
    (machine eight [] [ready 0x40 2 3, unread] []).block? 1 = some unread ∧
    (running .enc eight [] 0 8 3).job.sets ∈ unread.unseen := by
  decide

/-- 0x41 at 12..15 of `AW = 4`: no terminator at or above 12. -/
theorem witness_TextEndsAtItsFirstTerminator :
    (machine four (store [] 12 [0x41, 0x41, 0x41, 0x41]) [ready 12 0 0] []).block? 0 = some (ready 12 0 0) ∧
    (ready 12 0 0).phase ≠ .busy ∧ (ready 12 0 0).src.written = true ∧
    (∀ k, 12 + k ≤ 2 ^ four.aw - 1 → Memory.read (store [] 12 [0x41, 0x41, 0x41, 0x41]) (12 + k) ≠ 0x00) ∧
    (∀ a, (askedRange four 12).Has a → four.Plain a) ∧
    (machine four (store [] 12 [0x41, 0x41, 0x41, 0x41]) [ready 12 0 0] []).ClearOf
      (validSets four (store [] 12 [0x41, 0x41, 0x41, 0x41]) 12) := by
  refine ⟨rfl, by decide, rfl, ?_, fun a _ => plain_of_none _ rfl a, by decide⟩
  intro k hk
  have hk4 : k < 4 := by
    have : (2 : Nat) ^ four.aw = 16 := rfl
    omega
  clear hk
  revert k
  decide

theorem witness_ValidatorAcceptsExactlyWellFormedTexts :
    WF (textAbc.bytes 0 4) ∧ ¬ WF (textAbc.bytes 0 3) := by
  decide

theorem witness_ValidReturnsZeroExactlyForEmptyOrMalformed :
    WF (textAbc.bytes 0 4) ∧ textAbc.bytes 0 4 ≠ [] := by
  decide

theorem witness_ValidFinishReturnsDecodedLength :
    (machine four textAbc [running .valid four textAbc 0 0 0] []).block? 0 = some (running .valid four textAbc 0 0 0) ∧
    (running .valid four textAbc 0 0 0).phase = .busy ∧ (running .valid four textAbc 0 0 0).job.stuck = false ∧
    textLen four textAbc 0 = some 4 ∧ ∀ k ≤ 4, four.Plain (0 + k) ∧ four.Admits .read (0 + k) :=
  ⟨rfl, rfl, rfl, by decide, fun _ _ => ⟨plain_of_none _ rfl _, admits_of_none _ rfl _ _⟩⟩

/-- `AW = 4`, `s = 13`, `n = 3`, `d = 0`: the read set ends at the top address. -/
theorem witness_EncFinishWritesTheText :
    (store [] 13 [0xFF, 0x00, 0x7F]).wf = true ∧
    (machine four (store [] 13 [0xFF, 0x00, 0x7F]) [running .enc four [] 13 0 3] []).block? 0 =
      some (running .enc four [] 13 0 3) ∧
    (running .enc four [] 13 0 3).phase = .busy ∧ (running .enc four [] 13 0 3).job.stuck = false ∧
    (0 < 3 → 13 + 3 ≤ 2 ^ four.aw) ∧ 0 + encodedLen 3 ≤ 2 ^ four.aw - 1 ∧
    (∀ a, (encSets 13 0 3).reads.Has a → four.Plain a ∧ four.Admits .read a ∧ ¬ (encSets 13 0 3).writes.Has a) ∧
    ∀ a, (encSets 13 0 3).writes.Has a → four.Plain a ∧ four.Admits .write a := by
  refine ⟨by decide, rfl, rfl, rfl, by decide, by decide, ?_, fun a _ => ⟨plain_of_none _ rfl a, admits_of_none _ rfl _ a⟩⟩
  intro a ha
  refine ⟨plain_of_none _ rfl a, admits_of_none _ rfl _ a, ?_⟩
  exact (Range.disjoint_iff _ _).mp (by decide : (encSets 13 0 3).reads.Disjoint (encSets 13 0 3).writes) a ha

theorem witness_EncodedTextIsWellFormedAndCanonical :
    (store [] 0 (encodeBytes [0xFF])).bytes 0 (encodedLen [(0xFF : Byte)].length) = encodeBytes [0xFF] := by
  decide

theorem witness_PointersNeverDereferencedAreFree :
    textLen four [] 0 = some 0 ∧ four.Plain 0 ∧ four.Admits .read 0 := by
  decide

/-- `"AAAA"` at 0..4 and `d = 13`: the write set ends at the top address. -/
theorem witness_DecFinishWritesTheBytes :
    textAaaa.wf = true ∧
    (machine four textAaaa [running .dec four textAaaa 0 13 0] []).block? 0 = some (running .dec four textAaaa 0 13 0) ∧
    (running .dec four textAaaa 0 13 0).phase = .busy ∧ (running .dec four textAaaa 0 13 0).job.stuck = false ∧
    textAt four textAaaa 0 = some [0x41, 0x41, 0x41, 0x41] ∧ WF [0x41, 0x41, 0x41, 0x41] ∧
    (0 < decodedLen [0x41, 0x41, 0x41, 0x41] → 13 + decodedLen [0x41, 0x41, 0x41, 0x41] ≤ 2 ^ four.aw) ∧
    (∀ k ≤ 4, four.Plain (0 + k) ∧ four.Admits .read (0 + k) ∧ ¬ (decSets four textAaaa 0 13).writes.Has (0 + k)) ∧
    ∀ k < decodedLen [0x41, 0x41, 0x41, 0x41], four.Plain (13 + k) ∧ four.Admits .write (13 + k) := by
  refine ⟨by decide, rfl, rfl, rfl, by decide, by decide, by decide, by decide, ?_⟩
  exact fun k _ => ⟨plain_of_none _ rfl _, admits_of_none _ rfl _ _⟩

theorem witness_ValidatorAndDecoderAgree :
    textAbc.wf = true ∧ decVerdict four textAbc 0 8 = .complete ∧ textLen four textAbc 0 = some 4 := by
  decide

theorem witness_TextRoundTripExactlyWhenCanonical :
    WF [0x41, 0x42, 0x3D, 0x3D] ∧ ¬ Canonical [0x41, 0x42, 0x3D, 0x3D] ∧
    WF [0x41, 0x41, 0x3D, 0x3D] ∧ Canonical [0x41, 0x41, 0x3D, 0x3D] := by
  decide

theorem witness_EveryCanonicalTextIsOneEncoding :
    encodeBytes [0x00] = encodeBytes [0x00] ∧ WF [0x41, 0x41, 0x3D, 0x3D] ∧ Canonical [0x41, 0x41, 0x3D, 0x3D] := by
  decide

/-- A text with one and a text with two padding characters, each with discarded bits set. -/
theorem witness_ReencodingClearsTheDiscardedBits :
    WF [0x41, 0x42, 0x43, 0x3D] ∧ padCount [0x41, 0x42, 0x43, 0x3D] = 1 ∧
    WF [0x41, 0x42, 0x3D, 0x3D] ∧ padCount [0x41, 0x42, 0x3D, 0x3D] = 2 := by
  decide

theorem witness_FinishFrame : ∀ i : Instr, ∃ t : State,
    textAaaa.wf = true ∧
    (machine four textAaaa [running i four textAaaa 0 8 3] []).block? 0 = some (running i four textAaaa 0 8 3) ∧
    (running i four textAaaa 0 8 3).phase = .busy ∧
    exec i (machine four textAaaa [running i four textAaaa 0 8 3] []) = .next t := by
  intro i
  cases i <;> exact ⟨_, by decide, rfl, rfl, rfl⟩

/-- Writes admitted below 0x80 only: ENC of 5 bytes to 0x7C..0x84. -/
theorem witness_UnadmittedAccessIsStuck :
    (machine eightDenied [] [ready 0 0x7C 5] []).block? 0 = some (ready 0 0x7C 5) ∧ (ready 0 0x7C 5).phase ≠ .busy ∧
    (ready 0 0x7C 5).OperandsWritten .enc ∧
    (∀ q, opVerdict .enc { eightDenied with denied := [] } [] 0 0x7C 5 ≠ .refuse q) ∧
    (∃ n, textLen eightDenied [] 0 = some n ∨ Instr.enc = .enc) ∧
    ((opSets .enc eightDenied [] 0 0x7C 5).writes.Has 0x80 ∧ ¬ eightDenied.Admits .write 0x80) ∧
    (machine eightDenied [] [ready 0 0x7C 5] []).ClearOf (opSets .enc eightDenied [] 0 0x7C 5) := by
  have hv : opVerdict .enc { eightDenied with denied := [] } [] 0 0x7C 5 = .complete := by decide
  refine ⟨rfl, by decide, by decide, not_refused hv, ⟨0, .inr rfl⟩, by decide, by decide⟩

/-- The clause for reads: DEC of `"AAAA"` at 0x7E, whose third character may not be read. -/
theorem witness_UnadmittedAccessIsStuck_read :
    (∀ q, opVerdict .dec { eightUnreadable with denied := [] } (store [] 0x7E [0x41, 0x41, 0x41, 0x41]) 0x7E 0 0 ≠
      .refuse q) ∧
    textLen eightUnreadable (store [] 0x7E [0x41, 0x41, 0x41, 0x41]) 0x7E = some 4 ∧
    ((opSets .dec eightUnreadable (store [] 0x7E [0x41, 0x41, 0x41, 0x41]) 0x7E 0 0).reads.Has 0x80 ∧
      ¬ eightUnreadable.Admits .read 0x80) ∧
    (machine eightUnreadable (store [] 0x7E [0x41, 0x41, 0x41, 0x41]) [ready 0x7E 0 0] []).ClearOf
      (opSets .dec eightUnreadable (store [] 0x7E [0x41, 0x41, 0x41, 0x41]) 0x7E 0 0) :=
  ⟨not_refused (by decide), by decide, by decide, by decide⟩

theorem witness_StuckOperationNeverFinishes :
    (machine eightDenied [] [stuckEnc eightDenied [] 0 0x7C 5] [.wait 0]).block? 0 =
      some (stuckEnc eightDenied [] 0 0x7C 5) ∧
    (stuckEnc eightDenied [] 0 0x7C 5).phase = .busy ∧ (stuckEnc eightDenied [] 0 0x7C 5).job.stuck = true ∧
    (machine eightDenied [] [stuckEnc eightDenied [] 0 0x7C 5] [.wait 0]).script.head? ≠ some (.reset 0) ∧
    (∀ x ∈ (machine eightDenied [] [stuckEnc eightDenied [] 0 0x7C 5] [.wait 0]).blocks,
      x.phase = .busy → x.job.stuck = true) ∧
    ∃ t, step (machine eightDenied [] [stuckEnc eightDenied [] 0 0x7C 5] [.wait 0]) = .next t :=
  ⟨rfl, rfl, rfl, by decide, by decide, _, rfl⟩

/-- The first and the last address of the sets of an ENC from 0..2 to 8..12, BUSY or with its DONE not read. -/
theorem witness_AgentAccessToBusyBuffers : ∀ a ∈ [0, 2, 8, 12],
    (machine four [] [unread] [.memWrite a 1]).block? 0 = some unread ∧ encSets 0 8 3 ∈ unread.unseen ∧
    (running .enc four [] 0 8 3).job.sets = encSets 0 8 3 ∧
    (machine four [] [running .enc four [] 0 8 3] [.memWrite a 1]).block? 0 = some (running .enc four [] 0 8 3) ∧
    (running .enc four [] 0 8 3).phase = .busy ∧ a < 2 ^ four.aw ∧ four.Plain a ∧
    ((running .enc four [] 0 8 3).job.sets.reads.Has a ∨ (running .enc four [] 0 8 3).job.sets.writes.Has a) := by
  decide

/-- Clause one at the top address and just after the write set of a running ENC, clause two just above the top. -/
theorem witness_PlainMemoryReadsBackWhatWasWritten :
    (Memory.wf [] = true ∧ ∀ a ∈ [13, 15], a < 2 ^ four.aw ∧ four.Plain a ∧
      ¬ (machine four [] [running .enc four [] 0 8 3, unread] [.memWrite a 7, .memRead a]).InUse a) ∧
    2 ^ four.aw ≤ 16 := by
  decide

theorem witness_ResetAbandonsTheOperation :
    textAaaa.wf = true ∧
    (machine four textAaaa [running .dec four textAaaa 0 13 0] [.reset 0]).script = .reset 0 :: [] ∧
    (machine four textAaaa [running .dec four textAaaa 0 13 0] [.reset 0]).block? 0 =
      some (running .dec four textAaaa 0 13 0) := by
  decide

/-! ### Witnesses for the whole-machine rules -/

/-- Two BUSY blocks with buffers apart: DEC of `"AAAA"` at 0 to 8..10, and VALID of the same text. -/
def twoBusy (es : List Event) : State :=
  machine four textAaaa [running .dec four textAaaa 0 8 0, running .valid four textAaaa 0 0 0] es

theorem twoBusy_cases {es : List Event} {k : Nat} {b : Block} (h : (twoBusy es).block? k = some b) :
    (k = 0 ∧ b = running .dec four textAaaa 0 8 0) ∨ (k = 1 ∧ b = running .valid four textAaaa 0 0 0) := by
  match k with
  | 0 => cases h; exact .inl ⟨rfl, rfl⟩
  | 1 => cases h; exact .inr ⟨rfl, rfl⟩
  | k + 2 => cases h

theorem decBlock_wf : (running .dec four textAaaa 0 8 0).Wf four := by constructor <;> decide

theorem validBlock_wf : (running .valid four textAaaa 0 0 0).Wf four := by constructor <;> decide

theorem decBlock_validBlock_apart : ∀ u ∈ (running .dec four textAaaa 0 8 0).held,
    ∀ w ∈ (running .valid four textAaaa 0 0 0).held, u.apart w = true := by decide

theorem validBlock_decBlock_apart : ∀ u ∈ (running .valid four textAaaa 0 0 0).held,
    ∀ w ∈ (running .dec four textAaaa 0 8 0).held, u.apart w = true := by decide

theorem twoBusy_inv (es : List Event) : (twoBusy es).Inv where
  params := (by decide : four.wf = true)
  canon := (by decide : textAaaa.wf = true)
  below := (by decide : textAaaa.Below (2 ^ four.aw))
  blocks := Nat.succ_pos 1
  each := by
    intro b hb
    simp only [twoBusy, machine, List.mem_cons, List.not_mem_nil, or_false] at hb
    obtain rfl | rfl := hb
    · exact decBlock_wf
    · exact validBlock_wf

/-- S_OP names one operation. -/
theorem runs_unique {i j : Instr} {p : Params} {m : Memory} {src dst len : Nat}
    (h : (running j p m src dst len).runs i) : i = j := by
  have h' : j.op = i.op := h
  cases i <;> cases j <;> first | rfl | exact absurd h' (by decide)

theorem twoBusy_kept (es : List Event) : (twoBusy es).BuffersKept := by
  constructor
  · intro k b i hb _ _ hr
    obtain ⟨rfl, rfl⟩ | ⟨rfl, rfl⟩ := twoBusy_cases hb
    · obtain rfl := runs_unique hr
      exact ⟨(by decide : opVerdict .dec four textAaaa 0 8 0 = .complete), rfl⟩
    · obtain rfl := runs_unique hr
      exact ⟨(by decide : opVerdict .valid four textAaaa 0 0 0 = .complete), rfl⟩
  · intro j k x y hjk hx hy
    obtain ⟨rfl, rfl⟩ | ⟨rfl, rfl⟩ := twoBusy_cases hx
    · obtain ⟨rfl, rfl⟩ | ⟨rfl, rfl⟩ := twoBusy_cases hy
      · exact absurd rfl hjk
      · exact decBlock_validBlock_apart
    · obtain ⟨rfl, rfl⟩ | ⟨rfl, rfl⟩ := twoBusy_cases hy
      · exact validBlock_decBlock_apart
      · exact absurd rfl hjk

theorem witness_EveryStepKeepsTheInvariant : ∃ t, (twoBusy [.turn 0]).Inv ∧ step (twoBusy [.turn 0]) = .next t :=
  ⟨_, twoBusy_inv _, rfl⟩

theorem witness_EveryStepKeepsTheBuffersApart :
    ∃ t, (twoBusy [.turn 0]).Inv ∧ (twoBusy [.turn 0]).BuffersKept ∧ step (twoBusy [.turn 0]) = .next t :=
  ⟨_, twoBusy_inv _, twoBusy_kept _, rfl⟩

theorem witness_StartedOperationFinishesAtItsTurn :
    (twoBusy [.turn 0]).Inv ∧ (twoBusy [.turn 0]).BuffersKept ∧ (twoBusy [.turn 0]).script = .turn 0 :: [] ∧
    (twoBusy [.turn 0]).block? 0 = some (running .dec four textAaaa 0 8 0) ∧
    (running .dec four textAaaa 0 8 0).phase = .busy ∧ (running .dec four textAaaa 0 8 0).job.stuck = false :=
  ⟨twoBusy_inv _, twoBusy_kept _, rfl, rfl, rfl, rfl⟩

/-- A step of each kind: START, FINISH, reset, and one that moves no phase. -/
theorem witness_PhasesMoveOnlyAsTabled :
    (∃ t, step (machine four [] [ready 0 0 0] [.wr 0 0 1]) = .next t) ∧ (∃ t, step (twoBusy [.turn 0]) = .next t) ∧
    (∃ t, step (twoBusy [.reset 0]) = .next t) ∧ (∃ t, step (twoBusy [.rd 0 5]) = .next t) ∧
    (machine four [] [ready 0 0 0] [.wr 0 0 1]).block? 0 = some (ready 0 0 0) ∧
    (twoBusy [.turn 0]).block? 0 = some (running .dec four textAaaa 0 8 0) :=
  ⟨⟨_, rfl⟩, ⟨_, rfl⟩, ⟨_, rfl⟩, ⟨_, rfl⟩, rfl, rfl⟩

theorem witness_RetChangesOnlyAtFinish : ∃ t, step (twoBusy [.turn 0]) = .next t ∧
    (twoBusy [.turn 0]).block? 0 = some (running .dec four textAaaa 0 8 0) :=
  ⟨_, rfl, rfl⟩

theorem witness_OperandRegistersChangeOnlyByTheHost :
    ∃ t, step (machine four [] [ready 0 0 0] [.wr 0 1 15]) = .next t ∧
    (machine four [] [ready 0 0 0] [.wr 0 1 15]).block? 0 = some (ready 0 0 0) :=
  ⟨_, rfl, rfl⟩

theorem witness_ParametersAndBlocksAreFixed : ∃ t, step (twoBusy [.reset 1]) = .next t := ⟨_, rfl⟩

/-- DEC of `"AAAA"` over a byte 0x55 at 8, which its FINISH replaces. -/
theorem witness_MemoryChangesOnlyInBusyWriteSets :
    ∃ t, (machine four [] [ready 0 0 0] [.memWrite 8 0x55]).Inv ∧
    (machine four [] [ready 0 0 0] [.memWrite 8 0x55]).BuffersKept ∧
    step (machine four [] [ready 0 0 0] [.memWrite 8 0x55]) = .next t ∧
    t.mem.read 8 ≠ (machine four [] [ready 0 0 0] [.memWrite 8 0x55]).mem.read 8 := by
  refine ⟨_, ⟨by decide, by decide, by decide, by decide, ?_⟩, ⟨?_, ?_⟩, rfl, by decide⟩
  · intro b hb
    simp only [machine, List.mem_cons, List.not_mem_nil, or_false] at hb
    subst hb
    constructor <;> decide
  · intro k b i hb hp
    match k with
    | 0 => cases hb; cases hp
    | k + 1 => cases hb
  · intro j k x y _ hx _ u hu
    match j with
    | 0 => cases hx; cases hu
    | j + 1 => cases hx

/-- Two machines that differ in LEN, in RET and in memory outside the read set. -/
theorem witness_OutcomeDependsOnlyOnOperandsAndReadSet :
    ∃ (t1 : State) (b1' : Block),
    textAaaa.wf = true ∧ (textAaaa.write 15 9).wf = true ∧
    (machine four textAaaa [running .dec four textAaaa 0 8 0] []).block? 0 =
      some (running .dec four textAaaa 0 8 0) ∧
    (machine four (textAaaa.write 15 9) [{ running .dec four textAaaa 0 8 7 with ret := 5 }] []).block? 0 =
      some { running .dec four textAaaa 0 8 7 with ret := 5 } ∧
    (∀ a, (opSets .dec four textAaaa 0 8 0).reads.Has a → textAaaa.read a = (textAaaa.write 15 9).read a) ∧
    exec .dec (machine four textAaaa [running .dec four textAaaa 0 8 0] []) = .next t1 ∧ t1.block? 0 = some b1' ∧
    b1'.phase = .done := by
  refine ⟨_, _, by decide, by decide, rfl, rfl, ?_, rfl, rfl, by decide⟩
  intro a ha
  have h5 : a < 5 := ha.2
  clear ha
  revert a
  decide

theorem witness_FinishOrderOfTwoBlocksDoesNotMatter :
    (twoBusy []).Inv ∧ (twoBusy []).BuffersKept ∧ 0 ≠ 1 ∧
    (twoBusy []).block? 0 = some (running .dec four textAaaa 0 8 0) ∧
    (twoBusy []).block? 1 = some (running .valid four textAaaa 0 0 0) ∧
    (running .dec four textAaaa 0 8 0).phase = .busy ∧ (running .valid four textAaaa 0 0 0).phase = .busy ∧
    (running .dec four textAaaa 0 8 0).job.stuck = false ∧ (running .valid four textAaaa 0 0 0).job.stuck = false :=
  ⟨twoBusy_inv _, twoBusy_kept _, by decide, rfl, rfl, rfl, rfl, rfl, rfl⟩

/-- Each of the three requests. -/
theorem witness_RequestRunsToItsResult :
    (machine four textAaaa [Block.reset] []).block? 0 = some Block.reset ∧ Block.reset.phase ≠ .busy ∧
    ∀ r ∈ [Request.valid 0, .enc 8 0 3, .dec 8 0], r.wf four = true ∧ ∃ src dst n, r.operands = (src, dst, n) ∧
      opVerdict r.instr four textAaaa src dst n = .complete ∧
      ((machine four textAaaa [Block.reset] []).select 0).ClearOf (opSets r.instr four textAaaa src dst n) := by
  refine ⟨rfl, by decide, ?_⟩
  intro r hr
  simp only [List.mem_cons, List.not_mem_nil, or_false] at hr
  obtain rfl | rfl | rfl := hr
  · exact ⟨by decide, _, _, _, rfl, by decide, by decide⟩
  · exact ⟨by decide, _, _, _, rfl, by decide, by decide⟩
  · exact ⟨by decide, _, _, _, rfl, by decide, by decide⟩

/-- The two kinds of text: one with a terminator, and bytes with none up to the top address; and two blocks that differ
in an operand DEC does not use. -/
theorem witness_EqualStartsHaveEqualOutcomes :
    (∀ a, (opSets .dec four textAaaa 0 8 0).reads.Has a ∨
      (Instr.dec ≠ .enc ∧ textLen four textAaaa 0 = none ∧ 0 ≤ a ∧ a < 2 ^ four.aw) →
      textAaaa.read a = (textAaaa.write 15 9).read a) ∧
    textLen four (store [] 12 [0x41, 0x41, 0x41, 0x41]) 12 = none ∧
    (machine four textAaaa [ready 0 8 0] []).block? 0 = some (ready 0 8 0) ∧
    (machine four (textAaaa.write 15 9) [ready 0 8 7] []).block? 0 = some (ready 0 8 7) ∧
    (ready 0 8 0).phase ≠ .busy ∧ (ready 0 8 7).phase ≠ .busy ∧ (ready 0 8 0).OperandsWritten .dec ∧
    (ready 0 8 7).OperandsWritten .dec ∧
    (machine four textAaaa [ready 0 8 0] []).ClearOf (opSets .dec four textAaaa 0 8 0) ∧
    (machine four (textAaaa.write 15 9) [ready 0 8 7] []).ClearOf (opSets .dec four textAaaa 0 8 0) := by
  refine ⟨?_, by decide, rfl, rfl, by decide, by decide, by decide, by decide, by decide, by decide⟩
  intro a ha
  have hn : textLen four textAaaa 0 = some 4 := by decide
  rcases ha with ha | ⟨-, h, -⟩
  · have h5 : a < 5 := ha.2
    clear ha
    revert a
    decide
  · rw [hn] at h
    cases h

/-- No event to come, and a WAIT on a block that is BUSY. -/
theorem witness_WaitingLetsEveryOperationFinish : ∀ es ∈ [[], [Event.wait 1]],
    (twoBusy es).Inv ∧ (twoBusy es).BuffersKept ∧
    ((twoBusy es).script = [] ∨ ∃ k rest x, (twoBusy es).script = .wait k :: rest ∧ (twoBusy es).block? k = some x ∧
      x.phase ≠ .done) ∧
    ∃ b ∈ (twoBusy es).blocks, b.phase = .busy ∧ b.job.stuck = false := by
  intro es hes
  refine ⟨twoBusy_inv _, twoBusy_kept _, ?_, _, List.mem_cons_self, rfl, rfl⟩
  simp only [List.mem_cons, List.not_mem_nil, or_false] at hes
  obtain rfl | rfl := hes
  · exact .inl rfl
  · exact .inr ⟨1, [], running .valid four textAaaa 0 0 0, rfl, rfl, by decide⟩

theorem witness_WaitEndsWhenDoneIsRead :
    (machine four [] [unread] [.wait 0]).script = .wait 0 :: [] ∧
    (machine four [] [unread] [.wait 0]).block? 0 = some unread ∧ unread.phase = .done := by
  decide

/-- The FINISH of DEC of `"AAAA"` to 5..7 replaces a byte 0x55 at 7. -/
theorem witness_BuffersStandUntilDoneIsRead :
    ∃ t, (machine four overwritten [running .dec four overwritten 0 5 0] [.turn 0]).Inv ∧
    (machine four overwritten [running .dec four overwritten 0 5 0] [.turn 0]).BuffersKept ∧
    step (machine four overwritten [running .dec four overwritten 0 5 0] [.turn 0]) = .next t ∧
    (machine four overwritten [running .dec four overwritten 0 5 0] [.turn 0]).block? 0 =
      some (running .dec four overwritten 0 5 0) ∧
    (running .dec four overwritten 0 5 0).phase = .busy ∧
    (running .dec four overwritten 0 5 0).job.sets.writes.Has 7 ∧
    t.mem.read 7 ≠ overwritten.read 7 := by
  refine ⟨_, ⟨by decide, by decide, by decide, by decide, ?_⟩, ⟨?_, ?_⟩, rfl, rfl, rfl, by decide, by decide⟩
  · intro b hb
    simp only [machine, List.mem_cons, List.not_mem_nil, or_false] at hb
    subst hb
    constructor <;> decide
  · intro k b i hb _ _ hr
    match k with
    | 0 =>
      cases hb
      obtain rfl := runs_unique hr
      exact ⟨(by decide : opVerdict .dec four overwritten 0 5 0 = .complete), rfl⟩
    | k + 1 => cases hb
  · intro j k x y hjk hx hy
    match j, k with
    | 0, 0 => exact absurd rfl hjk
    | 0, k + 1 => cases hy
    | j + 1, _ => cases hx

/-- A BUSY block, and one in DONE that has not been read, with every script of the clauses. -/
theorem witness_RegistersAreLeftAloneWhileBusy :
    ∀ es ∈ [[Event.rd 0 5], [.wr 0 1 1], [.rd 0 4], [.rd 0 0], [.rd 0 5, .rd 0 4]],
    (machine four [] [running .valid four [] 0 0 0] es).block? 0 = some (running .valid four [] 0 0 0) ∧
    (running .valid four [] 0 0 0).phase = .busy ∧ (machine four [] [unread] es).block? 0 = some unread ∧
    unread.phase = .done ∧ (machine four [] [unread] es).script = es := by
  decide

/-- A DONE that has not been read: both ends of an operand's range, and the START of each operation on `"AAAA"` at 0, ENC
of its first 3 bytes to 8..12. -/
theorem witness_DoneHoldsUntilTheNextStart :
    (machine four textAaaa [unread] []).block? 0 = some unread ∧ unread.phase = .done ∧
    (∀ v ∈ [0, 15], v < 2 ^ four.aw) ∧
    ∀ i : Instr, ∃ v, v < 2 ^ 8 ∧ decode [BitVec.ofNat 8 v] = .ok (i, []) ∧ unread.OperandsWritten i ∧
      (∀ r, opVerdict i four textAaaa 0 8 3 ≠ .refuse r) ∧
      ((machine four textAaaa [unread] []).select 0).ClearOf (opSets i four textAaaa 0 8 3) := by
  refine ⟨rfl, rfl, by decide, ?_⟩
  intro i
  have hv : opVerdict i four textAaaa 0 8 3 = .complete := by cases i <;> decide
  cases i
  · exact ⟨1, by decide, by decide, by decide, not_refused hv, by decide⟩
  · exact ⟨2, by decide, by decide, by decide, not_refused hv, by decide⟩
  · exact ⟨3, by decide, by decide, by decide, not_refused hv, by decide⟩

end Sys2Proof.Tests
end

section
/-! SUPPORT. What one step leaves unchanged, from `step_change`: the parameters, the number of blocks (R6, R199), and a
block that is stuck (R11). -/

namespace Sys2Proof.Machine

variable {s t : State}

theorem Change.params_eq (c : Change s t) : t.params = s.params := by
  cases c <;> assumption

/-- A change keeps the list of blocks or replaces one of them, so their number stays. -/
theorem Change.blocks_length (c : Change s t) : t.blocks.length = s.blocks.length := by
  cases c with
  | nothing _ _ hb | agent _ _ _ _ _ _ _ _ hb => rw [hb]
  | operand _ _ _ _ _ _ _ _ _ ht | start _ _ _ _ _ _ _ _ _ _ _ _ ht | finish _ _ _ _ _ _ _ _ _ _ _ ht
  | doneRead _ _ _ _ _ _ _ ht | reset _ _ _ _ _ _ ht => rw [ht, List.length_set]

theorem block?_eq_of_set {j k : Nat} {b' : Block} (ht : t.blocks = s.blocks.set j b') (hjk : k ≠ j) :
    t.block? k = s.block? k := by
  rw [← State.putBlock_block?_other s hjk b', State.block?, State.block?, State.putBlock_blocks, ht]

/-- A stuck operation has no FINISH and a BUSY block takes no other change but its reset (R11, R30). -/
theorem Change.stuck_block? (c : Change s t) {k : Nat} {b : Block} (hb : s.block? k = some b) (hbusy : b.phase = .busy)
    (hstuck : b.job.stuck = true) (hreset : s.script.head? ≠ some (.reset k)) : t.block? k = some b := by
  have other {j : Nat} {x x' : Block} (hx : s.block? j = some x) (hne : x ≠ b) (ht : t.blocks = s.blocks.set j x') :
      t.block? k = some b := by
    have hjk : k ≠ j := by
      rintro rfl
      exact hne (Option.some.inj (hx.symm.trans hb))
    rw [block?_eq_of_set ht hjk, hb]
  cases c with
  | nothing _ _ ht | agent _ _ _ _ _ _ _ _ ht => rwa [State.block?, ht]
  | operand j x _ _ _ hx hph _ _ ht | start j x _ _ _ _ hx hph _ _ _ _ ht =>
    exact other hx (by rintro rfl; exact hph hbusy) ht
  | finish j x _ _ hx _ _ _ hs _ _ ht => exact other hx (by rintro rfl; simp [hstuck] at hs) ht
  | doneRead j x _ _ hx hph _ ht => exact other hx (by rintro rfl; simp [hbusy] at hph) ht
  | reset j x _ hev _ _ ht =>
    have hjk : k ≠ j := by
      rintro rfl
      exact hreset hev
    rw [block?_eq_of_set ht hjk, hb]

end Sys2Proof.Machine
end

section
/-! SUPPORT. A WAIT on a stuck block (R83): it is a quiet turn, which leaves the events to come as they are. -/

namespace Sys2Proof.Machine

variable {s t : State}

theorem exec_script {i : Instr} (h : exec i s = .next t) : t.script = s.script := by
  obtain ⟨b, -, ⟨-, -, -, stuck, -, rfl⟩ | ⟨-, rfl | ⟨-, -, rfl⟩⟩⟩ := exec_change h <;> rfl

/-- The turn of a block is nothing, or the execution of some operation on it (R33). -/
theorem blockTurn_next {k : Nat} (h : blockTurn s k = .next t) : t = s ∨ ∃ i, exec i (s.select k) = .next t := by
  unfold blockTurn at h
  split at h
  · cases h
  · split at h
    · split at h
      · cases h
      · exact .inr ⟨_, h⟩
    · cases h
      exact .inl rfl

theorem blockTurn_script {k : Nat} (h : blockTurn s k = .next t) : t.script = s.script := by
  obtain rfl | ⟨i, hi⟩ := blockTurn_next h
  · rfl
  · exact exec_script (s := s.select k) hi

theorem quietTurn_script (h : quietTurn s = .next t) : t.script = s.script := by
  unfold quietTurn at h
  split at h
  · exact blockTurn_script h
  · cases h
    rfl

/-- With no FINISH to come a quiet turn changes nothing. -/
theorem quietTurn_of_none_runnable (h : ∀ x ∈ s.blocks, x.runnable = false) : quietTurn s = .next s := by
  have hnone : s.blocks.findIdx? Block.runnable = none := List.findIdx?_eq_none_iff.mpr h
  simp only [quietTurn, hnone]

theorem Block.runnable_eq_false_iff (b : Block) :
    b.runnable = false ↔ (b.phase = .busy → b.job.stuck = true) := by
  by_cases hp : b.phase = .busy <;> simp [Block.runnable, hp]

/-- The host polls a block that is BUSY and has no FINISH to come, so only another block can have its turn. -/
theorem step_wait_of_stuck {k : Nat} {b : Block} {rest : List Event} (hs : s.script = .wait k :: rest)
    (hb : s.block? k = some b) (hbusy : b.phase = .busy) (hstuck : b.job.stuck = true) : step s = quietTurn s := by
  have hrun : b.runnable = false := b.runnable_eq_false_iff.mpr fun _ => hstuck
  simp [step, hs, takeEvent, waitDone, hb, hbusy, hrun]

end Sys2Proof.Machine
end

section
/-! SUPPORT. The invariant of the state, piece by piece: each change to a block keeps it well-formed, and each change to
memory keeps its canonical form and its bound. -/

namespace Sys2Proof.Machine

variable {s t : State} {p : Params} {b : Block}

theorem Block.wf_reset (p : Params) : Block.reset.Wf p := by
  have hpos : 0 < 2 ^ p.aw := Nat.two_pow_pos _
  exact ⟨hpos, hpos, hpos, hpos, hpos, hpos, hpos, ⟨hpos, hpos, hpos⟩, nofun, nofun⟩

theorem Block.Wf.doneRead (h : b.Wf p) : b.doneRead.Wf p :=
  ⟨h.src, h.dst, h.len, h.ret, h.sSrc, h.sDst, h.sLen, h.work, h.op, h.writes⟩

theorem OperandWrite.wf {b' : Block} (hw : OperandWrite p b b') (h : b.Wf p) : b'.Wf p := by
  cases hw with
  | src v hv => exact { h with src := hv }
  | dst v hv => exact { h with dst := hv }
  | len v hv => exact { h with len := hv }

/-- START samples the operands, clears the working registers and runs an operation whose write set fits (R31, R56). -/
theorem Block.Wf.started (h : b.Wf p) (i : Instr) {j : Job}
    (hj : j.sets.writes.len = 0 ∨ j.sets.writes.lo + j.sets.writes.len ≤ 2 ^ p.aw) : (b.started i j).Wf p where
  src := h.src
  dst := h.dst
  len := h.len
  ret := h.ret
  sSrc := h.src
  sDst := by
    rw [Block.started_sDst]
    split
    · exact h.dst
    · exact h.sDst
  sLen := by
    rw [Block.started_sLen]
    split
    · exact h.len
    · exact h.sLen
  work := (Block.wf_reset p).work
  op := fun _ => Instr.op_ne_zero i
  writes := fun _ => hj

/-- FINISH leaves the operands and what was sampled, and the operation's result in RET and the working registers. -/
theorem Block.Wf.finished (h : b.Wf p) {r : Result} (hret : r.ret < 2 ^ p.aw) (hwork : r.work.Wf p) :
    (b.finished r).Wf p :=
  ⟨h.src, h.dst, h.len, hret, h.sSrc, h.sDst, h.sLen, hwork, nofun, nofun⟩

theorem State.Inv.four_le_aw (h : s.Inv) : 4 ≤ s.params.aw := by
  have hp := h.params
  simp only [Params.wf, Bool.and_eq_true, decide_eq_true_eq] at hp
  exact hp.1

theorem State.Inv.block?_wf (h : s.Inv) {k : Nat} (hb : s.block? k = some b) : b.Wf s.params :=
  h.each b (State.block?_mem s hb)

/-- A block put in place of another keeps all of them well-formed where it is so itself. -/
theorem State.Inv.wf_set (h : s.Inv) (k : Nat) {b' : Block} (hb' : b'.Wf s.params) :
    ∀ x ∈ s.blocks.set k b', x.Wf s.params := by
  intro x hx
  obtain hx | rfl := List.mem_or_eq_of_mem_set hx
  · exact h.each x hx
  · exact hb'

theorem Change.blocks_wf (c : Change s t) (h : s.Inv) : ∀ x ∈ t.blocks, x.Wf s.params := by
  cases c with
  | nothing _ _ ht | agent _ _ _ _ _ _ _ _ ht => exact ht ▸ h.each
  | operand k b b' _ _ hb _ hw _ ht => exact ht ▸ h.wf_set k (hw.wf (h.block?_wf hb))
  | start k b i stuck _ _ hb _ _ _ _ hv ht =>
    have hfit := opSets_writes_fit (i := i) (p := s.params) (m := s.mem) (src := b.src.value) (dst := b.dst.value)
      (len := b.len.value) (by rw [hv]; cases stuck <;> nofun)
    exact ht ▸ h.wf_set k ((h.block?_wf hb).started i hfit)
  | finish k b i _ hb _ _ _ _ hv _ ht =>
    have hwf := h.block?_wf hb
    obtain ⟨-, -, hret, hwork, -⟩ := opResult_frame h.four_le_aw h.canon h.below hwf.sLen hv
    exact ht ▸ h.wf_set k (hwf.finished hret hwork)
  | doneRead k b _ _ hb _ _ ht => exact ht ▸ h.wf_set k (h.block?_wf hb).doneRead
  | reset k b _ _ _ _ ht => exact ht ▸ h.wf_set k (Block.wf_reset s.params)

theorem Change.mem_wf_below (c : Change s t) (h : s.Inv) : t.mem.wf = true ∧ t.mem.Below (2 ^ s.params.aw) := by
  cases c with
  | nothing _ hm | operand _ _ _ _ hm | start _ _ _ _ _ hm | doneRead _ _ _ hm => exact hm ▸ ⟨h.canon, h.below⟩
  | finish k b i _ hb _ _ _ _ hv hm =>
    obtain ⟨hcanon, hbelow, -⟩ := opResult_frame h.four_le_aw h.canon h.below (h.block?_wf hb).sLen hv
    exact hm ▸ ⟨hcanon, hbelow⟩
  | agent a v _ _ ha _ _ hm => exact hm ▸ ⟨Memory.wf_write h.canon a v, Memory.below_write h.below ha v⟩
  | reset k b _ _ hb hm =>
    rw [hm]
    split
    · rename_i hbusy
      exact ⟨Memory.wf_scramble h.canon _ _ _, Memory.below_scramble h.below _ _ ((h.block?_wf hb).writes hbusy)⟩
    · exact ⟨h.canon, h.below⟩

end Sys2Proof.Machine
end

section
/-! PROOFS. The rules of every step from 00_scope.md. -/

namespace Sys2Proof.Machine

/-- Settles O40: the parameters do not move, and the changes of `step_change` keep memory and every block well-formed. -/
theorem everyStepKeepsTheInvariant : Obligations.EveryStepKeepsTheInvariant := by
  intro s t h hstep
  have c := step_change hstep
  obtain ⟨hcanon, hbelow⟩ := c.mem_wf_below h
  exact {
    params := c.params_eq ▸ h.params
    canon := hcanon
    below := c.params_eq ▸ hbelow
    blocks := c.blocks_length ▸ h.blocks
    each := c.params_eq ▸ c.blocks_wf h }

/-- Settles O35: no change but its reset reaches a stuck block, and a WAIT on it is a quiet turn (log 6), which keeps the
WAIT as the next event and does nothing where no block has a FINISH to come. -/
theorem stuckOperationNeverFinishes : Obligations.StuckOperationNeverFinishes := by
  refine ⟨?kept, ?waits, ?idles⟩
  case kept =>
    intro s t k b hb hbusy hstuck hreset hstep
    exact (step_change hstep).stuck_block? hb hbusy hstuck hreset
  case waits =>
    intro s t k b rest hs hb hbusy hstuck hstep
    rw [step_wait_of_stuck hs hb hbusy hstuck] at hstep
    rw [quietTurn_script hstep, hs]
  case idles =>
    intro s k b rest hs hb hbusy hstuck hall
    rw [step_wait_of_stuck hs hb hbusy hstuck]
    exact quietTurn_of_none_runnable fun x hx => x.runnable_eq_false_iff.mpr (hall x hx)

/-- Settles O46: each change of `step_change` keeps the parameters and replaces at most one block. -/
theorem parametersAndBlocksAreFixed : Obligations.ParametersAndBlocksAreFixed := by
  intro s t hstep
  have c := step_change hstep
  exact ⟨c.params_eq, c.blocks_length⟩

end Sys2Proof.Machine
end

section
/-! SUPPORT. A START whose operands are written, with no buffers in the way: refused by the verdict of its rule, or BUSY
(R31, R11). -/

namespace Sys2Proof.Machine

variable {i : Instr} {s : State} {b : Block}

/-- A verdict is a refusal, or starts the operation, stuck or not (R11). -/
theorem Verdict.refuse_or_starts (v : Verdict) :
    (∃ r, v = .refuse r) ∨ ∃ stuck : Bool, v = if stuck then .stuck else .complete := by
  cases v with
  | complete => exact .inr ⟨false, rfl⟩
  | stuck => exact .inr ⟨true, rfl⟩
  | refuse r => exact .inl ⟨r, rfl⟩

theorem exec_started (hb : s.block? s.sel = some b) (hp : b.phase ≠ .busy) (hw : b.OperandsWritten i) {stuck : Bool}
    (hv : opVerdict i s.params s.mem b.src.value b.dst.value b.len.value = if stuck then .stuck else .complete)
    (hc : s.ClearOf (opSets i s.params s.mem b.src.value b.dst.value b.len.value)) :
    exec i s = .next (s.putBlock s.sel
      (b.started i ⟨opSets i s.params s.mem b.src.value b.dst.value b.len.value, stuck⟩)) := by
  rw [exec_start hb hp, startOperation_eq hw hc stuck hv]

theorem exec_refused (hb : s.block? s.sel = some b) (hp : b.phase ≠ .busy) (hw : b.OperandsWritten i) {r : Refusal}
    (hv : opVerdict i s.params s.mem b.src.value b.dst.value b.len.value = .refuse r) : exec i s = .refused r := by
  rw [exec_start hb hp, hv, startOperation, if_neg (not_not.mpr hw)]

/-- An operation that is not refused starts, with the sets of its rule (R31). -/
theorem exec_started_of_not_refused (hb : s.block? s.sel = some b) (hp : b.phase ≠ .busy) (hw : b.OperandsWritten i)
    (hv : ∀ r, opVerdict i s.params s.mem b.src.value b.dst.value b.len.value ≠ .refuse r)
    (hc : s.ClearOf (opSets i s.params s.mem b.src.value b.dst.value b.len.value)) :
    ∃ j : Job, exec i s = .next (s.putBlock s.sel (b.started i j)) := by
  obtain ⟨r, hr⟩ | ⟨stuck, hstuck⟩ := Verdict.refuse_or_starts
    (opVerdict i s.params s.mem b.src.value b.dst.value b.len.value)
  · exact absurd hr (hv r)
  · exact ⟨_, exec_started hb hp hw hstuck hc⟩

end Sys2Proof.Machine
end

section
/-! SUPPORT. A step on a host access to a register, register by register and phase by phase (R20, R39). -/

namespace Sys2Proof.Machine

variable {s : State} {k reg v : Nat} {rest : List Event} {b : Block} {i : Instr}

/-! ### Which action the next event is -/

theorem step_wr (hs : s.script = .wr k reg v :: rest) : step s = hostWrite (s.setScript rest) k reg v := by
  simp only [step, hs, takeEvent]

theorem step_rd (hs : s.script = .rd k reg :: rest) : step s = hostRead (s.setScript rest) k reg := by
  simp only [step, hs, takeEvent]

theorem step_turn (hs : s.script = .turn k :: rest) : step s = blockTurn (s.setScript rest) k := by
  simp only [step, hs, takeEvent]

theorem step_quiet (hs : s.script = []) : step s = quietTurn s := by
  simp only [step, hs]

/-- The host polls a block whose FINISH is still to come, which therefore has its turn. -/
theorem step_wait_of_runnable (hs : s.script = .wait k :: rest) (hb : s.block? k = some b) (hbusy : b.phase = .busy)
    (hstuck : b.job.stuck = false) : step s = blockTurn s k := by
  simp [step, hs, takeEvent, waitDone, hb, hbusy, Block.runnable, hstuck]

/-- The host polls an IDLE block, so only another block can have its turn. -/
theorem step_wait_of_idle (hs : s.script = .wait k :: rest) (hb : s.block? k = some b) (hidle : b.phase = .idle) :
    step s = quietTurn s := by
  simp [step, hs, takeEvent, waitDone, hb, hidle, Block.runnable]

/-- A quiet turn is that of the lowest-numbered block whose FINISH is still to come. -/
theorem quietTurn_eq_blockTurn (hb : s.block? k = some b) (hrun : b.runnable = true)
    (hleast : ∀ j x, j < k → s.block? j = some x → x.runnable = false) : quietTurn s = blockTurn s k := by
  obtain ⟨hk, hget⟩ := List.getElem?_eq_some_iff.mp hb
  have hfirst : s.blocks.findIdx? Block.runnable = some k := by
    refine List.findIdx?_eq_some_iff_getElem.mpr ⟨hk, hget ▸ hrun, fun j hj => ?_⟩
    exact Bool.not_eq_true _ ▸ hleast j _ hj (List.getElem?_eq_getElem (hj.trans hk))
  simp only [quietTurn, hfirst]

/-! ### STATUS -/

@[simp] theorem Phase.status_idle : Phase.idle.status = 0x00 := by decide

@[simp] theorem Phase.status_busy : Phase.busy.status = 0x01 := by decide

@[simp] theorem Phase.status_done : Phase.done.status = 0x02 := by decide

/-! ### Writes -/

theorem Register.ofNumber_eq_none (h : 6 ≤ reg) : Register.ofNumber reg = none := by
  obtain ⟨n, rfl⟩ := Nat.exists_eq_add_of_le' h
  rfl

theorem hostWrite_cmd (hb : s.block? k = some b) : hostWrite s k 0 v = writeCommand s k b v := by
  simp only [hostWrite, hb, Register.ofNumber]

theorem hostWrite_src (hb : s.block? k = some b) :
    hostWrite s k 1 v = writeOperand s k b v fun b r => { b with src := r } := by
  simp only [hostWrite, hb, Register.ofNumber]

theorem hostWrite_dst (hb : s.block? k = some b) :
    hostWrite s k 2 v = writeOperand s k b v fun b r => { b with dst := r } := by
  simp only [hostWrite, hb, Register.ofNumber]

theorem hostWrite_len (hb : s.block? k = some b) :
    hostWrite s k 3 v = writeOperand s k b v fun b r => { b with len := r } := by
  simp only [hostWrite, hb, Register.ofNumber]

theorem hostWrite_ret (hb : s.block? k = some b) : hostWrite s k 4 v = .refused .readOnlyRegister := by
  simp only [hostWrite, hb, Register.ofNumber]

theorem hostWrite_status (hb : s.block? k = some b) : hostWrite s k 5 v = .refused .readOnlyRegister := by
  simp only [hostWrite, hb, Register.ofNumber]

theorem hostWrite_absent (hb : s.block? k = some b) (h : 6 ≤ reg) :
    hostWrite s k reg v = .refused .noSuchRegister := by
  simp only [hostWrite, hb, Register.ofNumber_eq_none h]

theorem writeOperand_eq (hp : b.phase ≠ .busy) (hv : v < 2 ^ s.params.aw) (put : Block → OperandReg → Block) :
    writeOperand s k b v put = .next (s.putBlock k (put b ⟨v, true⟩)) := by
  rw [writeOperand, hostMayWrite_eq hp, if_pos hv]

theorem writeCommand_eq (hp : b.phase ≠ .busy) (hv : v < 2 ^ 8) (hd : decodeByte (BitVec.ofNat 8 v) = .ok i) :
    writeCommand s k b v = exec i (s.select k) := by
  simp only [writeCommand, if_neg (not_not.mpr hv), hd, hostMayWrite_eq hp]

/-- A byte that decodes with nothing left over decodes as a single byte (R80). -/
theorem decodeByte_of_decode {c : Byte} (h : decode [c] = .ok (i, [])) : decodeByte c = .ok i := by
  cases hd : decodeByte c with
  | ok j => simpa [decode, hd] using h
  | error e => simp [decode, hd] at h

section OperandWrites

variable (hb : s.block? k = some b) (hp : b.phase ≠ .busy) (hv : v < 2 ^ s.params.aw)
include hb hp hv

theorem step_wr_src (hs : s.script = .wr k 1 v :: rest) :
    step s = .next ((s.setScript rest).putBlock k { b with src := ⟨v, true⟩ }) := by
  rw [step_wr hs, hostWrite_src (s := s.setScript rest) hb]
  exact writeOperand_eq (s := s.setScript rest) hp hv _

theorem step_wr_dst (hs : s.script = .wr k 2 v :: rest) :
    step s = .next ((s.setScript rest).putBlock k { b with dst := ⟨v, true⟩ }) := by
  rw [step_wr hs, hostWrite_dst (s := s.setScript rest) hb]
  exact writeOperand_eq (s := s.setScript rest) hp hv _

theorem step_wr_len (hs : s.script = .wr k 3 v :: rest) :
    step s = .next ((s.setScript rest).putBlock k { b with len := ⟨v, true⟩ }) := by
  rw [step_wr hs, hostWrite_len (s := s.setScript rest) hb]
  exact writeOperand_eq (s := s.setScript rest) hp hv _

/-- A host write of an operand register outside BUSY leaves the phase and RET (R22 to R24). -/
theorem step_wr_operand (hlo : 1 ≤ reg) (hhi : reg ≤ 3) (hs : s.script = .wr k reg v :: rest) :
    ∃ b', step s = .next ((s.setScript rest).putBlock k b') ∧ b'.phase = b.phase ∧ b'.ret = b.ret := by
  obtain rfl | rfl | rfl : reg = 1 ∨ reg = 2 ∨ reg = 3 := by omega
  · exact ⟨_, step_wr_src hb hp hv hs, rfl, rfl⟩
  · exact ⟨_, step_wr_dst hb hp hv hs, rfl, rfl⟩
  · exact ⟨_, step_wr_len hb hp hv hs, rfl, rfl⟩

end OperandWrites

/-- While BUSY every host write is refused (R32). -/
theorem hostWrite_refused_of_busy (hb : s.block? k = some b) (hbusy : b.phase = .busy) (reg v : Nat) :
    ∃ r, hostWrite s k reg v = .refused r := by
  have operand (put : Block → OperandReg → Block) : ∃ r, writeOperand s k b v put = .refused r :=
    ⟨_, hostMayWrite_refused hbusy _⟩
  match reg with
  | 0 =>
    rw [hostWrite_cmd hb, writeCommand]
    split
    · exact ⟨_, rfl⟩
    · split
      · exact ⟨_, rfl⟩
      · exact ⟨_, hostMayWrite_refused hbusy _⟩
  | 1 => exact hostWrite_src hb ▸ operand _
  | 2 => exact hostWrite_dst hb ▸ operand _
  | 3 => exact hostWrite_len hb ▸ operand _
  | 4 => exact ⟨_, hostWrite_ret hb⟩
  | 5 => exact ⟨_, hostWrite_status hb⟩
  | n + 6 => exact ⟨_, hostWrite_absent hb (Nat.le_add_left 6 n)⟩

/-! ### Reads -/

theorem hostRead_cmd (hb : s.block? k = some b) : hostRead s k 0 = readAnyByte s k .cmd := by
  simp only [hostRead, hb, Register.ofNumber]

theorem hostRead_src (hb : s.block? k = some b) : hostRead s k 1 = readOperand s k .src b.src := by
  simp only [hostRead, hb, Register.ofNumber]

theorem hostRead_dst (hb : s.block? k = some b) : hostRead s k 2 = readOperand s k .dst b.dst := by
  simp only [hostRead, hb, Register.ofNumber]

theorem hostRead_len (hb : s.block? k = some b) : hostRead s k 3 = readOperand s k .len b.len := by
  simp only [hostRead, hb, Register.ofNumber]

theorem hostRead_ret (hb : s.block? k = some b) : hostRead s k 4 = readRet s k b := by
  simp only [hostRead, hb, Register.ofNumber]

theorem hostRead_status (hb : s.block? k = some b) : hostRead s k 5 = readStatus s k b := by
  simp only [hostRead, hb, Register.ofNumber]

theorem hostRead_absent (hb : s.block? k = some b) (h : 6 ≤ reg) : hostRead s k reg = .refused .noSuchRegister := by
  simp only [hostRead, hb, Register.ofNumber_eq_none h]

theorem readOperand_written {x : OperandReg} (r : Register) (h : x.written = true) :
    readOperand s k r x = .next (s.observe (.reg k r x.value)) := if_pos h

theorem readOperand_unwritten {x : OperandReg} (r : Register) (h : x.written = false) :
    readOperand s k r x =
      .next ((s.observe (.reg k r (Config.freeWord s.params.aw s.draws).toNat)).draw 1) :=
  if_neg (by simp [h])

theorem readRet_done (h : b.phase = .done) : readRet s k b = .next (s.observe (.reg k .ret b.ret)) := if_pos h

theorem readRet_of_not_done (h : b.phase ≠ .done) :
    readRet s k b =
      .next ((s.observe (.reg k .ret (Config.freeWord s.params.aw s.draws).toNat)).draw 1) := if_neg h

theorem readStatus_idle (h : b.phase = .idle) : readStatus s k b = .next (s.observe (.reg k .status 0x00)) := by
  rw [readStatus, h]
  rfl

theorem readStatus_busy (h : b.phase = .busy) : readStatus s k b = .next (s.observe (.reg k .status 0x01)) := by
  rw [readStatus, h]
  rfl

/-- A STATUS read that shows DONE = 1 ends the duty of R224. -/
theorem readStatus_done (h : b.phase = .done) :
    readStatus s k b = .next ((s.observe (.reg k .status 0x02)).putBlock k b.doneRead) := by
  rw [readStatus, h]
  rfl

/-- A step that goes on, followed by `n` more. -/
theorem steps_succ {t : State} (n : Nat) (h : step s = .next t) : steps (n + 1) s = steps n t := by
  simp only [steps, h]

section DoneReads

variable (hb : s.block? k = some b) (hdone : b.phase = .done)
include hb hdone

theorem step_rd_ret_of_done (hs : s.script = .rd k 4 :: rest) :
    step s = .next ((s.setScript rest).observe (.reg k .ret b.ret)) := by
  rw [step_rd hs, hostRead_ret (s := s.setScript rest) hb, readRet_done hdone]

theorem step_rd_status_of_done (hs : s.script = .rd k 5 :: rest) :
    step s = .next (((s.setScript rest).observe (.reg k .status 0x02)).putBlock k b.doneRead) := by
  rw [step_rd hs, hostRead_status (s := s.setScript rest) hb, readStatus_done hdone]

/-- The host reads RET and then STATUS of a block in DONE (R39). -/
theorem steps_rd_ret_status_of_done (hs : s.script = .rd k 4 :: .rd k 5 :: rest) :
    ∃ t : State, steps 2 s = .next t ∧ t.script = rest ∧ t.mem = s.mem ∧ t.block? k = some b.doneRead ∧
      t.seen = .reg k .status 0x02 :: .reg k .ret b.ret :: s.seen := by
  have hstatus := step_rd_status_of_done (s := (s.setScript (.rd k 5 :: rest)).observe (.reg k .ret b.ret)) hb hdone rfl
  exact ⟨_, (steps_succ 1 (step_rd_ret_of_done hb hdone hs)).trans (steps_succ 0 hstatus), rfl, rfl,
    State.putBlock_block?_same s hb _, rfl⟩

end DoneReads

end Sys2Proof.Machine
end

section
/-! SUPPORT. What one step can do to one block (R30), from `step_change`. -/

namespace Sys2Proof.Machine

/-- The change from `b` to `b'` that a step from `s` makes to block `k`: none; an operand register written; a START; a
FINISH; DONE read by the host; a reset. -/
inductive BlockChange (s : State) (k : Nat) (b : Block) : Block → Prop where
  | kept : BlockChange s k b b
  | operand (b' : Block) (hph : b.phase ≠ .busy) (hw : OperandWrite s.params b b')
      (hev : ∃ reg v, s.script.head? = some (.wr k reg v)) : BlockChange s k b b'
  | started (i : Instr) (j : Job) (hph : b.phase ≠ .busy) (hev : ∃ v, s.script.head? = some (.wr k 0 v)) :
      BlockChange s k b (b.started i j)
  | finished (r : Result) (hph : b.phase = .busy) (hev : s.MayFinish k) : BlockChange s k b (b.finished r)
  | doneRead (hph : b.phase = .done) : BlockChange s k b b.doneRead
  | reset (hev : s.script.head? = some (.reset k)) : BlockChange s k b .reset

variable {s t : State} {k : Nat} {b : Block}

/-- A block put in place of block `j` is block `j` afterwards, and no other block. -/
theorem block?_of_set {j : Nat} {x x' : Block} (ht : t.blocks = s.blocks.set j x') (hx : s.block? j = some x)
    (hb : s.block? k = some b) : (j = k ∧ x = b ∧ t.block? k = some x') ∨ t.block? k = some b := by
  by_cases hjk : k = j
  · subst hjk
    have hset : t.block? k = (s.putBlock k x').block? k := by
      rw [State.block?, State.block?, State.putBlock_blocks, ht]
    exact .inl ⟨rfl, Option.some.inj (hx.symm.trans hb), hset.trans (State.putBlock_block?_same s hx x')⟩
  · exact .inr ((block?_eq_of_set ht hjk).trans hb)

theorem Change.blockChange (c : Change s t) (hb : s.block? k = some b) :
    ∃ b', t.block? k = some b' ∧ BlockChange s k b b' := by
  have replaced {j : Nat} {x x' : Block} (hx : s.block? j = some x) (ht : t.blocks = s.blocks.set j x')
      (hc : BlockChange s j x x') : ∃ b', t.block? k = some b' ∧ BlockChange s k b b' := by
    obtain ⟨rfl, rfl, h⟩ | h := block?_of_set ht hx hb
    · exact ⟨x', h, hc⟩
    · exact ⟨b, h, .kept⟩
  cases c with
  | nothing _ _ ht | agent _ _ _ _ _ _ _ _ ht => exact ⟨b, by rwa [State.block?, ht], .kept⟩
  | operand j x x' _ _ hx hph hw hev ht => exact replaced hx ht (.operand x' hph hw hev)
  | start j x i stuck _ _ hx hph _ hev _ _ ht => exact replaced hx ht (.started i _ hph hev)
  | finish j x i _ hx hph hev _ _ _ _ ht => exact replaced hx ht (.finished _ hph hev)
  | doneRead j x _ _ hx hph _ ht => exact replaced hx ht (.doneRead hph)
  | reset j x _ hev hx _ ht => exact replaced hx ht (.reset hev)

theorem step_blockChange (h : step s = .next t) (hb : s.block? k = some b) :
    ∃ b', t.block? k = some b' ∧ BlockChange s k b b' :=
  (step_change h).blockChange hb

/-- An operand write leaves the phase and RET (R22 to R24). -/
theorem OperandWrite.phase_ret {p : Params} {b' : Block} (h : OperandWrite p b b') :
    b'.phase = b.phase ∧ b'.ret = b.ret := by
  cases h <;> exact ⟨rfl, rfl⟩

end Sys2Proof.Machine
end

section
/-! SUPPORT. Two memories that agree on what an operation reads (R35): the same text there, the same outcome and access
sets, and the same bytes written and the same registers left by its loops. -/

namespace Sys2Proof.Machine

variable {p : Params} {m m' : Memory} {src dst n : Nat}

/-! ### Texts and outcomes -/

theorem scanText_congr {f a : Nat} (h : ∀ x, a ≤ x → x < a + f → m'.read x = m.read x) :
    scanText m' f a = scanText m f a := by
  induction f generalizing a with
  | zero => rfl
  | succ f ih =>
    rw [scanText, scanText, h a (Nat.le_refl a) (by omega), ih fun x hlo hhi => h x (by omega) (by omega)]

/-- The bytes that decide where the text at `a` ends, and which text it is: the text and its terminator (R54), and
where there is no terminator every byte up to the top address (R52). -/
def DecidesText (p : Params) (m : Memory) (a x : Nat) : Prop :=
  (textRange p m a).Has x ∨ (textLen p m a = none ∧ a ≤ x ∧ x < 2 ^ p.aw)

theorem textLen_eq_of_agree (h : ∀ x, DecidesText p m src x → m'.read x = m.read x) :
    textLen p m' src = textLen p m src := by
  cases hn : textLen p m src with
  | some n => exact textLen_congr hn fun x hx => h x (.inl (by simpa only [textRange, hn] using hx))
  | none => exact (scanText_congr fun x hlo hhi => h x (.inr ⟨hn, hlo, by omega⟩)).trans hn

theorem bytes_eq_of_agree (h : ∀ x, DecidesText p m src x → m'.read x = m.read x) (hn : textLen p m src = some n) :
    m'.bytes src n = m.bytes src n := by
  refine Memory.bytes_congr fun x hx => h x (.inl ?_)
  simp only [textRange, hn, Range.Has] at hx ⊢
  omega

theorem validVerdict_eq_of_agree (h : ∀ x, DecidesText p m src x → m'.read x = m.read x) :
    validVerdict p m' src = validVerdict p m src ∧ validSets p m' src = validSets p m src := by
  have hsets : validSets p m' src = validSets p m src := by
    simp only [validSets, textRange, textLen_eq_of_agree h]
  exact ⟨by simp only [validVerdict, textLen_eq_of_agree h, hsets], hsets⟩

theorem decVerdict_eq_of_agree (h : ∀ x, DecidesText p m src x → m'.read x = m.read x) :
    decVerdict p m' src dst = decVerdict p m src dst ∧ decSets p m' src dst = decSets p m src dst := by
  have hlen := textLen_eq_of_agree h
  cases hn : textLen p m src with
  | none => simp only [decVerdict, decSets, textRange, hlen, hn, and_self]
  | some n =>
    have hbytes := bytes_eq_of_agree h hn
    have hsets : decSets p m' src dst = decSets p m src dst := by simp only [decSets, textRange, hlen, hn, hbytes]
    exact ⟨by simp only [decVerdict, hlen, hn, hbytes, hsets], hsets⟩

/-! ### The loops of ENC -/

theorem groupAt_congr {a : Nat} (h : ∀ x, a ≤ x → x < a + 3 → m'.read x = m.read x) :
    groupAt m' a = groupAt m a := by
  simp only [groupAt]
  rw [h a (by omega) (by omega), h (a + 1) (by omega) (by omega), h (a + 2) (by omega) (by omega)]

/-- The same group written in two memories: they agree on its four addresses and wherever they did before. -/
theorem encGroup_congr (h : m.wf = true) (h' : m'.wf = true) (a : Nat) (g : Group) (chars : Nat) {x : Nat}
    (hx : m'.read x = m.read x ∨ (a ≤ x ∧ x < a + 4)) :
    (encGroup m' a g chars).read x = (encGroup m a g chars).read x := by
  rw [encGroup_read h, encGroup_read h']
  split
  · rfl
  · exact hx.resolve_right ‹_›

/-- The loop over full groups leaves the same registers in two memories that agree on what it reads, and the memories
agree on what it writes and wherever they did before. -/
theorem encLoop_congr (k : Nat) (h : m.wf = true) (h' : m'.wf = true) (w : Work)
    (hr : ∀ x, src + w.ipos ≤ x → x < src + w.ipos + 3 * k → m'.read x = m.read x) :
    (encLoop src dst k m' w).2 = (encLoop src dst k m w).2 ∧
      ∀ x, m'.read x = m.read x ∨ (dst + w.opos ≤ x ∧ x < dst + w.opos + 4 * k) →
        (encLoop src dst k m' w).1.read x = (encLoop src dst k m w).1.read x := by
  induction k generalizing m m' w with
  | zero => exact ⟨rfl, fun x hx => hx.resolve_right (by omega)⟩
  | succ k ih =>
    have hg : groupAt m' (src + w.ipos) = groupAt m (src + w.ipos) :=
      groupAt_congr fun x hlo hhi => hr x hlo (by omega)
    simp only [encLoop, hg]
    have agree {x : Nat} := encGroup_congr h h' (dst + w.opos) (groupAt m (src + w.ipos)) 4 (x := x)
    obtain ⟨hwork, hmem⟩ := ih (encGroup_wf h _ _ _) (encGroup_wf h' _ _ _)
      { w with acc := groupAt m (src + w.ipos), ipos := w.ipos + 3, opos := w.opos + 4 }
      (fun x hlo hhi => agree (.inl (hr x (by simp only at hlo; omega) (by simp only at hhi; omega))))
    refine ⟨hwork, fun x hx => hmem x ?_⟩
    by_cases hin : dst + w.opos ≤ x ∧ x < dst + w.opos + 4
    · exact .inl (agree (.inr hin))
    · refine hx.imp (fun hx => agree (.inl hx)) fun hx => ?_
      simp only
      omega

/-- The partial group, as `encLoop_congr` has the full ones. -/
theorem encTail_congr {r : Nat} (hlt : r < 3) (h : m.wf = true) (h' : m'.wf = true) (w : Work)
    (hr : ∀ x, src + w.ipos ≤ x → x < src + w.ipos + r → m'.read x = m.read x) :
    (encTail src dst r m' w).2 = (encTail src dst r m w).2 ∧
      ∀ x, m'.read x = m.read x ∨ (dst + w.opos ≤ x ∧ x < dst + (encTail src dst r m w).2.opos) →
        (encTail src dst r m' w).1.read x = (encTail src dst r m w).1.read x := by
  rw [encTail_eq _ _ _ _ _ hlt, encTail_eq _ _ _ _ _ hlt]
  by_cases h0 : r = 0
  · simp only [if_pos h0]
    exact ⟨trivial, fun x hx => hx.resolve_right (by omega)⟩
  · have hg : tailGroup m' (src + w.ipos) r = tailGroup m (src + w.ipos) r := by
      simp only [tailGroup]
      rw [hr _ (by omega) (by omega)]
      split
      · rfl
      · rw [hr _ (by omega) (by omega)]
    simp only [if_neg h0, hg]
    exact ⟨trivial, fun x hx => encGroup_congr h h' _ _ _ (hx.imp_right fun hx => by omega)⟩

theorem encTail_wf {r : Nat} (hlt : r < 3) (h : m.wf = true) (w : Work) : (encTail src dst r m w).1.wf = true := by
  rw [encTail_eq _ _ _ _ _ hlt]
  split
  · exact h
  · exact encGroup_wf h _ _ _

/-- ENC on two memories that agree on its read set: the same RET and the same bytes in its write set (R35). -/
theorem encResult_congr (h : m.wf = true) (h' : m'.wf = true)
    (hr : ∀ x, (encSets src dst n).reads.Has x → m'.read x = m.read x) :
    (encResult m' src dst n).ret = (encResult m src dst n).ret ∧
      ∀ x, (encSets src dst n).writes.Has x →
        (encResult m' src dst n).mem.read x = (encResult m src dst n).mem.read x := by
  obtain ⟨-, hopos, -, hret, -⟩ := encResult_frame h src dst n
  obtain ⟨-, -, -, hret', -⟩ := encResult_frame h' src dst n
  refine ⟨hret'.trans hret.symm, fun x hx => ?_⟩
  simp only [encSets, Range.Has] at hr hx
  obtain ⟨hipos, hloop, -⟩ := encLoop_work src dst (n / 3) m .clear
  obtain ⟨hwork, hfull⟩ := encLoop_congr (src := src) (dst := dst) (n / 3) h h' .clear
    (fun x hlo hhi => hr x (by simp only [Work.clear_ipos] at hlo hhi; omega))
  have hwf := encLoop_wf src dst (n / 3) h .clear
  have hwf' := encLoop_wf src dst (n / 3) h' .clear
  simp only [encResult] at hopos ⊢
  simp only [Work.clear_ipos, Work.clear_opos, Nat.zero_add, Nat.add_zero] at hipos hloop hfull
  generalize encLoop src dst (n / 3) m .clear = full at *
  generalize encLoop src dst (n / 3) m' .clear = full' at *
  have hlt : n - full.2.ipos < 3 := by omega
  obtain ⟨htail, hmem⟩ := encTail_congr (src := src) (dst := dst) hlt hwf hwf' full.2
    (fun x hlo hhi => hfull x (.inl (hr x (by omega))))
  rw [hwork, htail, Memory.read_write (encTail_wf hlt hwf _), Memory.read_write (encTail_wf hlt hwf' _)]
  split
  · rfl
  · refine hmem x ?_
    by_cases hin : dst ≤ x ∧ x < dst + 4 * (n / 3)
    · exact .inl (hfull x (.inr hin))
    · exact .inr (by omega)

/-! ### The loop of DEC -/

theorem sextetsAt_congr {a : Nat} (h : ∀ x, a ≤ x → x < a + 4 → m'.read x = m.read x) :
    sextetsAt m' a = sextetsAt m a := by
  simp only [sextetsAt]
  rw [h a (by omega) (by omega), h (a + 1) (by omega) (by omega), h (a + 2) (by omega) (by omega),
    h (a + 3) (by omega) (by omega)]

/-- The same group decoded in two memories: the same registers, and the memories agree on the bytes it yields and
wherever they did before. -/
theorem decGroup_congr (h : m.wf = true) (h' : m'.wf = true) (w : Work)
    (hr : ∀ x, src + w.ipos ≤ x → x < src + w.ipos + 4 → m'.read x = m.read x) :
    (decGroup src dst m' w).2 = (decGroup src dst m w).2 ∧
      ∀ x, m'.read x = m.read x ∨ (dst + w.opos ≤ x ∧ x < dst + (decGroup src dst m w).2.opos) →
        (decGroup src dst m' w).1.read x = (decGroup src dst m w).1.read x := by
  have hs : sextetsAt m' (src + w.ipos) = sextetsAt m (src + w.ipos) := sextetsAt_congr hr
  have h2 := hr (src + w.ipos + 2) (by omega) (by omega)
  have h3 := hr (src + w.ipos + 3) (by omega) (by omega)
  have hy : groupYield m' (src + w.ipos) = groupYield m (src + w.ipos) := by simp only [groupYield, h2, h3]
  constructor
  · simp only [decGroup, hs, h2, h3]
    split
    · rfl
    · split <;> rfl
  · intro x hx
    rw [decGroup_opos] at hx
    rw [decGroup_read src dst h, decGroup_read src dst h', hs, hy]
    split
    · rfl
    · exact hx.resolve_right (by omega)

/-- The loop of DEC leaves the same registers in two memories that agree on what it reads, and the memories agree on
what it writes and wherever they did before. -/
theorem decLoop_congr (k : Nat) (h : m.wf = true) (h' : m'.wf = true) (w : Work)
    (hr : ∀ x, src + w.ipos ≤ x → x < src + w.ipos + 4 * k → m'.read x = m.read x) :
    (decLoop src dst k m' w).2 = (decLoop src dst k m w).2 ∧
      ∀ x, m'.read x = m.read x ∨ (dst + w.opos ≤ x ∧ x < dst + (decLoop src dst k m w).2.opos) →
        (decLoop src dst k m' w).1.read x = (decLoop src dst k m w).1.read x := by
  induction k generalizing m m' w with
  | zero => exact ⟨rfl, fun x hx => hx.resolve_right (by simp only [decLoop]; omega)⟩
  | succ k ih =>
    simp only [decLoop, hr (src + w.ipos) (by omega) (by omega)]
    by_cases h0 : m.read (src + w.ipos) = NUL
    · simp only [if_pos h0]
      exact ⟨trivial, fun x hx => hx.resolve_right (by omega)⟩
    · simp only [if_neg h0]
      obtain ⟨hgroup, agree⟩ := decGroup_congr (dst := dst) h h' w fun x hlo hhi => hr x hlo (by omega)
      have hipos := decGroup_ipos src dst m w
      obtain ⟨hwork, hmem⟩ := ih (decGroup_wf src dst h w) (decGroup_wf src dst h' w) (decGroup src dst m w).2
        (fun x hlo hhi => agree x (.inl (hr x (by omega) (by omega))))
      rw [hgroup]
      refine ⟨hwork, fun x hx => hmem x ?_⟩
      by_cases hin : dst + w.opos ≤ x ∧ x < dst + (decGroup src dst m w).2.opos
      · exact .inl (agree x (.inr hin))
      · exact hx.imp (fun hx => agree x (.inl hx)) fun hx => by omega

/-- DEC on two memories that agree on the text: the same RET and the same bytes written (R35). -/
theorem decRun_congr (h : m.wf = true) (h' : m'.wf = true)
    (hr : ∀ x, (⟨src, n + 1⟩ : Range).Has x → m'.read x = m.read x) :
    (decRun m' src dst n).ret = (decRun m src dst n).ret ∧
      ∀ x, (⟨dst, (decRun m src dst n).ret⟩ : Range).Has x →
        (decRun m' src dst n).mem.read x = (decRun m src dst n).mem.read x := by
  obtain ⟨hwork, hmem⟩ := decLoop_congr (src := src) (dst := dst) (n / 4) h h' { Work.clear with slen := n }
    (fun x hlo hhi => hr x (by simp only [Range.Has, Work.clear_ipos] at *; omega))
  exact ⟨congrArg Work.opos hwork, fun x hx => hmem x (.inr hx)⟩

/-! ### The scan of VALID -/

theorem validScan_congr (k : Nat) (w : Work)
    (hr : ∀ x, src + w.ipos ≤ x → x < src + w.ipos + k → m'.read x = m.read x) :
    validScan m' src n k w = validScan m src n k w := by
  induction k generalizing w with
  | zero => rfl
  | succ k ih =>
    have next (q : BitVec 2) : validScan m' src n k { w with pcnt := q, ipos := w.ipos + 1 } =
        validScan m src n k { w with pcnt := q, ipos := w.ipos + 1 } :=
      ih _ fun x hlo hhi => hr x (by simp only at hlo; omega) (by simp only at hhi; omega)
    simp only [validScan, hr (src + w.ipos) (by omega) (by omega), next]

/-- VALID on two memories that agree on the text gives the same RET (R35). -/
theorem validRun_ret_congr (hr : ∀ x, (⟨src, n + 1⟩ : Range).Has x → m'.read x = m.read x) :
    (validRun m' src n).ret = (validRun m src n).ret := by
  have hscan := validScan_congr (m := m) (m' := m') (src := src) (n := n) n { Work.clear with slen := n }
    (fun x hlo hhi => hr x (by simp only [Range.Has, Work.clear_ipos] at *; omega))
  simp only [validRun, hscan]
  split
  · rfl
  · split <;> rfl

/-! ### The three operations -/

/-- What decides the outcome and the access sets of operation `i`: the bytes that decide its text (R52, R54); ENC,
which reads no text, is decided by its operands alone. -/
theorem opVerdict_eq_of_agree {i : Instr} {len : Nat}
    (h : i ≠ .enc → ∀ x, DecidesText p m src x → m'.read x = m.read x) :
    opVerdict i p m' src dst len = opVerdict i p m src dst len ∧
      opSets i p m' src dst len = opSets i p m src dst len := by
  cases i with
  | valid => exact validVerdict_eq_of_agree (h nofun)
  | enc => exact ⟨rfl, rfl⟩
  | dec => exact decVerdict_eq_of_agree (h nofun)

/-- The outcome, the access sets and the result do not depend on operands the operation does not use (R38). -/
theorem opVerdict_unused {i : Instr} {dst' len len' : Nat} (hdst : i ≠ .valid → dst = dst')
    (hlen : i = .enc → len = len') :
    opVerdict i p m src dst' len' = opVerdict i p m src dst len ∧
      opSets i p m src dst' len' = opSets i p m src dst len ∧
      opResult i p m src dst' len' = opResult i p m src dst len := by
  cases i with
  | valid => exact ⟨rfl, rfl, rfl⟩
  | enc => exact hdst nofun ▸ hlen rfl ▸ ⟨rfl, rfl, rfl⟩
  | dec => exact hdst nofun ▸ ⟨rfl, rfl, rfl⟩

/-- Equal used operands and equal bytes where the text is decided, or in the read set, give the same outcome and access
sets (R35). -/
theorem opVerdict_eq_of_equal_start {i : Instr} {dst' len len' : Nat} (hdst : i ≠ .valid → dst = dst')
    (hlen : i = .enc → len = len')
    (hr : ∀ x, (opSets i p m src dst len).reads.Has x ∨
      (i ≠ .enc ∧ textLen p m src = none ∧ src ≤ x ∧ x < 2 ^ p.aw) → m.read x = m'.read x) :
    opVerdict i p m' src dst' len' = opVerdict i p m src dst len ∧
      opSets i p m' src dst' len' = opSets i p m src dst len := by
  have hdecides : i ≠ .enc → ∀ x, DecidesText p m src x → m'.read x = m.read x := by
    intro hi x hx
    refine (hr x ?_).symm
    cases i with
    | enc => exact absurd rfl hi
    | valid | dec => exact hx.imp_right fun hx => ⟨hi, hx⟩
  obtain ⟨hv, hx, -⟩ := opVerdict_unused (p := p) (m := m') (src := src) hdst hlen
  obtain ⟨hv', hx'⟩ := opVerdict_eq_of_agree (dst := dst) (len := len) hdecides
  exact ⟨hv.trans hv', hx.trans hx'⟩

/-- A complete operation on two memories that agree on its read set: the same RET and the same bytes in its write set
(R35). -/
theorem opResult_congr {i : Instr} {len : Nat} (h : m.wf = true) (h' : m'.wf = true)
    (hv : opVerdict i p m src dst len = .complete)
    (hr : ∀ x, (opSets i p m src dst len).reads.Has x → m'.read x = m.read x) :
    (opResult i p m' src dst len).ret = (opResult i p m src dst len).ret ∧
      ∀ x, (opSets i p m src dst len).writes.Has x →
        (opResult i p m' src dst len).mem.read x = (opResult i p m src dst len).mem.read x := by
  cases i with
  | valid =>
    obtain ⟨n, hn, -⟩ := validVerdict_complete hv
    simp only [opSets, validSets, textRange, hn] at hr ⊢
    simp only [opResult, validResult, hn, textLen_congr hn hr]
    exact ⟨validRun_ret_congr hr, fun x hx => absurd hx.2 (Nat.not_lt_zero x)⟩
  | enc => exact encResult_congr h h' hr
  | dec =>
    obtain ⟨n, hn, hw, -, hj⟩ := decVerdict_complete hv
    obtain ⟨-, -, hd, -, -⟩ := judgeSets_complete hj
    have hd' := (Range.disjoint_iff _ _).mp hd
    simp only [opSets, decSets, textRange, hn] at hr hd' ⊢
    simp only [opResult, decResult, hn, textLen_congr hn hr]
    obtain ⟨-, -, -, hret, -⟩ := decRun_frame h src dst n hw hd'
    exact hret ▸ decRun_congr h h' hr

end Sys2Proof.Machine
end

section
/-! SUPPORT. What the operation of a BUSY block does, and what a complete one changes of memory, where memory alone is
known to be well-formed. -/

namespace Sys2Proof.Machine

variable {i : Instr} {p : Params} {m : Memory} {src dst len : Nat}

/-- The operation of a BUSY block that goes on: nothing, or its FINISH (R33). -/
theorem exec_busy_next {s t : State} {b : Block} (hb : s.block? s.sel = some b) (hbusy : b.phase = .busy)
    (h : exec i s = .next t) :
    t = s ∨ (opVerdict i s.params s.mem b.sSrc b.sDst b.sLen = .complete ∧
      t = (s.setMem (opResult i s.params s.mem b.sSrc b.sDst b.sLen).mem).putBlock s.sel
        (b.finished (opResult i s.params s.mem b.sSrc b.sDst b.sLen))) := by
  rw [exec_finish hb hbusy] at h
  exact (finishOperation_next h).imp And.left And.right

/-- A complete operation changes memory only in its write set (R55), and VALID does not change it (R110), whatever the
width of the registers. -/
theorem opResult_mem_frame (h : m.wf = true) (hv : opVerdict i p m src dst len = .complete) :
    (i = .valid → (opResult i p m src dst len).mem = m) ∧
      ∀ x, ¬ (opSets i p m src dst len).writes.Has x → (opResult i p m src dst len).mem.read x = m.read x := by
  cases i with
  | valid =>
    obtain ⟨n, hn, -⟩ := validVerdict_complete hv
    have hmem : (opResult .valid p m src dst len).mem = m := by
      simp only [opResult, validResult, hn]
      exact (validRun_frame m src n).1
    exact ⟨fun _ => hmem, fun x _ => by rw [hmem]⟩
  | enc =>
    obtain ⟨-, -, -, -, -, hout, -⟩ := encResult_frame h src dst len
    exact ⟨nofun, hout⟩
  | dec =>
    obtain ⟨n, hn, hw, -, hj⟩ := decVerdict_complete hv
    obtain ⟨-, -, hd, -, -⟩ := judgeSets_complete hj
    have hd' := (Range.disjoint_iff _ _).mp hd
    simp only [decSets, textRange, hn] at hd'
    obtain ⟨-, -, -, -, -, hout⟩ := decRun_frame h src dst n hw hd'
    simp only [opResult, decResult, opSets, decSets, hn]
    exact ⟨nofun, hout⟩

end Sys2Proof.Machine
end

section
/-! PROOFS. The statements of 10_state.md: the host's register accesses, START, FINISH, and what a step leaves alone. -/

namespace Sys2Proof.Machine

/-! ### Which operation a step executes -/

/-- Settles O3: CMD is register 0, and outside BUSY a legal byte written to it is the START of what it decodes to. -/
theorem stepExecutesTheCommandWritten : Obligations.StepExecutesTheCommandWritten := by
  intro s k v rest b i hs hb hp hv hd
  have hb' : (s.setScript rest).block? k = some b := hb
  rw [step_wr hs, hostWrite_cmd hb', writeCommand_eq hp hv (decodeByte_of_decode hd)]

/-- Settles O4: each of the three events comes down to the turn of block `k`, by `quietTurn_eq_blockTurn` where no
block is named or the one named has no FINISH to come. -/
theorem stepExecutesTheSampledOperation : Obligations.StepExecutesTheSampledOperation := by
  intro s k b i hb hbusy hr
  refine ⟨?turn, ?wait, ?quiet⟩
  case turn =>
    intro rest hs
    rw [step_turn hs, blockTurn_busy (s := s.setScript rest) hb hbusy hr]
  case wait =>
    intro rest hs hstuck
    rw [step_wait_of_runnable hs hb hbusy hstuck, blockTurn_busy hb hbusy hr]
  case quiet =>
    intro hstuck hleast
    have hrun : b.runnable = true := by simp [Block.runnable, hbusy, hstuck]
    have hquiet : quietTurn s = exec i (s.select k) := by
      rw [quietTurn_eq_blockTurn hb hrun, blockTurn_busy hb hbusy hr]
      intro j x hj hx
      exact x.runnable_eq_false_iff.mpr fun hp => (hleast j x hj hx).resolve_left (not_not.mpr hp)
    refine ⟨fun hs => (step_quiet hs).trans hquiet, ?_⟩
    rintro j x rest hs hx (hidle | ⟨hxbusy, hxstuck⟩)
    · exact (step_wait_of_idle hs hx hidle).trans hquiet
    · exact (step_wait_of_stuck hs hx hxbusy hxstuck).trans hquiet

/-! ### Reset and the host's register accesses -/

/-- Settles O6: the one block of the reset state is `Block.reset`, and a STATUS read of it is that of an IDLE block. -/
theorem resetLeavesEveryBlockIdle : Obligations.ResetLeavesEveryBlockIdle := by
  constructor
  · intro b hb
    rw [List.mem_singleton.mp hb]
    exact ⟨rfl, rfl, rfl, rfl, rfl⟩
  · intro k rest hk
    obtain rfl : k = 0 := Nat.lt_one_iff.mp hk
    have hb : (State.reset.setScript rest).block? 0 = some .reset := rfl
    exact (step_rd rfl).trans ((hostRead_status hb).trans (readStatus_idle rfl))

/-- Settles O7, register by register. -/
theorem operandWriteIsStored : Obligations.OperandWriteIsStored := by
  intro s k v rest b hb hp hv
  exact ⟨step_wr_src hb hp hv, step_wr_dst hb hp hv, step_wr_len hb hp hv⟩

/-- Settles O8: the read of each register, in the order of the rows. -/
theorem hostReadsAsTabled : Obligations.HostReadsAsTabled := by
  intro s k reg rest b hs hb
  have hb' : (s.setScript rest).block? k = some b := hb
  rw [step_rd hs]
  refine ⟨?_, ?_, ?_, ?_, ?_, ?_, ?_, ?_, ?_, ?_, ?_, ?_, hostRead_absent hb'⟩ <;> rintro rfl
  · exact fun h => (hostRead_status hb').trans (readStatus_idle h)
  · exact fun h => (hostRead_status hb').trans (readStatus_busy h)
  · exact fun h => (hostRead_status hb').trans (readStatus_done h)
  · exact fun h => (hostRead_ret hb').trans (readRet_done h)
  · exact fun h => (hostRead_ret hb').trans (readRet_of_not_done h)
  · exact fun h => (hostRead_src hb').trans (readOperand_written .src h)
  · exact fun h => (hostRead_src hb').trans (readOperand_unwritten .src h)
  · exact fun h => (hostRead_dst hb').trans (readOperand_written .dst h)
  · exact fun h => (hostRead_dst hb').trans (readOperand_unwritten .dst h)
  · exact fun h => (hostRead_len hb').trans (readOperand_written .len h)
  · exact fun h => (hostRead_len hb').trans (readOperand_unwritten .len h)
  · exact hostRead_cmd hb'

/-- Settles O9: RET and STATUS are read-only, there is no register 6 or above, and BUSY refuses whatever the number. -/
theorem hostWritesRefusedAsTabled : Obligations.HostWritesRefusedAsTabled := by
  intro s k reg v rest b hs hb
  have hb' : (s.setScript rest).block? k = some b := hb
  rw [step_wr hs]
  refine ⟨?_, ?_, hostWrite_absent hb', fun hbusy => hostWrite_refused_of_busy hb' hbusy reg v⟩
  · rintro rfl
    exact hostWrite_ret hb'
  · rintro rfl
    exact hostWrite_status hb'

/-- Settles O39: the only block is `Block.reset`, which is well-formed, not BUSY, and holds no buffers. -/
theorem resetMeetsTheInvariant : Obligations.ResetMeetsTheInvariant := by
  have only : ∀ b ∈ State.reset.blocks, b = .reset := fun b => List.mem_singleton.mp
  constructor
  · exact {
      params := by decide
      canon := rfl
      below := nofun
      blocks := Nat.le_refl 1
      each := fun b hb => only b hb ▸ Block.wf_reset _ }
  · exact {
      fresh := by
        intro k b i hb hbusy
        rw [only b (State.block?_mem _ hb)] at hbusy
        cases hbusy
      apart := by
        intro j k x y _ hx _ u hu
        rw [only x (State.block?_mem _ hx)] at hu
        cases hu }

/-! ### START -/

/-- Settles O10: the START of an operation that is not refused puts `Block.started` in place of the block. -/
theorem startSamplesOperandsAndTurnsBusy : Obligations.StartSamplesOperandsAndTurnsBusy := by
  intro i s b hb hp hw hv hc
  obtain ⟨j, hexec⟩ := exec_started_of_not_refused hb hp hw hv hc
  exact ⟨_, _, hexec, State.putBlock_block?_same s hb _, rfl, Phase.status_busy, rfl, rfl, by cases i <;> rfl,
    by cases i <;> rfl, rfl, rfl, rfl, rfl, rfl, rfl, rfl, rfl, rfl, rfl, rfl, rfl, rfl, rfl, rfl, rfl,
    fun _ hj => State.putBlock_block?_other s hj _⟩

/-- Settles O51: the bytes named decide the verdict and the sets (`opVerdict_eq_of_equal_start`), and these decide what
START does. -/
theorem equalStartsHaveEqualOutcomes : Obligations.EqualStartsHaveEqualOutcomes := by
  refine ⟨fun i p m1 m2 src dst1 dst2 len1 len2 hdst hlen hr => opVerdict_eq_of_equal_start hdst hlen hr, ?_⟩
  intro i s1 s2 b1 b2 hp hb1 hb2 hph1 hph2 hw1 hw2 hsrc hdst hlen hr hc1 hc2
  obtain ⟨hv, hx⟩ := opVerdict_eq_of_equal_start hdst hlen hr
  obtain ⟨r, hrefuse⟩ | ⟨stuck, hstuck⟩ := Verdict.refuse_or_starts
    (opVerdict i s1.params s1.mem b1.src.value b1.dst.value b1.len.value)
  · have hexec2 : exec i s2 = .refused r :=
      exec_refused hb2 hph2 hw2 (by rw [← hp, ← hsrc, hv, hrefuse])
    exact .inl ⟨r, exec_refused hb1 hph1 hw1 hrefuse, hexec2⟩
  · have hexec2 := exec_started hb2 hph2 hw2 (stuck := stuck) (by rw [← hp, ← hsrc, hv, hstuck])
      (by rwa [← hp, ← hsrc, hx])
    refine .inr ⟨_, _, _, _, exec_started hb1 hph1 hw1 hstuck hc1, hexec2, State.putBlock_block?_same s1 hb1 _,
      State.putBlock_block?_same s2 hb2 _, rfl, rfl, ?_⟩
    rw [Block.started_job, Block.started_job, ← hp, ← hsrc, hx]

/-! ### FINISH -/

/-- Settles O33: the operation of a BUSY block does nothing or finishes it (`exec_busy_next`), and a complete operation
changes memory in its write set only. -/
theorem finishFrame : Obligations.FinishFrame := by
  intro i s t b hm hb hbusy hexec
  obtain rfl | ⟨hv, rfl⟩ := exec_busy_next hb hbusy hexec
  · exact ⟨rfl, rfl, rfl, rfl, rfl, fun _ _ => rfl, ⟨b, hb, rfl, rfl, rfl, rfl, rfl, rfl, rfl, .inl rfl⟩,
      fun _ => rfl, fun _ _ => rfl⟩
  · obtain ⟨hvalid, hout⟩ := opResult_mem_frame hm hv
    exact ⟨rfl, rfl, rfl, rfl, rfl, fun _ hj => State.putBlock_block?_other _ hj _,
      ⟨_, State.putBlock_block?_same (s.setMem _) hb _, rfl, rfl, rfl, rfl, rfl, rfl, rfl, .inr ⟨rfl, rfl⟩⟩,
      hvalid, hout⟩

/-- Settles O42: `State.BuffersKept` has the outcome still complete at the turn, and FINISH of a complete operation
goes on. -/
theorem startedOperationFinishesAtItsTurn : Obligations.StartedOperationFinishesAtItsTurn := by
  intro s k b rest hinv hkept hs hb hbusy hstuck
  have hb' : (s.setScript rest).block? k = some b := hb
  obtain ⟨i, hr⟩ := exists_op ((hinv.block?_wf hb).op hbusy)
  obtain ⟨hv, -⟩ := hkept.fresh k b i hb hbusy hstuck hr
  have hstep : step s = finishOperation (opVerdict i s.params s.mem b.sSrc b.sDst b.sLen)
      (opResult i s.params s.mem b.sSrc b.sDst b.sLen) b ((s.setScript rest).select k) := by
    rw [step_turn hs, blockTurn_busy hb' hbusy hr]
    exact exec_finish hb' hbusy
  rw [hv, finishOperation_complete hstuck] at hstep
  exact ⟨_, _, hstep, State.putBlock_block?_same _ hb' _, rfl⟩

/-- Settles O48: the second operation is complete too (`opVerdict_congr`), and complete operations that agree on the
read set leave the same RET and bytes (`opResult_congr`). -/
theorem outcomeDependsOnlyOnOperandsAndReadSet : Obligations.OutcomeDependsOnlyOnOperandsAndReadSet := by
  intro i s1 s2 t1 b1 b2 b1' hp hm1 hm2 hb1 hb2 hbusy1 hbusy2 hstuck1 hstuck2 hsrc hdst hlen hr hexec hb1' hdone
  obtain rfl | ⟨hv, rfl⟩ := exec_busy_next hb1 hbusy1 hexec
  · obtain rfl : b1 = b1' := Option.some.inj (hb1.symm.trans hb1')
    rw [hbusy1] at hdone
    cases hdone
  · have hfin : (b1.finished _) = b1' :=
      Option.some.inj ((State.putBlock_block?_same (s1.setMem _) hb1 _).symm.trans hb1')
    have hr' : ∀ x, (opSets i s1.params s1.mem b1.sSrc b1.sDst b1.sLen).reads.Has x →
        s2.mem.read x = s1.mem.read x := fun x hx => (hr x hx).symm
    obtain ⟨hv2, -⟩ := opVerdict_congr hv hr'
    obtain ⟨hret, hmem⟩ := opResult_congr hm1 hm2 hv hr'
    obtain ⟨hverdict, -, hresult⟩ := opVerdict_unused (p := s1.params) (m := s2.mem) (src := b1.sSrc) hdst hlen
    have hexec2 : exec i s2 = .next ((s2.setMem (opResult i s1.params s2.mem b1.sSrc b1.sDst b1.sLen).mem).putBlock
        s2.sel (b2.finished (opResult i s1.params s2.mem b1.sSrc b1.sDst b1.sLen))) := by
      rw [exec_finish hb2 hbusy2, ← hp, ← hsrc, hverdict, hresult, hv2, finishOperation_complete hstuck2]
    exact ⟨_, _, hexec2, State.putBlock_block?_same (s2.setMem _) hb2 _, rfl, hfin ▸ hret, hmem⟩

/-! ### What a step changes of a block and of memory -/

/-- Settles O43: each of the changes `step_blockChange` allows a block keeps its phase or is one of the three moves. -/
theorem phasesMoveOnlyAsTabled : Obligations.PhasesMoveOnlyAsTabled := by
  refine ⟨Phase.status_idle, Phase.status_busy, Phase.status_done, fun s t k b hstep hb => ?_⟩
  obtain ⟨b', hb', hc⟩ := step_blockChange hstep hb
  refine ⟨b', hb', ?_⟩
  cases hc with
  | kept | doneRead => exact .inl rfl
  | operand _ _ hw => exact .inl hw.phase_ret.1
  | started i j hph hev => exact .inr (.inl ⟨hph, rfl, hev⟩)
  | finished r hph hev => exact .inr (.inr (.inl ⟨hph, rfl, hev⟩))
  | reset hev => exact .inr (.inr (.inr ⟨rfl, hev⟩))

/-- Settles O44: of the changes `step_blockChange` allows a block only FINISH and reset write RET. -/
theorem retChangesOnlyAtFinish : Obligations.RetChangesOnlyAtFinish := by
  intro s t k b hstep hb
  obtain ⟨b', hb', hc⟩ := step_blockChange hstep hb
  refine ⟨b', hb', ?_⟩
  cases hc with
  | kept | doneRead | started => exact .inl rfl
  | operand _ _ hw => exact .inl hw.phase_ret.2
  | finished r hph => exact .inr (.inl ⟨hph, rfl⟩)
  | reset hev => exact .inr (.inr hev)

/-- Settles O45: of the changes `step_blockChange` allows a block only the host's operand write and reset touch an
operand register. -/
theorem operandRegistersChangeOnlyByTheHost : Obligations.OperandRegistersChangeOnlyByTheHost := by
  intro s t k b hstep hb
  obtain ⟨b', hb', hc⟩ := step_blockChange hstep hb
  refine ⟨b', hb', ?_⟩
  cases hc with
  | kept | doneRead | started | finished => exact .inl ⟨rfl, rfl, rfl⟩
  | operand _ hph _ hev => exact .inr (.inl ⟨hph, hev⟩)
  | reset hev => exact .inr (.inr hev)

/-- Settles O47: a FINISH writes in the write set of its rule, which `State.BuffersKept` has equal to the one recorded
at START, and a reset while BUSY scrambles that one. -/
theorem memoryChangesOnlyInBusyWriteSets : Obligations.MemoryChangesOnlyInBusyWriteSets := by
  intro s t a hinv hkept hstep hne
  cases step_change hstep with
  | nothing _ hm | operand _ _ _ _ hm | start _ _ _ _ _ hm | doneRead _ _ _ hm => exact absurd (hm ▸ rfl) hne
  | finish k b i _ hb hbusy _ hr hstuck hv hm =>
    obtain ⟨-, hsets⟩ := hkept.fresh k b i hb hbusy hstuck hr
    refine .inr ⟨b, State.block?_mem s hb, hbusy, ?_⟩
    by_contra hout
    rw [← hsets] at hout
    exact hne (hm ▸ (opResult_mem_frame hinv.canon hv).2 a hout)
  | agent x v _ hev _ _ _ hm =>
    refine .inl ⟨v, ?_⟩
    by_cases hx : a = x
    · exact hx ▸ hev
    · rw [hm, Memory.read_write hinv.canon, if_neg hx] at hne
      exact absurd rfl hne
  | reset k b _ _ hb hm =>
    by_cases hbusy : b.phase = .busy
    · refine .inr ⟨b, State.block?_mem s hb, hbusy, ?_⟩
      by_contra hout
      rw [hm, if_pos hbusy, Memory.read_scramble_outside hinv.canon _ _ _ _ hout] at hne
      exact hne rfl
    · rw [hm, if_neg hbusy] at hne
      exact absurd rfl hne

/-! ### DONE -/

/-- Settles O56: an operand write and reads leave a block in DONE with its RET; a legal CMD write is the next START. -/
theorem doneHoldsUntilTheNextStart : Obligations.DoneHoldsUntilTheNextStart := by
  intro s k b rest hb hdone
  have hp : b.phase ≠ .busy := by simp [hdone]
  refine ⟨?operand, ?reads, ?command⟩
  case operand =>
    intro reg v hlo hhi hv hs
    obtain ⟨b1, hwrite, hphase, hret⟩ := step_wr_operand hb hp hv hlo hhi hs
    have hb1 := State.putBlock_block?_same (s.setScript (.rd k 4 :: .rd k 5 :: rest)) hb b1
    obtain ⟨t, hsteps, hscript, hmem, hb', hseen⟩ := steps_rd_ret_status_of_done hb1 (hphase.trans hdone) rfl
    exact ⟨t, b1.doneRead, (steps_succ 2 hwrite).trans hsteps, hscript, hmem, hb', hret, hphase.trans hdone,
      hret ▸ hseen⟩
  case reads =>
    intro hs
    have hread := step_rd_ret_of_done hb hdone hs
    have hread2 := step_rd_ret_of_done (s := (s.setScript (.rd k 4 :: rest)).observe (.reg k .ret b.ret)) hb hdone rfl
    exact ⟨_, (steps_succ 1 hread).trans (steps_succ 0 hread2), rfl, rfl, rfl, rfl⟩
  case command =>
    intro i v hv hd hs hw hverdict hc
    have hstep := stepExecutesTheCommandWritten s k v rest b i hs hb hp hv hd
    obtain ⟨j, hexec⟩ := exec_started_of_not_refused (s := (s.setScript rest).select k) hb hp hw hverdict hc
    exact ⟨_, _, hstep.trans hexec, rfl, rfl, State.putBlock_block?_same (s.setScript rest) hb _, rfl,
      Phase.status_busy, rfl⟩

end Sys2Proof.Machine
end


section
/-! SUPPORT. The access sets an operation holds, address by address, and which of them a step may change (R61, R69). -/

namespace Sys2Proof.Machine

/-! ### Sets that interfere, and what holds of the sets of a complete operation -/

/-- Not interfering, address by address (R69). -/
theorem Sets.apart_iff (x y : Sets) : x.apart y = true ↔ ∀ a,
    (x.writes.Has a → ¬ (y.reads.Has a ∨ y.writes.Has a)) ∧ (x.reads.Has a → ¬ y.writes.Has a) := by
  simp only [Sets.apart, Bool.and_eq_true, decide_eq_true_eq, Range.disjoint_iff]
  constructor
  · rintro ⟨⟨hwr, hww⟩, hrw⟩ a
    exact ⟨fun ha => not_or.mpr ⟨hwr a ha, hww a ha⟩, fun ha hy => hrw a hy ha⟩
  · intro h
    exact ⟨⟨fun a ha hy => (h a).1 ha (.inl hy), fun a ha hy => (h a).1 ha (.inr hy)⟩, fun a hy ha => (h a).2 ha hy⟩

theorem Block.mem_held_iff (b : Block) (x : Sets) :
    x ∈ b.held ↔ (b.phase = .busy ∧ x = b.job.sets) ∨ x ∈ b.unseen := by
  by_cases hp : b.phase = .busy
  · simp [Block.held_busy hp, hp]
  · simp [Block.held_of_not_busy hp, hp]

theorem Block.job_mem_held {b : Block} (h : b.phase = .busy) : b.job.sets ∈ b.held :=
  (b.mem_held_iff _).mpr (.inl ⟨h, rfl⟩)

/-- The sets of a complete operation pass the conditions common to the three operations (R59, R62, R63). -/
theorem judgeSets_opSets_complete {i : Instr} {p : Params} {m : Memory} {src dst len : Nat}
    (hv : opVerdict i p m src dst len = .complete) : judgeSets p (opSets i p m src dst len) = .complete := by
  cases i with
  | valid =>
    obtain ⟨-, -, hj⟩ := validVerdict_complete hv
    exact hj
  | enc => exact (encVerdict_complete hv).2
  | dec =>
    obtain ⟨-, -, -, -, hj⟩ := decVerdict_complete hv
    exact hj

/-! ### The operation of a block after START -/

theorem Instr.op_injective : Function.Injective Instr.op := fun i j h =>
  Except.ok.inj ((decodeByte_op_self i).symm.trans (h ▸ decodeByte_op_self j))

/-- The operands sampled at START are those START was judged by (R31, R38). -/
theorem opVerdict_started (b : Block) (i : Instr) (j : Job) (p : Params) (m : Memory) :
    opVerdict i p m (b.started i j).sSrc (b.started i j).sDst (b.started i j).sLen =
        opVerdict i p m b.src.value b.dst.value b.len.value ∧
      opSets i p m (b.started i j).sSrc (b.started i j).sDst (b.started i j).sLen =
        opSets i p m b.src.value b.dst.value b.len.value := by
  cases i <;> exact ⟨rfl, rfl⟩

/-! ### Who changes a byte -/

variable {s t : State} {k a : Nat} {b : Block} {x : Sets}

/-- The byte at `a` lies in the write set of block `j`, which is BUSY in `s` and takes its FINISH or its
reset in the step to `t`. -/
def State.WritesAt (s t : State) (a j : Nat) (b : Block) : Prop :=
  b.phase = .busy ∧ b.job.sets.writes.Has a ∧
    ((∃ b', t.block? j = some b' ∧ b'.phase = .done) ∨ s.script.head? = some (.reset j))

theorem block?_set_same {b' : Block} (ht : t.blocks = s.blocks.set k b') (hb : s.block? k = some b) :
    t.block? k = some b' := by
  rw [State.block?, ht]
  exact State.putBlock_block?_same s hb b'

/-- A byte changes only where no operation uses it, or by the FINISH or the reset of a block that writes it. -/
theorem Change.writer (c : Change s t) (hinv : s.Inv) (hkept : s.BuffersKept)
    (hne : t.mem.read a ≠ s.mem.read a) :
    ¬ s.InUse a ∨ ∃ j y, s.block? j = some y ∧ s.WritesAt t a j y := by
  cases c with
  | nothing _ hm | operand _ _ _ _ hm | start _ _ _ _ _ hm | doneRead _ _ _ hm => exact absurd (hm ▸ rfl) hne
  | finish j y i _ hy hbusy _ hr hstuck hv hm ht =>
    obtain ⟨-, hsets⟩ := hkept.fresh j y i hy hbusy hstuck hr
    refine .inr ⟨j, y, hy, hbusy, ?_, .inl ⟨_, block?_set_same ht hy, rfl⟩⟩
    by_contra hout
    exact hne (hm ▸ (opResult_mem_frame hinv.canon hv).2 a (hsets ▸ hout))
  | agent a' v _ _ _ _ hu hm =>
    by_cases ha : a = a'
    · exact .inl (ha ▸ hu)
    · rw [hm, Memory.read_write hinv.canon, if_neg ha] at hne
      exact absurd rfl hne
  | reset j y _ hev hy hm =>
    by_cases hbusy : y.phase = .busy
    · refine .inr ⟨j, y, hy, hbusy, ?_, .inr hev⟩
      by_contra hout
      rw [hm, if_pos hbusy, Memory.read_scramble_outside hinv.canon _ _ _ _ hout] at hne
      exact hne rfl
    · rw [hm, if_neg hbusy] at hne
      exact absurd rfl hne

/-- A byte of the sets a block holds changes only by that block's own FINISH or reset, since no other block's write set
meets them (R61, R224). -/
theorem Change.held_writer (c : Change s t) (hinv : s.Inv) (hkept : s.BuffersKept) (hb : s.block? k = some b)
    (hx : x ∈ b.held) (ha : x.reads.Has a ∨ x.writes.Has a) (hne : t.mem.read a ≠ s.mem.read a) :
    s.WritesAt t a k b := by
  obtain hfree | ⟨j, y, hy, hw⟩ := c.writer hinv hkept hne
  · exact absurd ⟨b, State.block?_mem s hb, x, hx, ha⟩ hfree
  · by_cases hjk : j = k
    · subst hjk
      obtain rfl : y = b := Option.some.inj (hy.symm.trans hb)
      exact hw
    · obtain ⟨hbusy, hwrites, -⟩ := hw
      have hapart := hkept.apart j k y b hjk hy hb _ (Block.job_mem_held hbusy) x hx
      exact absurd ha (((Sets.apart_iff _ _).mp hapart a).1 hwrites)

/-- No step changes a byte that a BUSY operation with outcome complete reads: its own write set does not meet its read
set (R61, R62). -/
theorem Change.reads_kept (c : Change s t) (hinv : s.Inv) (hkept : s.BuffersKept) (hb : s.block? k = some b)
    (hbusy : b.phase = .busy) {i : Instr} (hv : opVerdict i s.params s.mem b.sSrc b.sDst b.sLen = .complete)
    (hsets : opSets i s.params s.mem b.sSrc b.sDst b.sLen = b.job.sets) (ha : b.job.sets.reads.Has a) :
    t.mem.read a = s.mem.read a := by
  by_contra hne
  obtain ⟨-, hwrites, -⟩ := c.held_writer hinv hkept hb (Block.job_mem_held hbusy) (.inl ha) hne
  obtain ⟨-, -, hd, -, -⟩ := judgeSets_complete (hsets ▸ judgeSets_opSets_complete hv)
  exact (Range.disjoint_iff _ _).mp hd a ha hwrites

/-! ### What a block runs and holds after a step -/

/-- A block found after a replacement is the new one, or was there before. -/
theorem block?_cases_of_set {j : Nat} {b' x' : Block} (ht : t.blocks = s.blocks.set j x') (hb' : t.block? k = some b') :
    (k = j ∧ b' = x') ∨ s.block? k = some b' := by
  rw [State.block?, ht] at hb'
  exact (State.putBlock_block?_cases s hb').imp_right And.right

/-- Block `k`, which is `b`, is given the START of operation `i`, with the sets of its rule (R31). -/
structure State.Starts (s t : State) (k : Nat) (b : Block) (i : Instr) (stuck : Bool) : Prop where
  mem : t.mem = s.mem
  found : s.block? k = some b
  idle : b.phase ≠ .busy
  event : ∃ v, s.script.head? = some (.wr k 0 v)
  clear : (s.select k).ClearOf (opSets i s.params s.mem b.src.value b.dst.value b.len.value)
  verdict : opVerdict i s.params s.mem b.src.value b.dst.value b.len.value = if stuck then .stuck else .complete

/-- Block `b` after START of operation `i`, with the sets of its rule in state `s` (R31). -/
def State.startedAs (s : State) (b : Block) (i : Instr) (stuck : Bool) : Block :=
  b.started i ⟨opSets i s.params s.mem b.src.value b.dst.value b.len.value, stuck⟩

/-- After a step a block is one that had its START in it, or it holds no sets but those it held before and is BUSY only
if it was there before. -/
theorem Change.block_after (c : Change s t) {b' : Block} (hb' : t.block? k = some b') :
    (∃ b i stuck, s.Starts t k b i stuck ∧ b' = s.startedAs b i stuck) ∨
    (∃ b, s.block? k = some b ∧ (∀ x ∈ b'.held, x ∈ b.held) ∧ (b'.phase = .busy → b' = b)) := by
  have kept (h : s.block? k = some b') : ∃ b, s.block? k = some b ∧ (∀ x ∈ b'.held, x ∈ b.held) ∧
      (b'.phase = .busy → b' = b) := ⟨b', h, fun _ => id, fun _ => rfl⟩
  have replaced {j : Nat} {y y' : Block} (hy : s.block? j = some y) (ht : t.blocks = s.blocks.set j y')
      (hheld : ∀ x ∈ y'.held, x ∈ y.held) (hp : y'.phase ≠ .busy) :
      ∃ b, s.block? k = some b ∧ (∀ x ∈ b'.held, x ∈ b.held) ∧ (b'.phase = .busy → b' = b) := by
    obtain ⟨rfl, rfl⟩ | h := block?_cases_of_set ht hb'
    · exact ⟨y, hy, hheld, fun hbusy => absurd hbusy hp⟩
    · exact kept h
  cases c with
  | nothing _ _ ht | agent _ _ _ _ _ _ _ _ ht => exact .inr (kept (by rwa [State.block?, ht] at hb'))
  | operand j y y' _ _ hy hph hw _ ht =>
    refine .inr (replaced hy ht ?_ (hw.phase_ret.1 ▸ hph))
    rw [Block.held_of_not_busy hph, Block.held_of_not_busy (hw.phase_ret.1 ▸ hph)]
    cases hw <;> exact fun _ => id
  | start j y i stuck _ hm hy hph _ hev hc hv ht =>
    obtain ⟨rfl, rfl⟩ | h := block?_cases_of_set ht hb'
    · exact .inl ⟨y, i, stuck, ⟨hm, hy, hph, hev, hc, hv⟩, rfl⟩
    · exact .inr (kept h)
  | finish j y i _ hy hbusy _ _ _ _ _ ht =>
    refine .inr (replaced hy ht (fun x hx => ?_) nofun)
    rwa [Block.held_busy hbusy]
  | doneRead j y _ _ hy hph _ ht =>
    exact .inr (replaced hy ht (by simp [Block.held_of_not_busy, hph]) (by simp [hph]))
  | reset j y _ _ hy _ ht => exact .inr (replaced hy ht nofun nofun)

/-- The outcome of a BUSY operation is as at START, with the sets recorded then (R61, R66). -/
theorem Change.keeps_fresh (c : Change s t) (hinv : s.Inv) (hkept : s.BuffersKept) {b' : Block} {i : Instr}
    (hb' : t.block? k = some b') (hbusy : b'.phase = .busy) (hstuck : b'.job.stuck = false) (hr : b'.runs i) :
    opVerdict i t.params t.mem b'.sSrc b'.sDst b'.sLen = .complete ∧
      opSets i t.params t.mem b'.sSrc b'.sDst b'.sLen = b'.job.sets := by
  rw [c.params_eq]
  obtain ⟨b, i', stuck, hst, rfl⟩ | ⟨b, hb, -, hsame⟩ := c.block_after hb'
  · obtain rfl : i' = i := Instr.op_injective hr
    obtain rfl : stuck = false := hstuck
    rw [hst.mem]
    obtain ⟨hverdict, hsets⟩ := opVerdict_started b i' ⟨_, false⟩ s.params s.mem
    exact ⟨hverdict.trans hst.verdict, hsets⟩
  · obtain rfl := hsame hbusy
    obtain ⟨hv, hsets⟩ := hkept.fresh k b' i hb hbusy hstuck hr
    obtain ⟨hv', hsets'⟩ := opVerdict_congr (m' := t.mem) hv fun a ha =>
      c.reads_kept hinv hkept hb hbusy hv hsets (hsets ▸ ha)
    exact ⟨hv', hsets'.trans hsets⟩

/-- What a block holds after its START is apart from what every other block holds then: its old sets were, and its new
ones are clear of them (R69). No two blocks have their START in one step. -/
theorem Change.started_apart (c : Change s t) (hkept : s.BuffersKept) {j : Nat} (hjk : j ≠ k) {i : Instr} {stuck : Bool}
    (hst : s.Starts t k b i stuck) {y : Block} {w : Sets} (hx : x ∈ (s.startedAs b i stuck).held)
    (hy : t.block? j = some y) (hw : w ∈ y.held) : x.apart w = true := by
  obtain ⟨_, _, _, hst', -⟩ | ⟨y', hy', hheld, -⟩ := c.block_after hy
  · obtain ⟨v, hv⟩ := hst.event
    obtain ⟨v', hv'⟩ := hst'.event
    rw [hv] at hv'
    cases hv'
    exact absurd rfl hjk
  · obtain rfl | hold := List.mem_cons.mp hx
    · obtain ⟨hlt, -⟩ := List.getElem?_eq_some_iff.mp hy'
      exact hst.clear j hlt hjk y' hy' w (hheld w hw)
    · exact hkept.apart k j b y' hjk.symm hst.found hy' x (Block.held_of_not_busy hst.idle ▸ hold) w (hheld w hw)

/-- The sets two blocks hold stay apart (R69). -/
theorem Change.keeps_apart (c : Change s t) (hkept : s.BuffersKept) {j : Nat} (hjk : j ≠ k) {y z : Block} {w : Sets}
    (hy : t.block? j = some y) (hz : t.block? k = some z) (hx : x ∈ y.held) (hw : w ∈ z.held) : x.apart w = true := by
  obtain ⟨b, i, stuck, hst, rfl⟩ | ⟨y', hy', hheld, -⟩ := c.block_after hy
  · exact c.started_apart hkept hjk.symm hst hx hz hw
  · obtain ⟨b, i, stuck, hst, rfl⟩ | ⟨z', hz', hheld', -⟩ := c.block_after hz
    · exact Sets.apart_symm (c.started_apart hkept hjk hst hw hy hx)
    · exact hkept.apart j k y' z' hjk hy' hz' x (hheld x hx) w (hheld' w hw)

/-- The step lemma of `State.BuffersKept`: the verdicts stand, and the sets stay apart. -/
theorem Change.keeps_buffers (c : Change s t) (hinv : s.Inv) (hkept : s.BuffersKept) : t.BuffersKept where
  fresh := fun _ _ _ hb hbusy hstuck hr => c.keeps_fresh hinv hkept hb hbusy hstuck hr
  apart := fun _ _ _ _ hjk hx hy _ hu _ hw => c.keeps_apart hkept hjk hx hy hu hw

end Sys2Proof.Machine
end

section
/-! SUPPORT. Two complete operations whose sets do not interfere, run one after the other in either order (R69). -/

namespace Sys2Proof.Machine

variable {p : Params} {m m' : Memory} {i : Instr} {src dst len n : Nat}

/-! ### The registers an operation leaves depend on its read set only -/

theorem encResult_work_congr (h : m.wf = true) (h' : m'.wf = true)
    (hr : ∀ x, (encSets src dst n).reads.Has x → m'.read x = m.read x) :
    (encResult m' src dst n).work = (encResult m src dst n).work := by
  simp only [encSets, Range.Has] at hr
  obtain ⟨hipos, -⟩ := encLoop_work src dst (n / 3) m .clear
  simp only [Work.clear_ipos, Nat.zero_add] at hipos
  obtain ⟨hwork, hfull⟩ := encLoop_congr (src := src) (dst := dst) (n / 3) h h' .clear
    (fun x hlo hhi => hr x (by simp only [Work.clear_ipos] at hlo hhi; omega))
  simp only [encResult, hwork]
  exact (encTail_congr (by omega) (encLoop_wf src dst _ h _) (encLoop_wf src dst _ h' _) _
    fun x hlo hhi => hfull x (.inl (hr x (by omega)))).1

theorem decRun_work_congr (h : m.wf = true) (h' : m'.wf = true)
    (hr : ∀ x, (⟨src, n + 1⟩ : Range).Has x → m'.read x = m.read x) :
    (decRun m' src dst n).work = (decRun m src dst n).work :=
  (decLoop_congr (n / 4) h h' _ fun x hlo hhi => hr x (by simp only [Range.Has, Work.clear_ipos] at *; omega)).1

theorem validRun_work_congr (hr : ∀ x, (⟨src, n + 1⟩ : Range).Has x → m'.read x = m.read x) :
    (validRun m' src n).work = (validRun m src n).work := by
  have hscan := validScan_congr (m := m) (m' := m') (src := src) (n := n) n { Work.clear with slen := n }
    (fun x hlo hhi => hr x (by simp only [Range.Has, Work.clear_ipos] at *; omega))
  simp only [validRun, hscan]
  split
  · rfl
  · split <;> rfl

/-- A complete operation on two memories that agree on its read set leaves the same working registers. -/
theorem opResult_work_congr (h : m.wf = true) (h' : m'.wf = true) (hv : opVerdict i p m src dst len = .complete)
    (hr : ∀ x, (opSets i p m src dst len).reads.Has x → m'.read x = m.read x) :
    (opResult i p m' src dst len).work = (opResult i p m src dst len).work := by
  cases i with
  | valid =>
    obtain ⟨n, hn, -⟩ := validVerdict_complete hv
    simp only [opSets, validSets, textRange, hn] at hr
    simp only [opResult, validResult, hn, textLen_congr hn hr]
    exact validRun_work_congr hr
  | enc => exact encResult_work_congr h h' hr
  | dec =>
    obtain ⟨n, hn, -⟩ := decVerdict_complete hv
    simp only [opSets, decSets, textRange, hn] at hr
    simp only [opResult, decResult, hn, textLen_congr hn hr]
    exact decRun_work_congr h h' hr

/-! ### The operation a BUSY block has still to finish -/

/-- Block `k` is `b`, BUSY with operation `i`, and has its FINISH still to come. -/
structure State.Finishing (s : State) (k : Nat) (b : Block) (i : Instr) : Prop where
  found : s.block? k = some b
  busy : b.phase = .busy
  notStuck : b.job.stuck = false
  runs : b.runs i

/-- What operation `i` leaves for the operands block `b` has sampled. -/
def Block.resultOf (b : Block) (i : Instr) (p : Params) (m : Memory) : Result := opResult i p m b.sSrc b.sDst b.sLen

variable {s : State} {j k : Nat} {x y b : Block} {i' : Instr} {rest : List Event}

theorem State.Inv.setScript (h : s.Inv) (es : List Event) : (s.setScript es).Inv :=
  ⟨h.params, h.canon, h.below, h.blocks, h.each⟩

theorem State.BuffersKept.setScript (h : s.BuffersKept) (es : List Event) : (s.setScript es).BuffersKept :=
  ⟨h.fresh, h.apart⟩

theorem State.Finishing.setScript (h : s.Finishing k b i) (es : List Event) : (s.setScript es).Finishing k b i :=
  ⟨h.found, h.busy, h.notStuck, h.runs⟩

/-- At its turn the block takes FINISH, since its outcome is still complete (R33, R61). -/
theorem State.Finishing.step_eq (hf : s.Finishing k b i) (hkept : s.BuffersKept)
    (hs : s.script = .turn k :: rest) :
    step s = .next ((((s.setScript rest).select k).setMem (b.resultOf i s.params s.mem).mem).putBlock k
      (b.finished (b.resultOf i s.params s.mem))) := by
  have hb : (s.setScript rest).block? k = some b := hf.found
  obtain ⟨hv, -⟩ := hkept.fresh k b i hf.found hf.busy hf.notStuck hf.runs
  have hexec := exec_finish (i := i) (s := (s.setScript rest).select k) hb hf.busy
  simp only [State.select_params, State.setScript_params, State.select_mem, State.setScript_mem, hv] at hexec
  rw [step_turn hs, blockTurn_busy hb hf.busy hf.runs, hexec,
    finishOperation_complete hf.notStuck]
  rfl

/-- FINISH changes memory in the recorded write set only (R55). -/
theorem State.Finishing.read_outside (hf : s.Finishing k b i) (hinv : s.Inv) (hkept : s.BuffersKept) {a : Nat}
    (ha : ¬ b.job.sets.writes.Has a) : (b.resultOf i s.params s.mem).mem.read a = s.mem.read a := by
  obtain ⟨hv, hsets⟩ := hkept.fresh k b i hf.found hf.busy hf.notStuck hf.runs
  exact (opResult_mem_frame hinv.canon hv).2 a (hsets ▸ ha)

/-- In a memory that agrees on the recorded read set, FINISH leaves the same block and writes the same bytes (R35). -/
theorem State.Finishing.congr (hf : s.Finishing k b i) (hinv : s.Inv) (hkept : s.BuffersKept) (hm' : m'.wf = true)
    (hr : ∀ a, b.job.sets.reads.Has a → m'.read a = s.mem.read a) :
    b.finished (b.resultOf i s.params m') = b.finished (b.resultOf i s.params s.mem) ∧
      ∀ a, b.job.sets.writes.Has a →
        (b.resultOf i s.params m').mem.read a = (b.resultOf i s.params s.mem).mem.read a := by
  obtain ⟨hv, hsets⟩ := hkept.fresh k b i hf.found hf.busy hf.notStuck hf.runs
  rw [← hsets] at hr ⊢
  obtain ⟨hret, hmem⟩ := opResult_congr hinv.canon hm' hv hr
  have hwork := opResult_work_congr hinv.canon hm' hv hr
  exact ⟨by simp only [Block.finished, Block.resultOf, hret, hwork], hmem⟩

/-! ### One FINISH after another -/

/-- After the turns of blocks `j` and `k` both operations have finished with the results they have in the memory before:
the second reads nothing that the first writes. -/
theorem State.Finishing.two_turns (hx : s.Finishing j x i) (hy : s.Finishing k y i') (hjk : j ≠ k) (hinv : s.Inv)
    (hkept : s.BuffersKept) (hs : s.script = .turn j :: .turn k :: rest) :
    ∃ u : State, steps 2 s = .next u ∧ u.script = rest ∧ u.Inv ∧
      u.blocks = (s.blocks.set j (x.finished (x.resultOf i s.params s.mem))).set k
        (y.finished (y.resultOf i' s.params s.mem)) ∧
      ∀ a, u.mem.read a = if y.job.sets.writes.Has a then (y.resultOf i' s.params s.mem).mem.read a
        else (x.resultOf i s.params s.mem).mem.read a := by
  have hfirst := hx.step_eq hkept hs
  generalize htdef : (((s.setScript (.turn k :: rest)).select j).setMem (x.resultOf i s.params s.mem).mem).putBlock j
    (x.finished (x.resultOf i s.params s.mem)) = t at hfirst
  have hinv' := everyStepKeepsTheInvariant _ _ hinv hfirst
  have hkept' := (step_change hfirst).keeps_buffers hinv hkept
  have hparams : t.params = s.params := by rw [← htdef]; rfl
  have hmem : t.mem = (x.resultOf i s.params s.mem).mem := by rw [← htdef]; rfl
  have hblocks : t.blocks = s.blocks.set j (x.finished (x.resultOf i s.params s.mem)) := by rw [← htdef]; rfl
  have hscript : t.script = .turn k :: rest := by rw [← htdef]; rfl
  have hy' : t.Finishing k y i' :=
    ⟨(block?_eq_of_set hblocks hjk.symm).trans hy.found, hy.busy, hy.notStuck, hy.runs⟩
  have hsecond := hy'.step_eq hkept' hscript
  have hapart := (Sets.apart_iff _ _).mp
    (hkept.apart j k x y hjk hx.found hy.found _ (Block.job_mem_held hx.busy) _ (Block.job_mem_held hy.busy))
  obtain ⟨hfinished, hbytes⟩ := hy.congr hinv hkept hinv'.canon fun a ha => by
    rw [hmem]
    exact hx.read_outside hinv hkept fun hw => (hapart a).1 hw (.inl ha)
  rw [hparams] at hsecond
  refine ⟨_, (steps_succ 1 hfirst).trans (steps_succ 0 hsecond), rfl, everyStepKeepsTheInvariant _ _ hinv' hsecond, ?_,
    fun a => ?_⟩
  · exact hfinished ▸ hblocks ▸ rfl
  · split
    · exact hbytes a ‹_›
    · rw [← hmem, ← hparams]
      exact hy'.read_outside hinv' hkept' ‹_›

end Sys2Proof.Machine
end

section
/-! SUPPORT. When a START is refused (R11): what every operation that is not refused has met, and the outcome stuck. -/

namespace Sys2Proof.Machine

variable {i : Instr} {s : State} {b : Block} {p : Params} {m : Memory} {src dst len n : Nat}

/-- On a block that is not BUSY an operation is refused, or its sets are clear of the others' and its verdict is no
refusal (R11, R69). -/
theorem exec_refused_or_accepted (hb : s.block? s.sel = some b) (hp : b.phase ≠ .busy) :
    (∃ r, exec i s = .refused r) ∨
      (s.ClearOf (opSets i s.params s.mem b.src.value b.dst.value b.len.value) ∧
        ∀ r, opVerdict i s.params s.mem b.src.value b.dst.value b.len.value ≠ .refuse r) := by
  rw [exec_start hb hp]
  unfold startOperation
  split
  · exact .inl ⟨_, rfl⟩
  · cases hv : opVerdict i s.params s.mem b.src.value b.dst.value b.len.value with
    | refuse r => exact .inl ⟨r, rfl⟩
    | complete | stuck =>
      by_cases hc : s.ClearOf (opSets i s.params s.mem b.src.value b.dst.value b.len.value)
      · exact .inr ⟨hc, nofun⟩
      · exact .inl ⟨_, if_neg hc⟩

/-! ### What is met where an operation is not refused -/

theorem encVerdict_fits (h : ∀ r, encVerdict p src dst n ≠ .refuse r) : EncFits p src dst n := by
  by_contra hf
  exact h _ (if_neg hf)

theorem encVerdict_eq_judgeSets (hf : EncFits p src dst n) :
    encVerdict p src dst n = judgeSets p (encSets src dst n) := if_pos hf

theorem validVerdict_eq_judgeSets (hn : textLen p m src = some n) :
    validVerdict p m src = judgeSets p (validSets p m src) := by
  simp only [validVerdict, hn]

theorem validVerdict_unterminated (hn : textLen p m src = none) :
    validVerdict p m src = if p.PlainAll (askedRange p src) then .stuck else .refuse .notPlainMemory := by
  simp only [validVerdict, hn]

theorem decVerdict_unterminated (hn : textLen p m src = none) : decVerdict p m src dst = .refuse .malformedText := by
  simp only [decVerdict, hn]

theorem decVerdict_eq_judgeSets (hn : textLen p m src = some n) (hw : WF (m.bytes src n))
    (hf : DecFits p dst (decodedLen (m.bytes src n))) :
    decVerdict p m src dst = judgeSets p (decSets p m src dst) := by
  simp only [decVerdict, hn, if_neg (not_not.mpr hw), if_neg (not_not.mpr hf)]

/-- DEC is not refused only for a well-formed text whose bytes fit (R157, R56). -/
theorem decVerdict_accepted (h : ∀ r, decVerdict p m src dst ≠ .refuse r) :
    ∃ n, textLen p m src = some n ∧ WF (m.bytes src n) ∧ DecFits p dst (decodedLen (m.bytes src n)) := by
  cases hn : textLen p m src with
  | none => exact absurd (decVerdict_unterminated hn) (h _)
  | some n =>
    simp only [decVerdict, hn] at h
    have hw : WF (m.bytes src n) := by
      by_contra hw
      exact h _ (if_pos hw)
    rw [if_neg (not_not.mpr hw)] at h
    refine ⟨n, rfl, hw, ?_⟩
    by_contra hf
    exact h _ (if_pos hf)

/-- Where an operation that reads a terminated text, or none, is not refused, its outcome on the same platform with
other accesses rejected is decided by its sets: the conditions of its own rule do not depend on `Admit` (R11, R63). -/
theorem opVerdict_eq_judgeSets (hterm : (∃ n, textLen p m src = some n) ∨ i = .enc)
    (h : ∀ r, opVerdict i p m src dst len ≠ .refuse r) (ds : List Denied) :
    opVerdict i { p with denied := ds } m src dst len =
      judgeSets { p with denied := ds } (opSets i { p with denied := ds } m src dst len) := by
  cases i with
  | valid =>
    obtain ⟨n, hn⟩ := hterm.resolve_right nofun
    exact validVerdict_eq_judgeSets (p := { p with denied := ds }) hn
  | enc =>
    have hf : EncFits p src dst len := encVerdict_fits h
    exact encVerdict_eq_judgeSets (p := { p with denied := ds }) hf
  | dec =>
    obtain ⟨n, hn, hw, hf⟩ := decVerdict_accepted h
    exact decVerdict_eq_judgeSets (p := { p with denied := ds }) hn hw hf

/-- The sets of an operation that is not refused are plain memory and disjoint (R59, R62). -/
theorem opSets_accepted (h : ∀ r, opVerdict i p m src dst len ≠ .refuse r) :
    p.PlainAll (opSets i p m src dst len).reads ∧ p.PlainAll (opSets i p m src dst len).writes ∧
      (opSets i p m src dst len).reads.Disjoint (opSets i p m src dst len).writes := by
  by_cases hterm : (∃ n, textLen p m src = some n) ∨ i = .enc
  · exact judgeSets_accepted fun r => opVerdict_eq_judgeSets hterm h p.denied ▸ h r
  · obtain ⟨hnone, hi⟩ := not_or.mp hterm
    have hn : textLen p m src = none := Option.eq_none_iff_forall_not_mem.mpr fun n hn => hnone ⟨n, hn⟩
    cases i with
    | enc => exact absurd rfl hi
    | dec => exact absurd (decVerdict_unterminated hn) (h _)
    | valid =>
      simp only [opVerdict, validVerdict_unterminated hn] at h
      have hplain : p.PlainAll (askedRange p src) := by
        by_contra hc
        exact h _ (if_neg hc)
      simp only [opSets, validSets, textRange, hn]
      exact ⟨hplain, fun q _ => .inr (.inl rfl), .inr (.inl rfl)⟩

/-- Plain and disjoint sets with an address that is not admitted are stuck (R63). -/
theorem judgeSets_stuck {x : Sets} (hr : p.PlainAll x.reads) (hw : p.PlainAll x.writes)
    (hd : x.reads.Disjoint x.writes) (ha : ¬ (p.AdmitsAll .read x.reads ∧ p.AdmitsAll .write x.writes)) :
    judgeSets p x = .stuck := by
  rw [judgeSets, if_neg (not_not.mpr ⟨hr, hw⟩), if_neg (not_not.mpr hd), if_neg ha]

/-- The sets depend on `Admit` only through the scan of an unterminated text (R54, R63). -/
theorem opSets_denied (hterm : (∃ n, textLen p m src = some n) ∨ i = .enc) (ds : List Denied) :
    opSets i { p with denied := ds } m src dst len = opSets i p m src dst len := by
  cases i with
  | enc => rfl
  | valid | dec =>
    obtain ⟨n, hn⟩ := hterm.resolve_right nofun
    have hn' : textLen { p with denied := ds } m src = some n := hn
    simp only [opSets, validSets, decSets, textRange, hn, hn']

/-- An operation that would not be refused on a platform which rejects no access is stuck where an address of its sets
is not admitted (R63). -/
theorem opVerdict_stuck (hterm : (∃ n, textLen p m src = some n) ∨ i = .enc)
    (h : ∀ r, opVerdict i { p with denied := [] } m src dst len ≠ .refuse r)
    (ha : ¬ (p.AdmitsAll .read (opSets i p m src dst len).reads ∧
      p.AdmitsAll .write (opSets i p m src dst len).writes)) :
    opVerdict i p m src dst len = .stuck := by
  obtain ⟨hr, hw, hd⟩ := opSets_accepted h
  have hv : opVerdict i p m src dst len = judgeSets p (opSets i p m src dst len) :=
    opVerdict_eq_judgeSets (p := { p with denied := [] }) hterm h p.denied
  rw [opSets_denied hterm] at hr hw hd
  exact hv.trans (judgeSets_stuck (p := p) hr hw hd ha)

/-! ### Texts and the fit conditions -/

/-- R52 in full: the least distance to a terminator at or below the top address. -/
theorem textLen_eq_some_iff (p : Params) (m : Memory) (a n : Nat) : textLen p m a = some n ↔
    (a + n ≤ 2 ^ p.aw - 1 ∧ m.read (a + n) = NUL ∧ ∀ k < n, m.read (a + k) ≠ NUL) := by
  have hpos : 0 < 2 ^ p.aw := Nat.two_pow_pos _
  constructor
  · intro h
    obtain ⟨-, hend, hbefore⟩ := scanText_some h
    have := textLen_lt h
    exact ⟨by omega, hend, hbefore⟩
  · rintro ⟨hle, hend, hbefore⟩
    exact scanText_of (by omega) hend hbefore

theorem textLen_eq_none {a : Nat} (h : ∀ k, a + k ≤ 2 ^ p.aw - 1 → m.read (a + k) ≠ NUL) : textLen p m a = none := by
  refine Option.eq_none_iff_forall_ne_some.mpr fun n hn => ?_
  obtain ⟨hle, hend, -⟩ := (textLen_eq_some_iff p m a n).mp hn
  exact h n hle hend

/-- ENC writes whole groups, and the number of addresses is a multiple of 16, so three values are left above RET. -/
theorem EncFits.ret_le (hp : 4 ≤ p.aw) (h : EncFits p src dst n) : encodedLen n + 1 ≤ 2 ^ p.aw - 3 := by
  obtain ⟨k, hk⟩ := Nat.exists_eq_add_of_le hp
  have hpos : 0 < 2 ^ k := Nat.two_pow_pos k
  have hdst := h.2
  simp only [encodedLen] at hdst ⊢
  rw [hk, Nat.pow_add] at hdst ⊢
  omega

/-- A text decodes to no more bytes than it has characters. -/
theorem decodedLen_lt_of_textLen (hn : textLen p m src = some n) : decodedLen (m.bytes src n) < 2 ^ p.aw := by
  have := textLen_lt hn
  simp only [decodedLen, Memory.length_bytes]
  omega

end Sys2Proof.Machine
end

section
/-! SUPPORT. A step on a memory access of the host or another agent (R61, R224). -/

namespace Sys2Proof.Machine

variable {s : State} {a : Nat} {v : Byte} {rest : List Event}

theorem step_memWrite (hs : s.script = .memWrite a v :: rest) : step s = agentWrite (s.setScript rest) a v := by
  simp only [step, hs, takeEvent]

theorem step_memRead (hs : s.script = .memRead a :: rest) : step s = agentRead (s.setScript rest) a := by
  simp only [step, hs, takeEvent]

variable (ha : a < 2 ^ s.params.aw) (hp : s.params.Plain a)
include ha hp

theorem agentWrite_refused (hu : s.InUse a) : agentWrite s a v = .refused .bufferInterference := by
  rw [agentWrite, if_neg (not_not.mpr ha), if_neg (not_not.mpr hp), if_pos hu]

theorem agentRead_free (hw : s.BeingWritten a) :
    agentRead s a = .next ((s.observe (.mem a (Config.freeByte s.draws))).draw 1) := by
  rw [agentRead, if_neg (not_not.mpr ha), if_neg (not_not.mpr hp), if_pos hw]

end Sys2Proof.Machine
end

section
/-! SUPPORT. The empty range, and the operations that have one: ENC of nothing, DEC of the empty text (R60, R137). -/

namespace Sys2Proof

theorem Range.disjoint_empty (r : Range) (a : Nat) : r.Disjoint ⟨a, 0⟩ := .inr (.inl rfl)

theorem Params.plainAll_empty (p : Params) (a : Nat) : p.PlainAll ⟨a, 0⟩ := fun q _ => q.disjoint_empty a

theorem Params.admitsAll_empty (p : Params) (k : AccessKind) (a : Nat) : p.AdmitsAll k ⟨a, 0⟩ :=
  fun d _ _ => d.range.disjoint_empty a

namespace Machine

variable {p : Params} {m : Memory} {src dst : Nat}

/-- Where an operation reads nothing, its verdict does not depend on where. -/
theorem judgeSets_readsNothing (p : Params) (a a' : Nat) (w : Range) :
    judgeSets p ⟨⟨a, 0⟩, w⟩ = judgeSets p ⟨⟨a', 0⟩, w⟩ := by
  have hplain (a : Nat) : p.PlainAll ⟨a, 0⟩ = True := eq_true (p.plainAll_empty a)
  have hadmits (a : Nat) : p.AdmitsAll .read ⟨a, 0⟩ = True := eq_true (p.admitsAll_empty .read a)
  have hd (a : Nat) : (⟨a, 0⟩ : Range).Disjoint w := .inl rfl
  simp only [judgeSets, hplain, hadmits, hd]

theorem encVerdict_nothing (p : Params) (src src' dst : Nat) : encVerdict p src dst 0 = encVerdict p src' dst 0 := by
  have hfits : EncFits p src dst 0 ↔ EncFits p src' dst 0 := by simp [EncFits]
  simp only [encVerdict, hfits, encSets, judgeSets_readsNothing p src src']

/-- DEC of the empty text reads its terminator and writes nothing, so DST may be anything. -/
theorem dec_emptyText (hn : textLen p m src = some 0) (hp : p.Plain src) (ha : p.Admits .read src) :
    decVerdict p m src dst = .complete ∧ (decResult p m src dst).mem = m ∧ (decResult p m src dst).ret = 0 := by
  have hsrc : ∀ a, (⟨src, 0 + 1⟩ : Range).Has a → a = src := fun a ⟨hlo, hhi⟩ => by simp only at hlo hhi; omega
  have hlen : decodedLen (m.bytes src 0) = 0 := (by decide : decodedLen [] = 0)
  have hsets : decSets p m src dst = ⟨⟨src, 0 + 1⟩, ⟨dst, 0⟩⟩ := by simp only [decSets, textRange, hn, hlen]
  have hfits : DecFits p dst (decodedLen (m.bytes src 0)) := fun hpos => absurd hpos (by simp [hlen])
  refine ⟨?_, by simp only [decResult, hn]; rfl, by simp only [decResult, hn]; rfl⟩
  rw [decVerdict_eq_judgeSets hn (by decide : WF []) hfits, hsets]
  exact judgeSets_of ((Params.plainAll_iff _ _).mpr fun a h => hsrc a h ▸ hp) (p.plainAll_empty dst)
    (Range.disjoint_empty _ dst) ((Params.admitsAll_iff _ _ _).mpr fun a h => hsrc a h ▸ ha) (p.admitsAll_empty _ dst)

end Machine
end Sys2Proof
end

section
/-! PROOFS. The statements of 20_memory.md: what is read and written, when it is refused, and the buffers of operations
from START until the host has read DONE. -/

namespace Sys2Proof.Machine

/-! ### The buffers of operations, from START until the host has read DONE -/

/-- Settles O41: a BUSY block's verdict stands because no step changes what it reads (`Change.keeps_fresh`), and START
alone adds sets to those held, which are clear of the others' (`Change.keeps_apart`). -/
theorem everyStepKeepsTheBuffersApart : Obligations.EveryStepKeepsTheBuffersApart :=
  fun _ _ hinv hkept hstep => (step_change hstep).keeps_buffers hinv hkept

/-- Settles O54: the only writers of bytes that a block holds are its own FINISH and its own reset while BUSY. -/
theorem buffersStandUntilDoneIsRead : Obligations.BuffersStandUntilDoneIsRead := by
  intro s t k a b x hinv hkept hstep hb hx ha hne
  exact (step_change hstep).held_writer hinv hkept hb ((b.mem_held_iff x).mpr hx) ha hne

/-- Settles O49: in either order both blocks finish as they would in the memory before (`State.Finishing.two_turns`),
and no address lies in both write sets. -/
theorem finishOrderOfTwoBlocksDoesNotMatter : Obligations.FinishOrderOfTwoBlocksDoesNotMatter := by
  intro s j k x y rest hinv hkept hjk hx hy hxbusy hybusy hxstuck hystuck
  obtain ⟨i, hxruns⟩ := exists_op ((hinv.block?_wf hx).op hxbusy)
  obtain ⟨i', hyruns⟩ := exists_op ((hinv.block?_wf hy).op hybusy)
  have hxf : s.Finishing j x i := ⟨hx, hxbusy, hxstuck, hxruns⟩
  have hyf : s.Finishing k y i' := ⟨hy, hybusy, hystuck, hyruns⟩
  obtain ⟨t1, hsteps1, hscript1, hinv1, hblocks1, hmem1⟩ := (hxf.setScript _).two_turns (hyf.setScript _) hjk
    (hinv.setScript (.turn j :: .turn k :: rest)) (hkept.setScript _) rfl
  obtain ⟨t2, hsteps2, hscript2, hinv2, hblocks2, hmem2⟩ := (hyf.setScript _).two_turns (hxf.setScript _) hjk.symm
    (hinv.setScript (.turn k :: .turn j :: rest)) (hkept.setScript _) rfl
  refine ⟨t1, t2, hsteps1, hsteps2, ?_, Memory.ext hinv1.canon hinv2.canon fun a => ?_, hscript1, hscript2⟩
  · rw [hblocks1, hblocks2]
    exact List.set_comm _ _ hjk
  · have hapart := (Sets.apart_iff _ _).mp
      (hkept.apart j k x y hjk hx hy _ (Block.job_mem_held hxbusy) _ (Block.job_mem_held hybusy)) a
    rw [hmem1, hmem2]
    by_cases hxa : x.job.sets.writes.Has a
    · have hya : ¬ y.job.sets.writes.Has a := fun hya => hapart.1 hxa (.inr hya)
      rw [if_neg hya, if_pos hxa]
      rfl
    · rw [if_neg hxa]
      split
      · rfl
      · exact (hxf.read_outside hinv hkept hxa).trans (hyf.read_outside hinv hkept ‹_›).symm

/-! ### When a START is refused -/

/-- Settles O12: the sets of an operation that is not refused are disjoint. -/
theorem overlappingBuffersAreRefused : Obligations.OverlappingBuffersAreRefused := by
  intro i s b a hb hp hreads hwrites
  refine (exec_refused_or_accepted hb hp).resolve_right fun ⟨_, hv⟩ => ?_
  obtain ⟨-, -, hd⟩ := opSets_accepted hv
  exact (Range.disjoint_iff _ _).mp hd a hreads hwrites

/-- Settles O13: the sets of an operation that is not refused are plain memory. -/
theorem buffersOutsidePlainMemoryAreRefused : Obligations.BuffersOutsidePlainMemoryAreRefused := by
  intro i s b a hb hp ha hplain
  refine (exec_refused_or_accepted hb hp).resolve_right fun ⟨_, hv⟩ => hplain ?_
  obtain ⟨hreads, hwrites, -⟩ := opSets_accepted hv
  exact ha.elim ((Params.plainAll_iff _ _).mp hreads a) ((Params.plainAll_iff _ _).mp hwrites a)

/-- Settles O14: ENC and DEC are not refused only where they fit, and RET is bounded by what fits or by the text. -/
theorem operationsThatDoNotFitAreRefused : Obligations.OperationsThatDoNotFitAreRefused := by
  refine ⟨?enc, ?dec, fun _ _ _ _ => EncFits.ret_le, fun _ _ _ _ => decodedLen_lt_of_textLen⟩
  case enc =>
    intro s b hb hp hunfit
    refine (exec_refused_or_accepted hb hp).resolve_right fun ⟨_, hv⟩ => ?_
    have hpos : 0 < 2 ^ s.params.aw := Nat.two_pow_pos _
    obtain ⟨hsrc, hdst⟩ := encVerdict_fits hv
    rw [encodedLen] at hdst
    omega
  case dec =>
    intro s b n hb hp hn hpos hunfit
    refine (exec_refused_or_accepted hb hp).resolve_right fun ⟨_, hv⟩ => ?_
    obtain ⟨n', hn', -, hf⟩ := decVerdict_accepted hv
    obtain rfl : n' = n := Option.some.inj (hn'.symm.trans hn)
    exact absurd (hf hpos) (by omega)

/-- Settles O16: what another block holds is among the sets that a START must be clear of. -/
theorem interferingStartIsRefused : Obligations.InterferingStartIsRefused := by
  intro i s b k a x y hb hp hk hx hy ha
  refine (exec_refused_or_accepted hb hp).resolve_right fun ⟨hc, _⟩ => ?_
  obtain ⟨hlt, -⟩ := List.getElem?_eq_some_iff.mp hx
  have hapart := hc k hlt hk x hx y ((x.mem_held_iff y).mpr hy)
  obtain ⟨hwrites, hreads⟩ := (Sets.apart_iff _ _).mp hapart a
  exact ha.elim (fun ⟨haw, hay⟩ => hwrites haw hay) fun ⟨har, hay⟩ => hreads har hay

/-! ### Where a text ends, and accesses that are not admitted -/

/-- Settles O17: without a terminator VALID is stuck where the scan meets plain memory only, and DEC is refused. -/
theorem textEndsAtItsFirstTerminator : Obligations.TextEndsAtItsFirstTerminator := by
  refine ⟨textLen_eq_some_iff, ?valid, ?dec⟩
  case valid =>
    intro s b hb hp hw hend hplain hc
    have hstuck : opVerdict .valid s.params s.mem b.src.value b.dst.value b.len.value = .stuck :=
      (validVerdict_unterminated (textLen_eq_none hend)).trans (if_pos ((Params.plainAll_iff _ _).mpr hplain))
    have hexec := exec_started (i := .valid) hb hp ⟨fun _ => hw, nofun, nofun⟩ (stuck := true) hstuck hc
    exact ⟨_, _, hexec, rfl, State.putBlock_block?_same s hb _, rfl, rfl⟩
  case dec =>
    intro s b hb hp hend
    exact (exec_refused_or_accepted hb hp).resolve_right fun ⟨_, hv⟩ =>
      hv _ (decVerdict_unterminated (textLen_eq_none hend))

/-- Settles O34: the verdict is stuck (`opVerdict_stuck`), and a stuck operation is started. -/
theorem unadmittedAccessIsStuck : Obligations.UnadmittedAccessIsStuck := by
  intro i s b a hb hp hw hv hterm ha hc
  have hdenied : ¬ (s.params.AdmitsAll .read (opSets i s.params s.mem b.src.value b.dst.value b.len.value).reads ∧
      s.params.AdmitsAll .write (opSets i s.params s.mem b.src.value b.dst.value b.len.value).writes) := by
    rintro ⟨hreads, hwrites⟩
    exact ha.elim (fun ⟨har, hno⟩ => hno ((Params.admitsAll_iff _ _ _).mp hreads a har))
      fun ⟨haw, hno⟩ => hno ((Params.admitsAll_iff _ _ _).mp hwrites a haw)
  obtain ⟨n, hn⟩ := hterm
  have hstuck := opVerdict_stuck (hn.imp_left fun hn => ⟨n, hn⟩) hv hdenied
  exact ⟨_, _, exec_started hb hp hw (stuck := true) hstuck hc, State.putBlock_block?_same s hb _, rfl, rfl, rfl, rfl⟩

/-! ### Operands that are not used as addresses -/

/-- Settles O23: an empty range meets no other, so it drops out of every condition on the sets. -/
theorem pointersNeverDereferencedAreFree : Obligations.PointersNeverDereferencedAreFree :=
  ⟨fun p _ src src' dst => ⟨encVerdict_nothing p src src' dst, rfl, rfl⟩,
    fun _ _ _ _ => dec_emptyText, fun _ _ _ _ _ _ _ => ⟨rfl, rfl⟩⟩

/-! ### Accesses of the other agents -/

/-- Settles O36: every set of `Block.held` is in use, and its write set is being written. -/
theorem agentAccessToBusyBuffers : Obligations.AgentAccessToBusyBuffers := by
  intro s k a b x v rest hb hx ha hplain
  have hmem := State.block?_mem s hb
  have hheld := (b.mem_held_iff x).mpr hx
  refine ⟨fun hax hs => ?_, fun hax hs => ?_⟩
  · exact (step_memWrite hs).trans (agentWrite_refused (s := s.setScript rest) ha hplain ⟨b, hmem, x, hheld, hax⟩)
  · exact (step_memRead hs).trans (agentRead_free (s := s.setScript rest) ha hplain ⟨b, hmem, x, hheld, hax⟩)

/-- Settles O37: an address in no operation's sets is in no write set, so the read gives memory's own byte. -/
theorem plainMemoryReadsBackWhatWasWritten : Obligations.PlainMemoryReadsBackWhatWasWritten := by
  refine ⟨?plain, ?fault⟩
  case plain =>
    intro s a v rest hwf ha hplain hu hs
    have hbw : ¬ s.BeingWritten a := fun ⟨b, hb, x, hx, hax⟩ => hu ⟨b, hb, x, hx, .inr hax⟩
    have hwrite := (step_memWrite hs).trans (agentWrite_eq (v := v) (s := s.setScript (.memRead a :: rest)) ha
      hplain hu)
    have hread := (step_memRead (s := (s.setScript (.memRead a :: rest)).setMem (s.mem.write a v)) rfl).trans
      (agentRead_eq ha hplain hbw)
    refine ⟨_, (steps_succ 1 hwrite).trans (steps_succ 0 hread), rfl, ?_, rfl, fun x hx => ?_⟩
    · simp [Memory.read_write hwf]
    · exact (Memory.read_write hwf a x v).trans (if_neg hx)
  case fault =>
    rintro s a v rest ha (hs | hs)
    · exact (step_memWrite hs).trans (if_pos (not_lt.mpr ha))
    · exact (step_memRead hs).trans (if_pos (not_lt.mpr ha))

end Sys2Proof.Machine
end

section
/-! SUPPORT. The command byte by its two fields: which bytes decode (R80, R81), and what a CMD write of any other byte
does (R84). -/

namespace Sys2Proof

variable {c : Byte} {i : Instr}

/-- The fields of R21 are the whole byte. -/
theorem reserved_append_op (c : Byte) : commandReserved c ++ commandOp c = c :=
  (BitVec.extractLsb'_append_extractLsb'_eq_extractLsb' (start₁ := 0) (len₁ := 2) rfl).trans BitVec.extractLsb'_eq_self

theorem decode_encode (i : Instr) : decode (encode i) = .ok (i, []) := by
  cases i with
  | valid => exact Laws.RoundTrip.valid.2.1
  | enc => exact Laws.RoundTrip.enc.2.1
  | dec => exact Laws.RoundTrip.dec.2.1

/-- A byte that decodes has its reserved bits zero and the OP of what it decodes to (R21, R81). -/
theorem fields_of_decodeByte (h : decodeByte c = .ok i) : commandReserved c = 0 ∧ commandOp c = i.op := by
  unfold decodeByte at h
  split_ifs at h with hres hvalid henc hdec <;> cases h
  · exact ⟨not_not.mp hres, hvalid⟩
  · exact ⟨not_not.mp hres, henc⟩
  · exact ⟨not_not.mp hres, hdec⟩

/-- The bytes that decode are the command bytes of the operations. -/
theorem decodeByte_eq_ok_iff : decodeByte c = .ok i ↔ c = i.command := by
  constructor
  · intro h
    obtain ⟨hres, hop⟩ := fields_of_decodeByte h
    rw [← reserved_append_op c, hres, hop, Instr.command]
  · rintro rfl
    exact Machine.decodeByte_of_decode (decode_encode i)

theorem decode_cons (h : decodeByte c = .ok i) (rest : List Byte) : decode (c :: rest) = .ok (i, rest) := by
  simp only [decode, h]

theorem decode_singleton_iff : decode [c] = .ok (i, []) ↔ c = i.command :=
  ⟨fun h => decodeByte_eq_ok_iff.mp (Machine.decodeByte_of_decode h),
    fun h => decode_cons (decodeByte_eq_ok_iff.mpr h) []⟩

/-- A byte that is no operation's command byte is rejected (R84). -/
theorem decodeByte_reserved (hvalid : c ≠ 0x01) (henc : c ≠ 0x02) (hdec : c ≠ 0x03) :
    ∃ e, decodeByte c = .error e := by
  cases h : decodeByte c with
  | error e => exact ⟨e, rfl⟩
  | ok i =>
    have hc := decodeByte_eq_ok_iff.mp h
    cases i with
    | valid => exact absurd hc hvalid
    | enc => exact absurd hc henc
    | dec => exact absurd hc hdec

/-- The byte is refused before the phase is looked at. -/
theorem Machine.writeCommand_reserved {s : Machine.State} {k v : Nat} {b : Machine.Block} (hv : v < 2 ^ 8)
    {e : DecodeError} (h : decodeByte (BitVec.ofNat 8 v) = .error e) :
    Machine.writeCommand s k b v = .refused .reservedCommand := by
  simp only [Machine.writeCommand, if_neg (not_not.mpr hv), h]

end Sys2Proof
end

section
/-! SUPPORT. The alphabet, its inverse, and the classes of the byte values (R90, R94, R96). The tables are finite, and
the three facts that relate them row by row are checked by evaluating every row. -/

namespace Sys2Proof.Machine

variable {c : Byte} {v : Sextet}

@[simp] theorem rev_alpha : ∀ v : Sextet, rev (alpha v) = .val v := by decide

theorem alpha_revBits_of_rev : ∀ c : Byte, rev c = .val (revBits c) → alpha (revBits c) = c := by decide

theorem rev_eq_pad_iff : ∀ c : Byte, rev c = .pad ↔ c = PAD := by decide

theorem alpha_injective : Function.Injective alpha := fun v w h =>
  Reverse.val.inj ((rev_alpha v).symm.trans (h ▸ rev_alpha w))

@[simp] theorem revBits_alpha (v : Sextet) : revBits (alpha v) = v := by rw [revBits, rev_alpha]

@[simp] theorem classOf_alpha (v : Sextet) : classOf (alpha v) = .alphaCh := by rw [classOf, rev_alpha]

theorem alpha_of_rev (h : rev c = .val v) : alpha v = c := by
  have hv : revBits c = v := by rw [revBits, h]
  exact hv ▸ alpha_revBits_of_rev c (hv ▸ h)

theorem alpha_revBits (h : classOf c = .alphaCh) : alpha (revBits c) = c := by
  cases hr : rev c with
  | val v => exact alpha_revBits_of_rev c (by rw [revBits, hr])
  | pad | inv => simp [classOf, hr] at h

theorem classOf_eq_padCh_iff : classOf c = .padCh ↔ c = PAD := by
  rw [← rev_eq_pad_iff, classOf]
  cases rev c <;> simp

/-! ### How many bytes are in each class (R97) -/

/-- The byte values of one class of R96. -/
def bytesOfClass (k : CharClass) : Finset Nat := (Finset.range 256).filter fun n => classOf (BitVec.ofNat 8 n) = k

theorem mem_bytesOfClass {k : CharClass} {n : Nat} :
    n ∈ bytesOfClass k ↔ n < 256 ∧ classOf (BitVec.ofNat 8 n) = k := by
  rw [bytesOfClass, Finset.mem_filter, Finset.mem_range]

theorem length_filter_class (k : CharClass) :
    ((List.range 256).filter fun n => decide (classOf (BitVec.ofNat 8 n) = k)).length = (bytesOfClass k).card := rfl

/-- The alphabet is a bijection of the sextets onto the alphabet characters. -/
theorem card_bytesOfClass_alphaCh : (bytesOfClass .alphaCh).card = 64 := by
  have hbij : (bytesOfClass .alphaCh).card = (Finset.range 64).card := by
    refine Finset.card_nbij' (fun n => (revBits (BitVec.ofNat 8 n)).toNat) (fun v => (alpha (BitVec.ofNat 6 v)).toNat)
      (fun n _ => ?_) (fun v _ => ?_) (fun n hn => ?_) (fun v hv => ?_)
    · exact Finset.mem_coe.mpr (Finset.mem_range.mpr (BitVec.isLt _))
    · exact mem_bytesOfClass.mpr ⟨BitVec.isLt _, by simp⟩
    · obtain ⟨hlt, hc⟩ := mem_bytesOfClass.mp hn
      simp [alpha_revBits hc, Nat.mod_eq_of_lt hlt]
    · simp [Nat.mod_eq_of_lt (Finset.mem_range.mp hv)]
  rw [hbij, Finset.card_range]

theorem card_bytesOfClass_padCh : (bytesOfClass .padCh).card = 1 := by
  refine Finset.card_eq_one.mpr ⟨PAD.toNat, Finset.ext fun n => ?_⟩
  rw [mem_bytesOfClass, classOf_eq_padCh_iff, Finset.mem_singleton]
  constructor
  · rintro ⟨hlt, hc⟩
    rw [← hc, BitVec.toNat_ofNat, Nat.mod_eq_of_lt hlt]
  · rintro rfl
    exact ⟨by decide, by decide⟩

/-- The three classes split a finite set, whatever the classifier. -/
theorem CharClass.card_sum (S : Finset Nat) (f : Nat → CharClass) :
    (S.filter (f · = .alphaCh)).card + (S.filter (f · = .padCh)).card + (S.filter (f · = .invalidCh)).card =
      S.card := by
  have hmem : ∀ n ∈ S, f n ∈ ({.alphaCh, .padCh, .invalidCh} : Finset CharClass) := fun n _ => by cases f n <;> decide
  rw [Finset.card_eq_sum_card_fiberwise hmem, Finset.sum_insert (by decide), Finset.sum_insert (by decide),
    Finset.sum_singleton, add_assoc]

theorem card_bytesOfClass_invalidCh : (bytesOfClass .invalidCh).card = 191 := by
  have hsum := CharClass.card_sum (Finset.range 256) fun n => classOf (BitVec.ofNat 8 n)
  have halpha := card_bytesOfClass_alphaCh
  have hpad := card_bytesOfClass_padCh
  rw [Finset.card_range] at hsum
  rw [bytesOfClass] at halpha hpad ⊢
  omega

end Sys2Proof.Machine
end

section
/-! SUPPORT. The bit-shifters bit by bit: what stands at each bit of a group, a sextet and a byte, and that taking a
group apart and putting it together are inverse (R86). -/

namespace Sys2Proof.Machine

variable (b0 b1 b2 : Byte) (s0 s1 s2 s3 : Sextet) (g : Group) (e : Nat) {i : Nat}

theorem getElem_sextetOf (hi : i < 6) : (sextetOf g e)[i] = g.getLsbD (18 - 6 * e + i) := BitVec.getElem_extractLsb' hi

theorem getElem_byteOf (hi : i < 8) : (byteOf g e)[i] = g.getLsbD (16 - 8 * e + i) := BitVec.getElem_extractLsb' hi

theorem getElem_groupOfBytes (hi : i < 24) : (groupOfBytes b0 b1 b2)[i] =
    if i < 8 then b2.getLsbD i else if i < 16 then b1.getLsbD (i - 8) else b0.getLsbD (i - 16) := by
  grind [groupOfBytes]

theorem getElem_groupOfSextets (hi : i < 24) : (groupOfSextets s0 s1 s2 s3)[i] =
    if i < 6 then s3.getLsbD i else if i < 12 then s2.getLsbD (i - 6)
    else if i < 18 then s1.getLsbD (i - 12) else s0.getLsbD (i - 18) := by
  grind [groupOfSextets]

theorem split_eq : split b0 b1 b2 =
    (b0.extractLsb' 2 6, b0.extractLsb' 0 2 ++ b1.extractLsb' 4 4, b1.extractLsb' 0 4 ++ b2.extractLsb' 6 2,
      b2.extractLsb' 0 6) := by
  simp only [split, Prod.mk.injEq]
  refine ⟨?_, ?_, ?_, ?_⟩ <;> ext i hi <;> grind [getElem_sextetOf, getElem_groupOfBytes]

theorem join_eq : join s0 s1 s2 s3 =
    (s0 ++ s1.extractLsb' 4 2, s1.extractLsb' 0 4 ++ s2.extractLsb' 2 4, s2.extractLsb' 0 2 ++ s3) := by
  simp only [join, Prod.mk.injEq]
  refine ⟨?_, ?_, ?_⟩ <;> ext i hi <;> grind [getElem_byteOf, getElem_groupOfSextets]

theorem groupOfSextets_sextetOf :
    groupOfSextets (sextetOf g 0) (sextetOf g 1) (sextetOf g 2) (sextetOf g 3) = g := by
  ext i hi
  grind [getElem_sextetOf, getElem_groupOfSextets]

theorem groupOfBytes_byteOf : groupOfBytes (byteOf g 0) (byteOf g 1) (byteOf g 2) = g := by
  ext i hi
  grind [getElem_byteOf, getElem_groupOfBytes]

theorem byteOf_groupOfBytes : byteOf (groupOfBytes b0 b1 b2) 0 = b0 ∧ byteOf (groupOfBytes b0 b1 b2) 1 = b1 ∧
    byteOf (groupOfBytes b0 b1 b2) 2 = b2 := by
  refine ⟨?_, ?_, ?_⟩ <;> ext i hi <;> grind [getElem_byteOf, getElem_groupOfBytes]

theorem sextetOf_groupOfSextets : sextetOf (groupOfSextets s0 s1 s2 s3) 0 = s0 ∧
    sextetOf (groupOfSextets s0 s1 s2 s3) 1 = s1 ∧ sextetOf (groupOfSextets s0 s1 s2 s3) 2 = s2 ∧
    sextetOf (groupOfSextets s0 s1 s2 s3) 3 = s3 := by
  refine ⟨?_, ?_, ?_, ?_⟩ <;> ext i hi <;> grind [getElem_sextetOf, getElem_groupOfSextets]

theorem join_split :
    join (split b0 b1 b2).1 (split b0 b1 b2).2.1 (split b0 b1 b2).2.2.1 (split b0 b1 b2).2.2.2 = (b0, b1, b2) := by
  obtain ⟨h0, h1, h2⟩ := byteOf_groupOfBytes b0 b1 b2
  simp only [split, join, groupOfSextets_sextetOf, h0, h1, h2]

theorem split_join :
    split (join s0 s1 s2 s3).1 (join s0 s1 s2 s3).2.1 (join s0 s1 s2 s3).2.2 = (s0, s1, s2, s3) := by
  obtain ⟨h0, h1, h2, h3⟩ := sextetOf_groupOfSextets s0 s1 s2 s3
  simp only [split, join, groupOfBytes_byteOf, h0, h1, h2, h3]

end Sys2Proof.Machine
end

section
/-! SUPPORT. The run of a request in two parts (R83): the operand writes, then CMD, WAIT and the read of RET. -/

namespace Sys2Proof

/-- The operand writes of a request (R83). -/
def Request.operandWrites (k : Nat) : Request → List Event
  | .valid src => [.wr k 1 src]
  | .enc dst src n => [.wr k 2 dst, .wr k 1 src, .wr k 3 n]
  | .dec dst src => [.wr k 2 dst, .wr k 1 src]

/-- What follows the operand writes of a request for operation `i` (R83). -/
def runEvents (k : Nat) (i : Instr) : List Event := [.wr k 0 i.command.toNat, .wait k, .rd k 4]

theorem Request.expand_eq (k : Nat) (r : Request) : r.expand k = r.operandWrites k ++ runEvents k r.instr := by
  cases r <;> simp [Request.expand, Request.operandWrites, runEvents, Request.instr, Instr.command, Instr.op]

namespace Machine

variable {s : State} {k v : Nat} {b : Block} {i : Instr} {es rest : List Event}

/-! ### A block put in place of another -/

theorem State.putBlock_putBlock (s : State) (k : Nat) (b b' : Block) :
    (s.putBlock k b).putBlock k b' = s.putBlock k b' := by
  simp only [State.putBlock, List.set_set]

theorem State.putBlock_setScript (s : State) (k : Nat) (b : Block) (es : List Event) :
    (s.putBlock k b).setScript es = (s.setScript es).putBlock k b := rfl

theorem State.putBlock_setMem (s : State) (k : Nat) (b : Block) (m : Memory) :
    (s.putBlock k b).setMem m = (s.setMem m).putBlock k b := rfl

theorem State.putBlock_select (s : State) (k j : Nat) (b : Block) :
    (s.putBlock k b).select j = (s.select j).putBlock k b := rfl

theorem State.putBlock_self (hb : s.block? k = some b) : s.putBlock k b = s := by
  obtain ⟨hk, hget⟩ := List.getElem?_eq_some_iff.mp hb
  rw [State.putBlock, ← hget, List.set_getElem_self]

/-- Which block is the selected one makes no difference to the buffers the others hold. -/
theorem State.ClearOf.putBlock {x : Sets} (h : (s.select k).ClearOf x) (b : Block) :
    ((s.putBlock k b).select k).ClearOf x := by
  intro j hj hjk c hc
  have hother : (s.putBlock k b).block? j = s.block? j := State.putBlock_block?_other s hjk b
  exact h j (by simpa using hj) hjk c (hother ▸ hc)

/-! ### The operand writes -/

/-- The block once the host has written the operands of a request (R83). -/
def Block.withOperands (b : Block) : Request → Block
  | .valid src => { b with src := ⟨src, true⟩ }
  | .enc dst src n => { b with dst := ⟨dst, true⟩, src := ⟨src, true⟩, len := ⟨n, true⟩ }
  | .dec dst src => { b with dst := ⟨dst, true⟩, src := ⟨src, true⟩ }

theorem Block.withOperands_phase (b : Block) (r : Request) : (b.withOperands r).phase = b.phase := by
  cases r <;> rfl

theorem Block.withOperands_written (b : Block) (r : Request) : (b.withOperands r).OperandsWritten r.instr := by
  cases r with
  | valid => exact ⟨fun _ => rfl, nofun, nofun⟩
  | enc => exact ⟨fun _ => rfl, fun _ => rfl, fun _ => rfl⟩
  | dec => exact ⟨fun _ => rfl, fun _ => rfl, nofun⟩

/-- The operands the operation uses are those of the request (R38). -/
theorem Block.withOperands_values (b : Block) {r : Request} {src dst n : Nat} (hr : r.operands = (src, dst, n)) :
    (b.withOperands r).src.value = src ∧ (r.instr ≠ .valid → dst = (b.withOperands r).dst.value) ∧
      (r.instr = .enc → n = (b.withOperands r).len.value) := by
  cases r <;> cases hr
  case valid => exact ⟨rfl, fun h => absurd rfl h, nofun⟩
  case enc => exact ⟨rfl, fun _ => rfl, fun _ => rfl⟩
  case dec => exact ⟨rfl, fun _ => rfl, nofun⟩

/-- A step that only puts another block in place of block `k`, followed by `n` more. -/
theorem steps_putBlock {e : Event} {x x' : Block} (n : Nat)
    (h : step ((s.putBlock k x).setScript (e :: es)) = .next (((s.putBlock k x).setScript es).putBlock k x')) :
    steps (n + 1) ((s.putBlock k x).setScript (e :: es)) = steps n ((s.putBlock k x').setScript es) := by
  rw [steps_succ n h, State.putBlock_setScript, State.putBlock_putBlock, State.putBlock_setScript]

section OperandWrites

variable (hb : s.block? k = some b) (n : Nat) (x : Block) (hp : x.phase ≠ .busy) (hv : v < 2 ^ s.params.aw)
include hb hp hv

theorem steps_wr_src : steps (n + 1) ((s.putBlock k x).setScript (.wr k 1 v :: es)) =
    steps n ((s.putBlock k { x with src := ⟨v, true⟩ }).setScript es) :=
  steps_putBlock n (step_wr_src (s := (s.putBlock k x).setScript _) (s.putBlock_block?_same hb x) hp hv rfl)

theorem steps_wr_dst : steps (n + 1) ((s.putBlock k x).setScript (.wr k 2 v :: es)) =
    steps n ((s.putBlock k { x with dst := ⟨v, true⟩ }).setScript es) :=
  steps_putBlock n (step_wr_dst (s := (s.putBlock k x).setScript _) (s.putBlock_block?_same hb x) hp hv rfl)

theorem steps_wr_len : steps (n + 1) ((s.putBlock k x).setScript (.wr k 3 v :: es)) =
    steps n ((s.putBlock k { x with len := ⟨v, true⟩ }).setScript es) :=
  steps_putBlock n (step_wr_len (s := (s.putBlock k x).setScript _) (s.putBlock_block?_same hb x) hp hv rfl)

end OperandWrites

/-- The operand writes of a request leave its block with the request's operands (R83). -/
theorem steps_operandWrites (hb : s.block? k = some b) (hp : b.phase ≠ .busy) {r : Request}
    (hwf : r.wf s.params = true) (n : Nat) (es : List Event) :
    steps (n + (r.operandWrites k).length) (s.setScript (r.operandWrites k ++ es)) =
      steps n ((s.putBlock k (b.withOperands r)).setScript es) := by
  conv_lhs => rw [← State.putBlock_self hb]
  cases r with
  | valid src => exact steps_wr_src hb n b hp (of_decide_eq_true hwf)
  | enc dst src len =>
    simp only [Request.wf, Bool.and_eq_true, decide_eq_true_eq] at hwf
    obtain ⟨⟨hdst, hsrc⟩, hlen⟩ := hwf
    calc
      _ = _ := steps_wr_dst hb (n + 2) b hp hdst
      _ = _ := steps_wr_src hb (n + 1) { b with dst := ⟨dst, true⟩ } hp hsrc
      _ = _ := steps_wr_len hb n { b with dst := ⟨dst, true⟩, src := ⟨src, true⟩ } hp hlen
  | dec dst src =>
    simp only [Request.wf, Bool.and_eq_true, decide_eq_true_eq] at hwf
    obtain ⟨hdst, hsrc⟩ := hwf
    calc
      _ = _ := steps_wr_dst hb (n + 1) b hp hdst
      _ = _ := steps_wr_src hb n { b with dst := ⟨dst, true⟩ } hp hsrc

/-! ### CMD, WAIT and the read of RET -/

/-- A CMD write of the command byte of a complete operation is its START (R31). -/
theorem step_wr_cmd (hb : s.block? k = some b) (hp : b.phase ≠ .busy) (hw : b.OperandsWritten i)
    (hv : opVerdict i s.params s.mem b.src.value b.dst.value b.len.value = .complete)
    (hc : (s.select k).ClearOf (opSets i s.params s.mem b.src.value b.dst.value b.len.value)) :
    step (s.setScript (.wr k 0 i.command.toNat :: es)) = .next (((s.select k).putBlock k
      (b.started i ⟨opSets i s.params s.mem b.src.value b.dst.value b.len.value, false⟩)).setScript es) := by
  have hbyte : BitVec.ofNat 8 i.command.toNat = i.command := by rw [BitVec.ofNat_toNat, BitVec.setWidth_eq]
  have hstep := stepExecutesTheCommandWritten (s.setScript (.wr k 0 i.command.toNat :: es)) k _ es b i rfl hb hp
    i.command.isLt (decode_singleton_iff.mpr hbyte)
  exact hstep.trans (exec_started (s := (s.setScript es).select k) hb hp hw (stuck := false) hv hc)

/-- A WAIT on a block whose operation is complete lets it finish (R83, R226). -/
theorem State.Finishing.step_wait (hf : s.Finishing k b i) (hs : s.script = .wait k :: es)
    (hv : opVerdict i s.params s.mem b.sSrc b.sDst b.sLen = .complete) :
    step s = .next (((s.select k).setMem (b.resultOf i s.params s.mem).mem).putBlock k
      (b.finished (b.resultOf i s.params s.mem))) := by
  have hexec := exec_finish (i := i) (s := s.select k) hf.found hf.busy
  simp only [State.select_params, State.select_mem, hv] at hexec
  rw [step_wait_of_runnable hs hf.found hf.busy hf.notStuck, blockTurn_busy hf.found hf.busy hf.runs, hexec,
    finishOperation_complete hf.notStuck]
  rfl

/-- A WAIT on a block in DONE is a read that shows it, and is over (R83). -/
theorem step_wait_of_done (hs : s.script = .wait k :: rest) (hb : s.block? k = some b) (hdone : b.phase = .done) :
    step s = .next ((s.setScript rest).putBlock k b.doneRead) := by
  simp [step, hs, takeEvent, waitDone, hb, hdone]

/-- The last poll of a WAIT, and the read of RET after it (R83, R25). -/
theorem steps_poll_rd_ret (hb : s.block? k = some b) (hdone : b.phase = .done)
    (hs : s.script = .wait k :: .rd k 4 :: rest) :
    steps 2 s = .next (((s.setScript rest).putBlock k b.doneRead).observe (.reg k .ret b.ret)) := by
  have hpoll := step_wait_of_done hs hb hdone
  have hret := step_rd_ret_of_done (s := (s.setScript (.rd k 4 :: rest)).putBlock k b.doneRead) (rest := rest)
    (State.putBlock_block?_same (s.setScript _) hb b.doneRead) hdone rfl
  exact (steps_succ 1 hpoll).trans (steps_succ 0 hret)

/-- The host waits for a complete operation, with result `r`, and reads its return value (R83). -/
theorem State.Finishing.steps_wait_rd_ret (hf : s.Finishing k b i) (hs : s.script = .wait k :: .rd k 4 :: rest)
    (hv : opVerdict i s.params s.mem b.sSrc b.sDst b.sLen = .complete) {r : Result}
    (hr : b.resultOf i s.params s.mem = r) :
    steps 3 s = .next (((((s.select k).setMem r.mem).setScript rest).putBlock k (b.finished r).doneRead).observe
      (.reg k .ret r.ret)) := by
  have hfinish := hf.step_wait hs hv
  rw [hr] at hfinish
  have hfinished := State.putBlock_block?_same ((s.select k).setMem r.mem) hf.found (b.finished r)
  rw [steps_succ 2 hfinish, steps_poll_rd_ret hfinished rfl hs, State.putBlock_setScript, State.putBlock_putBlock,
    Block.finished_ret]

/-- The result is that of the operands START has sampled (R31, R38). -/
theorem Block.resultOf_started (b : Block) (i : Instr) (j : Job) (p : Params) (m : Memory) :
    (b.started i j).resultOf i p m = opResult i p m b.src.value b.dst.value b.len.value := by
  cases i <;> rfl

/-- CMD, WAIT and the read of RET run a complete operation, with sets `x` and result `r`, from its START to its end
(R31, R33, R83). -/
theorem steps_runEvents (hb : s.block? k = some b) (hp : b.phase ≠ .busy) (hw : b.OperandsWritten i)
    (hv : opVerdict i s.params s.mem b.src.value b.dst.value b.len.value = .complete) {x : Sets}
    (hx : opSets i s.params s.mem b.src.value b.dst.value b.len.value = x) (hc : (s.select k).ClearOf x) {r : Result}
    (hr : opResult i s.params s.mem b.src.value b.dst.value b.len.value = r) :
    steps 4 (s.setScript (runEvents k i ++ rest)) =
      .next (((((s.select k).setMem r.mem).setScript rest).putBlock k
        ((b.started i ⟨x, false⟩).finished r).doneRead).observe (.reg k .ret r.ret)) := by
  have hstart := step_wr_cmd (es := .wait k :: .rd k 4 :: rest) hb hp hw hv (hx ▸ hc)
  rw [hx] at hstart
  have hf : (((s.select k).putBlock k (b.started i ⟨x, false⟩)).setScript (.wait k :: .rd k 4 :: rest)).Finishing k
      (b.started i ⟨x, false⟩) i :=
    ⟨State.putBlock_block?_same (s.select k) hb _, rfl, rfl, rfl⟩
  have hcomplete := (opVerdict_started b i ⟨x, false⟩ s.params s.mem).1.trans hv
  refine (steps_succ 3 hstart).trans ?_
  rw [hf.steps_wait_rd_ret rfl hcomplete ((b.resultOf_started i _ s.params s.mem).trans hr)]
  simp only [State.putBlock_setScript, State.putBlock_setMem, State.putBlock_select, State.putBlock_putBlock]
  rfl

end Machine
end Sys2Proof
end

section
/-! PROOFS. The statements of 30_encoding.md: the command byte, requests, the tables and the bit-shifters. -/

namespace Sys2Proof.Machine

/-! ### The command byte -/

/-- Settles O1: a byte decodes to an operation exactly when it is its command byte (`decode_singleton_iff`). -/
theorem commandBytesDecodeAsTabled : Obligations.CommandBytesDecodeAsTabled :=
  ⟨fun _ => decode_singleton_iff, fun _ => decode_singleton_iff, fun _ => decode_singleton_iff, rfl, rfl, rfl⟩

/-- Settles O2: the encoding is the command byte alone. -/
theorem decodeAndEncodeAgree : Obligations.DecodeAndEncodeAgree :=
  ⟨fun _ rest => decode_cons (decodeByte_eq_ok_iff.mpr rfl) rest,
    fun _ _ h => by rw [decode_singleton_iff.mp h, encode]⟩

/-- Settles O5: CMD refuses a byte that does not decode, whatever the phase. -/
theorem reservedCommandIsRefused : Obligations.ReservedCommandIsRefused := by
  intro s k v rest b hs hb hv hvalid henc hdec
  have hb' : (s.setScript rest).block? k = some b := hb
  obtain ⟨e, he⟩ := decodeByte_reserved (c := BitVec.ofNat 8 v) (by bv_omega) (by bv_omega) (by bv_omega)
  rw [step_wr hs, hostWrite_cmd hb', writeCommand_reserved hv he]

/-! ### Requests -/

/-- Settles O50: the operand writes leave the request's operands in the block (`steps_operandWrites`), and the events
after them run the operation on these (`steps_runEvents`). -/
theorem requestRunsToItsResult : Obligations.RequestRunsToItsResult := by
  intro s k b r rest src dst n hb hp hwf hops hv hc
  have hput := s.putBlock_block?_same hb (b.withOperands r)
  obtain ⟨rfl, hdst, hlen⟩ := b.withOperands_values hops
  obtain ⟨hverdict, hsets, hresult⟩ :=
    opVerdict_unused (p := s.params) (m := s.mem) (src := (b.withOperands r).src.value) hdst hlen
  have hrun := steps_runEvents (rest := rest) hput (b.withOperands_phase r ▸ hp) (b.withOperands_written r)
    (hverdict.trans hv) hsets (hc.putBlock _) hresult
  have hlength : (r.expand k).length + 1 = 4 + (r.operandWrites k).length := by cases r <;> rfl
  have hsteps := (steps_operandWrites hb hp hwf 4 (runEvents k r.instr ++ rest)).trans hrun
  rw [← List.append_assoc, ← r.expand_eq, ← hlength] at hsteps
  exact ⟨_, _, hsteps, rfl, rfl, rfl, State.putBlock_block?_same _ hput _, rfl, rfl, rfl, fun j hj =>
    (State.putBlock_block?_other _ hj _).trans (s.putBlock_block?_other hj _)⟩

/-- Settles O53: `Block.doneRead` is the block with no finished operation left to be seen. -/
theorem waitEndsWhenDoneIsRead : Obligations.WaitEndsWhenDoneIsRead := fun _ _ _ _ => step_wait_of_done

/-! ### The tables and the bit-shifters -/

/-- Settles O26: the 64 rows are evaluated; the inverse table makes the alphabet injective. -/
theorem alphabetIsTheTabledString : Obligations.AlphabetIsTheTabledString :=
  ⟨by decide, fun _ _ h => alpha_injective h⟩

/-- Settles O27: the alphabet characters are counted by the alphabet, the others by what is left of the 256. -/
theorem inverseTableInvertsTheAlphabet : Obligations.InverseTableInvertsTheAlphabet :=
  ⟨rev_alpha, fun _ _ => alpha_of_rev, rev_eq_pad_iff, (length_filter_class _).trans card_bytesOfClass_alphaCh,
    (length_filter_class _).trans card_bytesOfClass_padCh, (length_filter_class _).trans card_bytesOfClass_invalidCh⟩

/-- Settles O28: SPLIT and JOIN are two ways to read the 24 bits of one group. -/
theorem splitAndJoinAreInverse : Obligations.SplitAndJoinAreInverse :=
  ⟨split_eq, join_eq, join_split, split_join⟩

end Sys2Proof.Machine
end

section
/-! SUPPORT. Texts cut into alphabet characters and padding (R111), and the verdict of VALID's procedure on a text
(R113). -/

namespace Sys2Proof.Machine

variable {p : Params} {m : Memory} {src n k : Nat} {t u : List Byte} {w : Work}

/-! ### Well-formed texts -/

/-- Alphabet characters followed by `q` characters `=` have `q` of padding. -/
theorem padCount_append_replicate (hu : ∀ c ∈ u, classOf c = .alphaCh) (q : Nat) :
    padCount (u ++ List.replicate q PAD) = q := by
  have hnone : u.reverse.takeWhile (fun c => decide (c = PAD)) = [] := by
    refine List.takeWhile_eq_nil_iff.mpr fun hpos => ?_
    simpa using ne_pad_of_class (hu _ (List.mem_reverse.mp (List.getElem_mem hpos)))
  rw [padCount, List.reverse_append, List.reverse_replicate, List.takeWhile_append_of_pos (by simp), hnone]
  simp

/-- Whole groups of alphabet characters followed by at most two characters `=` are a well-formed text. -/
theorem wf_append_replicate (hu : ∀ c ∈ u, classOf c = .alphaCh) {q : Nat} (hq : q ≤ 2)
    (hlen : (u ++ List.replicate q PAD).length % 4 = 0) : WF (u ++ List.replicate q PAD) := by
  refine ⟨hlen, (padCount_append_replicate hu q).trans_le hq, fun c hc => hu c ?_⟩
  simpa [padCount_append_replicate hu] using hc

/-- R115: a non-empty well-formed text has at least four characters, of which at most two are padding. -/
theorem WF.decodedLen_bounds (h : WF t) (hne : t ≠ []) : 1 ≤ decodedLen t ∧ decodedLen t < t.length := by
  obtain ⟨hmod, hpad, -⟩ := h
  have hpos := List.length_pos_iff.mpr hne
  rw [decodedLen]
  omega

theorem WF.classOf_read (h : WF (m.bytes src n)) {q : Nat} (hq : q < n - padCount (m.bytes src n)) :
    classOf (m.read (src + q)) = .alphaCh := by
  rw [← read_text (n := n) (by omega)]
  exact h.classOf_eq (by simpa using hq)

theorem classOf_read_padding {q : Nat} (hq : q < n) (hpad : n - padCount (m.bytes src n) ≤ q) :
    classOf (m.read (src + q)) = .padCh := by
  rw [classOf_eq_padCh_iff, ← read_text hq]
  exact getElem_pad _ (by simpa using hpad)

/-! ### The scan -/

/-- On a well-formed text no character makes the scan reject: before the padding PCNT is 0, and inside it PCNT is the
number of `=` met so far, all of them in the last two positions. -/
theorem validScan_of_wf (hw : WF (m.bytes src n)) (hk : w.ipos + k = n)
    (hpcnt : w.pcnt.toNat = w.ipos - (n - padCount (m.bytes src n))) :
    (validScan m src n k w).1 = 3 * (n / 4) - padCount (m.bytes src n) ∧
      (validScan m src n k w).2.pcnt.toNat = padCount (m.bytes src n) := by
  have hle : padCount (m.bytes src n) ≤ n := by simpa using padCount_le (m.bytes src n)
  have htwo := hw.2.1
  induction k generalizing w with
  | zero =>
    have hend : w.pcnt.toNat = padCount (m.bytes src n) := by omega
    exact ⟨by rw [validScan, hend], hend⟩
  | succ k ih =>
    by_cases hpos : w.ipos < n - padCount (m.bytes src n)
    · simp only [validScan, hw.classOf_read hpos, if_neg (show ¬ 0 < w.pcnt.toNat by omega)]
      exact ih (by simp only; omega) (by simp only; omega)
    · have hclass : classOf (m.read (src + w.ipos)) = .padCh := classOf_read_padding (by omega) (not_lt.mp hpos)
      simp only [validScan, hclass, if_neg (show ¬ w.ipos < n - 2 by omega)]
      exact ih (by simp only; omega) (by simp only; bv_omega)

/-- A scan that does not finish with 0 has met alphabet characters and then at most two characters `=`, and no alphabet
character once PCNT counts a `=`. PCNT counts only in the last two positions, so its two bits suffice. -/
theorem padded_of_validScan_ne_zero (h : (validScan m src n k w).1 ≠ 0) (hn : 2 ≤ n) (hk : w.ipos + k = n)
    (hpcnt : w.pcnt.toNat ≤ w.ipos - (n - 2)) :
    ∃ u q, m.bytes (src + w.ipos) k = u ++ List.replicate q PAD ∧ (∀ c ∈ u, classOf c = .alphaCh) ∧ q ≤ 2 ∧
      (0 < w.pcnt.toNat → u = []) := by
  induction k generalizing w with
  | zero => exact ⟨[], 0, rfl, nofun, Nat.zero_le _, fun _ => rfl⟩
  | succ k ih =>
    rw [validScan] at h
    cases hclass : classOf (m.read (src + w.ipos)) with
    | invalidCh => simp [hclass] at h
    | padCh =>
      simp only [hclass] at h
      split at h
      · exact absurd rfl h
      · obtain ⟨u, q, hbytes, -, -, hnil⟩ := ih h (by simp only; omega) (by simp only; bv_omega)
        obtain rfl : u = [] := hnil (by simp only; bv_omega)
        have hq : q = k := by simpa using (congrArg List.length hbytes).symm
        refine ⟨[], q + 1, ?_, nofun, by omega, fun _ => rfl⟩
        rw [Memory.bytes, classOf_eq_padCh_iff.mp hclass, Nat.add_assoc, hbytes]
        rfl
    | alphaCh =>
      simp only [hclass] at h
      split at h
      · exact absurd rfl h
      · next hzero =>
        obtain ⟨u, q, hbytes, hu, hq, -⟩ := ih h (by simp only; omega) (by simp only; omega)
        refine ⟨_ :: u, q, ?_, List.forall_mem_cons.mpr ⟨hclass, hu⟩, hq, fun hpos => absurd hpos hzero⟩
        rw [Memory.bytes, Nat.add_assoc, hbytes]
        rfl

/-! ### The whole of VALID -/

/-- On a text of whole groups that is not empty VALID is its scan from a clear PCNT on. -/
theorem validRun_eq_scan (hn : n ≠ 0) (hmod : n % 4 = 0) :
    validRun m src n =
      { mem := m
        work := (validScan m src n n { Work.clear with slen := n }).2
        ret := (validScan m src n n { Work.clear with slen := n }).1 } := by
  rw [validRun, if_neg hn, if_neg (not_not.mpr hmod)]

/-- VALID gives a well-formed text its decoded length and counts its padding (R113, R114). -/
theorem validRun_of_wf (hw : WF (m.bytes src n)) :
    (validRun m src n).ret = 3 * (n / 4) - padCount (m.bytes src n) ∧
      (validRun m src n).work.pcnt.toNat = padCount (m.bytes src n) := by
  by_cases hn : n = 0
  · subst hn
    exact ⟨rfl, rfl⟩
  · rw [validRun_eq_scan hn (by simpa using hw.1)]
    exact validScan_of_wf hw (Nat.zero_add n) (Nat.zero_sub _).symm

/-- A text on which VALID does not finish with 0 is well-formed. -/
theorem wf_of_validRun_ret_ne_zero (h : (validRun m src n).ret ≠ 0) : WF (m.bytes src n) := by
  by_cases hn : n = 0
  · subst hn
    exact absurd rfl h
  by_cases hmod : n % 4 = 0
  · rw [validRun_eq_scan hn hmod] at h
    obtain ⟨u, q, hbytes, hu, hq, -⟩ := padded_of_validScan_ne_zero h (by omega) (Nat.zero_add n) (Nat.zero_le _)
    rw [Work.clear_ipos, Nat.add_zero] at hbytes
    rw [hbytes]
    exact wf_append_replicate hu hq (by rw [← hbytes, Memory.length_bytes, hmod])
  · rw [validRun, if_neg hn, if_pos hmod] at h
    exact absurd rfl h

/-- RET of VALID in one equation: the decoded length of a well-formed text, 0 of any other (R113). -/
theorem validRun_ret (m : Memory) (src n : Nat) : (validRun m src n).ret =
    if WF (m.bytes src n) then 3 * (n / 4) - padCount (m.bytes src n) else 0 := by
  split
  · next hw => exact (validRun_of_wf hw).1
  · next hw => exact Decidable.not_not.mp fun hne => hw (wf_of_validRun_ret_ne_zero hne)

theorem validResult_eq_validRun (hn : textLen p m src = some n) : validResult p m src = validRun m src n := by
  simp only [validResult, hn]

/-- VALID is complete where its text and the terminator are plain memory admitted for reading (R59, R63). -/
theorem validVerdict_eq_complete (hn : textLen p m src = some n)
    (hreads : ∀ k ≤ n, p.Plain (src + k) ∧ p.Admits .read (src + k)) : validVerdict p m src = .complete := by
  have hsets : validSets p m src = ⟨⟨src, n + 1⟩, ⟨0, 0⟩⟩ := by simp only [validSets, textRange, hn]
  have hread : ∀ a, (⟨src, n + 1⟩ : Range).Has a → p.Plain a ∧ p.Admits .read a := fun a ⟨hlo, hhi⟩ => by
    simpa [Nat.add_sub_cancel' hlo] using hreads (a - src) (by simp only at hlo hhi; omega)
  rw [validVerdict_eq_judgeSets hn, hsets]
  exact judgeSets_of ((p.plainAll_iff _).mpr fun a ha => (hread a ha).1) (p.plainAll_empty 0)
    (Range.disjoint_empty _ 0) ((p.admitsAll_iff _ _).mpr fun a ha => (hread a ha).2) (p.admitsAll_empty _ 0)

end Sys2Proof.Machine
end

section
/-! PROOFS. The statements of 40_validator.md: what VALID accepts, when it returns 0, and its FINISH. -/

namespace Sys2Proof.Machine

/-- Settles O18: the scan goes through a well-formed text (`validScan_of_wf`), and a text it goes through is
well-formed (`padded_of_validScan_ne_zero`). -/
theorem validatorAcceptsExactlyWellFormedTexts : Obligations.ValidatorAcceptsExactlyWellFormedTexts :=
  fun m src n => ⟨validRun_of_wf, fun hw => (validRun_ret m src n).trans (if_neg hw)⟩

/-- Settles O19: RET is the decoded length of a well-formed text, which is at least 1 where the text is not empty. -/
theorem validReturnsZeroExactlyForEmptyOrMalformed : Obligations.ValidReturnsZeroExactlyForEmptyOrMalformed := by
  refine ⟨fun t => WF.decodedLen_bounds, fun m src n => ⟨fun hret => ?_, ?_⟩⟩
  · by_contra hor
    obtain ⟨hn, hw⟩ := not_or.mp hor
    have hwf := not_not.mp hw
    have hpos := (hwf.decodedLen_bounds (List.ne_nil_of_length_pos (by simpa [Nat.pos_iff_ne_zero] using hn))).1
    rw [decodedLen, Memory.length_bytes, ← (validRun_of_wf hwf).1, hret] at hpos
    exact absurd hpos (by decide)
  · rintro (rfl | hw)
    · rfl
    · exact (validRun_ret m src n).trans (if_neg hw)

/-- Settles O20: the operation is complete (`validVerdict_eq_complete`), so FINISH stores the RET of its procedure
(`validRun_ret`) and the memory as it was. -/
theorem validFinishReturnsDecodedLength : Obligations.ValidFinishReturnsDecodedLength := by
  intro s b n hb hbusy hstuck hn hreads
  have hexec : exec .valid s =
      .next ((s.setMem (validRun s.mem b.sSrc n).mem).putBlock s.sel (b.finished (validRun s.mem b.sSrc n))) := by
    rw [exec_finish hb hbusy, opVerdict, opResult, validVerdict_eq_complete hn hreads, validResult_eq_validRun hn]
    exact finishOperation_complete hstuck
  exact ⟨_, _, hexec, State.putBlock_block?_same (s.setMem _) hb _, validRun_ret _ _ _, rfl, Phase.status_done,
    (validRun_frame _ _ _).1⟩

end Sys2Proof.Machine
end

section
/-! SUPPORT. The closed form of ENC's text (R134): each character by the group it stands in, the text cut into alphabet
characters and padding, and the bits its padded group discards (R174). -/

namespace Sys2Proof.Machine

variable {bs : List Byte} {m : Memory} {src n q : Nat}

/-! ### The groups of a byte sequence -/

/-- The group `g` of a byte sequence, its missing bytes zero (R134). -/
def byteGroup (bs : List Byte) (g : Nat) : Group :=
  groupOfBytes (bs.getD (3 * g) 0) (bs.getD (3 * g + 1) 0) (bs.getD (3 * g + 2) 0)

/-- The closed form of R134 by the groups of R132: a group has one real character more than there are bytes left for
it, as far as its four positions go. -/
theorem encChar_eq_groupChar (bs : List Byte) (q : Nat) :
    encChar bs q = groupChar (byteGroup bs (q / 4)) (bs.length + 1 - 3 * (q / 4)) (q % 4) := by
  rw [encChar, groupChar]
  split
  · rw [if_neg (by omega)]
  · rw [if_pos (by omega), byteGroup]

theorem Memory.getD_bytes (m : Memory) (a n k : Nat) :
    (m.bytes a n).getD k 0 = if k < n then m.read (a + k) else 0 := by
  rw [List.getD_eq_getElem?_getD, Memory.getElem?_bytes]
  split <;> rfl

theorem byteGroup_of_full {g : Nat} (hg : g < n / 3) : byteGroup (m.bytes src n) g = groupAt m (src + 3 * g) := by
  simp only [byteGroup, groupAt, Memory.getD_bytes]
  rw [if_pos (by omega), if_pos (by omega), if_pos (by omega)]
  rfl

theorem byteGroup_of_partial (hr : n % 3 ≠ 0) :
    byteGroup (m.bytes src n) (n / 3) = tailGroup m (src + 3 * (n / 3)) (n % 3) := by
  simp only [byteGroup, tailGroup, Memory.getD_bytes]
  rw [if_pos (by omega), if_neg (show ¬ 3 * (n / 3) + 2 < n by omega)]
  by_cases hone : n % 3 = 1
  · rw [if_neg (by omega), if_pos hone]
  · rw [if_pos (by omega), if_neg hone]
    rfl

/-! ### Alphabet characters and padding -/

/-- How many characters `=` end the text of `n` bytes (R136). -/
def encPadding (n : Nat) : Nat := (3 - n % 3) % 3

theorem encPadding_le (n : Nat) : encPadding n ≤ 2 ∧ encPadding n ≤ encodedLen n := by
  rw [encPadding, encodedLen_eq]
  split <;> omega

theorem encodedLen_mod_four (n : Nat) : encodedLen n % 4 = 0 := Nat.mul_mod_right 4 _

/-- Three bytes a group but for the padding are the `n` bytes encoded (R115, R135). -/
theorem encodedLen_sub_encPadding (n : Nat) : 3 * (encodedLen n / 4) - encPadding n = n := by
  rw [encPadding, encodedLen_eq]
  split <;> omega

/-- The characters before the padding are the real characters of their groups (R132). -/
theorem lt_sub_encPadding_iff (hq : q < encodedLen n) :
    q < encodedLen n - encPadding n ↔ q % 4 < n + 1 - 3 * (q / 4) := by
  have hlen := encodedLen_eq n
  rw [encPadding]
  split at hlen <;> omega

theorem encChar_of_lt (hq : q < encodedLen bs.length - encPadding bs.length) :
    encChar bs q = alpha (sextetOf (byteGroup bs (q / 4)) (q % 4)) := by
  rw [encChar_eq_groupChar, groupChar, if_pos ((lt_sub_encPadding_iff (by omega)).mp hq)]

theorem encChar_of_le (hlo : encodedLen bs.length - encPadding bs.length ≤ q) (hhi : q < encodedLen bs.length) :
    encChar bs q = PAD := by
  rw [encChar_eq_groupChar, groupChar, if_neg ((lt_sub_encPadding_iff hhi).not.mp (not_lt.mpr hlo))]

@[simp] theorem length_encodeBytes (bs : List Byte) : (encodeBytes bs).length = encodedLen bs.length := by
  rw [encodeBytes, List.length_map, List.length_range]

theorem getD_encodeBytes (hq : q < encodedLen bs.length) : (encodeBytes bs).getD q PAD = encChar bs q := by
  rw [encodeBytes, List.getD_eq_getElem?_getD, List.getElem?_map, List.getElem?_range hq]
  rfl

theorem revBits_encodeBytes (hq : q < encodedLen bs.length - encPadding bs.length) :
    revBits ((encodeBytes bs).getD q PAD) = sextetOf (byteGroup bs (q / 4)) (q % 4) := by
  rw [getD_encodeBytes (by omega), encChar_of_lt hq, revBits_alpha]

/-- The characters of ENC's text before its padding. -/
def encChars (bs : List Byte) : List Byte :=
  (List.range (encodedLen bs.length - encPadding bs.length)).map (encChar bs)

theorem classOf_of_mem_encChars {c : Byte} (hc : c ∈ encChars bs) : classOf c = .alphaCh := by
  obtain ⟨q, hq, rfl⟩ := List.mem_map.mp hc
  rw [encChar_of_lt (List.mem_range.mp hq), classOf_alpha]

theorem encodeBytes_eq (bs : List Byte) :
    encodeBytes bs = encChars bs ++ List.replicate (encPadding bs.length) PAD := by
  obtain ⟨chars, hlen⟩ := Nat.exists_eq_add_of_le' (encPadding_le bs.length).2
  rw [encodeBytes, encChars, hlen, Nat.add_sub_cancel, List.range_add, List.map_append, List.map_map]
  congr 1
  refine List.eq_replicate_iff.mpr ⟨by simp, fun c hc => ?_⟩
  obtain ⟨k, hk, rfl⟩ := List.mem_map.mp hc
  have hk := List.mem_range.mp hk
  exact encChar_of_le (by simp only; omega) (by simp only; omega)

theorem padCount_encodeBytes (bs : List Byte) : padCount (encodeBytes bs) = encPadding bs.length := by
  rw [encodeBytes_eq]
  exact padCount_append_replicate (fun _ => classOf_of_mem_encChars) _

theorem wf_encodeBytes (bs : List Byte) : WF (encodeBytes bs) := by
  have hlen := length_encodeBytes bs
  rw [encodeBytes_eq] at hlen ⊢
  exact wf_append_replicate (fun _ => classOf_of_mem_encChars) (encPadding_le _).1
    (hlen ▸ encodedLen_mod_four bs.length)

theorem nul_not_mem_encodeBytes (bs : List Byte) : NUL ∉ encodeBytes bs := by
  rw [encodeBytes_eq, List.mem_append, not_or]
  exact ⟨fun h => ne_nul_of_class (classOf_of_mem_encChars h) rfl,
    fun h => absurd (List.eq_of_mem_replicate h) (by decide)⟩

/-! ### The discarded bits -/

/-- The low bits of sextet 1 are the high bits of byte 1 (R86). -/
theorem extractLsb'_sextetOf_one (b0 b1 b2 : Byte) :
    (sextetOf (groupOfBytes b0 b1 b2) 1).extractLsb' 0 4 = b1.extractLsb' 4 4 := by
  ext i hi
  grind [getElem_sextetOf, getElem_groupOfBytes]

/-- The low bits of sextet 2 are the high bits of byte 2 (R86). -/
theorem extractLsb'_sextetOf_two (b0 b1 b2 : Byte) :
    (sextetOf (groupOfBytes b0 b1 b2) 2).extractLsb' 0 2 = b2.extractLsb' 6 2 := by
  ext i hi
  grind [getElem_sextetOf, getElem_groupOfBytes]

/-- The bits discarded come from the bytes that are missing, which ENC takes to be zero (R174). -/
theorem canonical_encodeBytes (bs : List Byte) : Canonical (encodeBytes bs) := by
  have hzero : ∀ k, bs.length ≤ k → bs.getD k 0 = 0 := fun k hk => List.getD_eq_default _ _ hk
  have hlen := encodedLen_eq bs.length
  rw [Canonical, padCount_encodeBytes, length_encodeBytes]
  refine ⟨fun hpad => ?_, fun hpad => ?_⟩
  · have hr : bs.length % 3 = 1 := by rw [encPadding] at hpad; omega
    rw [if_neg (by omega)] at hlen
    rw [revBits_encodeBytes (by omega), show (encodedLen bs.length - 3) % 4 = 1 by omega, byteGroup,
      extractLsb'_sextetOf_one, hzero _ (by omega)]
    rfl
  · have hr : bs.length % 3 = 2 := by rw [encPadding] at hpad; omega
    rw [if_neg (by omega)] at hlen
    rw [revBits_encodeBytes (by omega), show (encodedLen bs.length - 2) % 4 = 2 by omega, byteGroup,
      extractLsb'_sextetOf_two, hzero _ (by omega)]
    rfl

/-- VALID on ENC's text returns how many bytes were encoded (R136). -/
theorem validRun_of_encodeBytes (h : m.bytes src (encodedLen bs.length) = encodeBytes bs) :
    (validRun m src (encodedLen bs.length)).ret = bs.length := by
  rw [(validRun_of_wf (h ▸ wf_encodeBytes bs)).1, h, padCount_encodeBytes, encodedLen_sub_encPadding]

end Sys2Proof.Machine
end

section
/-! SUPPORT. The bytes ENC leaves at its destination are the closed form of its text (R133, R134), and where ENC is
complete. -/

namespace Sys2Proof.Machine

variable {p : Params} {m : Memory} {src dst n q : Nat}

/-- The padding logic writes the partial group, where there is one, and nothing else. -/
theorem encTail_read {r : Nat} (hr : r < 3) (h : m.wf = true) (w : Work) (x : Nat) :
    (encTail src dst r m w).1.read x =
      if r ≠ 0 ∧ dst + w.opos ≤ x ∧ x < dst + w.opos + 4 then
        groupChar (tailGroup m (src + w.ipos) r) (r + 1) (x - (dst + w.opos))
      else m.read x := by
  rw [encTail_eq _ _ _ _ _ hr]
  split
  · next h0 => rw [if_neg (fun hx => hx.1 h0)]
  · next h0 => simp only [encGroup_read h, h0, ne_eq, not_false_eq_true, true_and]

/-- Memory as ENC leaves it: the full groups, the partial group, the terminator (R133). -/
theorem encResult_mem (h : m.wf = true) (src dst n : Nat) : (encResult m src dst n).mem =
    (encTail src dst (n % 3) (encLoop src dst (n / 3) m .clear).1
      (encLoop src dst (n / 3) m .clear).2).1.write (dst + encodedLen n) NUL := by
  obtain ⟨-, hopos, -⟩ := encResult_frame h src dst n
  have hr : n - (encLoop src dst (n / 3) m .clear).2.ipos = n % 3 := by
    rw [(encLoop_work src dst (n / 3) m .clear).1, Work.clear_ipos]
    omega
  simp only [encResult, hr] at hopos ⊢
  rw [hopos]

/-- A character of ENC's text stands as the loop left it in a full group, as the padding logic left it otherwise. -/
theorem encResult_read (h : m.wf = true) (hq : q < encodedLen n) : (encResult m src dst n).mem.read (dst + q) =
    if q < 4 * (n / 3) then (encLoop src dst (n / 3) m .clear).1.read (dst + q)
    else groupChar (tailGroup (encLoop src dst (n / 3) m .clear).1 (src + 3 * (n / 3)) (n % 3)) (n % 3 + 1)
      (q - 4 * (n / 3)) := by
  have hlt := Nat.mod_lt n (show 0 < 3 by decide)
  have hloop := encLoop_wf src dst (n / 3) h .clear
  obtain ⟨hipos, hopos, -⟩ := encLoop_work src dst (n / 3) m .clear
  rw [Work.clear_ipos, Nat.zero_add] at hipos
  rw [Work.clear_opos, Nat.zero_add] at hopos
  rw [encResult_mem h, Memory.read_write (encTail_wf hlt hloop _), if_neg (by omega), encTail_read hlt hloop, hipos,
    hopos]
  rw [encodedLen_eq] at hq
  split at hq
  · rw [if_neg (by omega), if_pos (by omega)]
  · by_cases hfull : q < 4 * (n / 3)
    · rw [if_neg (by omega), if_pos hfull]
    · rw [if_pos (by omega), if_neg hfull, Nat.add_sub_add_left]

/-- Where the read set and the write set are apart, the bytes at the destination are the text of the bytes read
(R134). -/
theorem encResult_text (h : m.wf = true) (hd : (encSets src dst n).reads.Disjoint (encSets src dst n).writes)
    (hq : q < encodedLen n) : (encResult m src dst n).mem.read (dst + q) = encChar (m.bytes src n) q := by
  have hlen := encodedLen_eq n
  have hapart : ∀ x, src ≤ x → x < src + n → ¬ (dst ≤ x ∧ x < dst + 4 * (n / 3)) := fun x hlo hhi hx =>
    (Range.disjoint_iff _ _).mp hd x ⟨hlo, hhi⟩ ⟨hx.1, by simp only [encSets]; omega⟩
  rw [encResult_read h hq, encChar_eq_groupChar, Memory.length_bytes]
  split
  · next hfull =>
    have hread := encLoop_inside src dst (n / 3) h .clear
      (fun x hlo hhi => hapart x hlo (by rw [Work.clear_ipos] at hhi; omega))
      (show q / 4 < n / 3 by omega) (Nat.mod_lt q (by decide))
    rw [Work.clear_opos, Work.clear_ipos, Nat.add_zero, Nat.add_zero, Nat.add_assoc, Nat.div_add_mod] at hread
    rw [hread, groupChar, if_pos (by omega), byteGroup_of_full (by omega)]
  · next hpart =>
    have hr : n % 3 ≠ 0 := fun h0 => by rw [if_pos h0] at hlen; omega
    rw [if_neg hr] at hlen
    have hkeep : ∀ x, src ≤ x → x < src + n → (encLoop src dst (n / 3) m .clear).1.read x = m.read x :=
      fun x hlo hhi => encLoop_outside src dst (n / 3) h .clear (hapart x hlo hhi)
    have hgroup : tailGroup (encLoop src dst (n / 3) m .clear).1 (src + 3 * (n / 3)) (n % 3) =
        tailGroup m (src + 3 * (n / 3)) (n % 3) := by
      rw [tailGroup, tailGroup, hkeep _ (by omega) (by omega)]
      split
      · rfl
      · rw [hkeep _ (by omega) (by omega)]
    rw [hgroup, ← byteGroup_of_partial hr, show q / 4 = n / 3 by omega, show q - 4 * (n / 3) = q % 4 by omega,
      show n % 3 + 1 = n + 1 - 3 * (n / 3) by omega]

/-- ENC is complete where it fits and its sets are apart, plain and admitted (R56, R59, R62, R63). -/
theorem encVerdict_eq_complete (hf : EncFits p src dst n)
    (hreads : ∀ a, (encSets src dst n).reads.Has a →
      p.Plain a ∧ p.Admits .read a ∧ ¬ (encSets src dst n).writes.Has a)
    (hwrites : ∀ a, (encSets src dst n).writes.Has a → p.Plain a ∧ p.Admits .write a) :
    encVerdict p src dst n = .complete := by
  rw [encVerdict_eq_judgeSets hf]
  exact judgeSets_of ((p.plainAll_iff _).mpr fun a ha => (hreads a ha).1)
    ((p.plainAll_iff _).mpr fun a ha => (hwrites a ha).1)
    ((Range.disjoint_iff _ _).mpr fun a ha => (hreads a ha).2.2)
    ((p.admitsAll_iff _ _).mpr fun a ha => (hreads a ha).2.1)
    ((p.admitsAll_iff _ _).mpr fun a ha => (hwrites a ha).2)

end Sys2Proof.Machine
end

section
/-! PROOFS. The statements of 41_encoder.md: the FINISH of ENC, and the text it writes. -/

namespace Sys2Proof.Machine

/-- Settles O21: the operation is complete (`encVerdict_eq_complete`), so FINISH leaves the text (`encResult_text`) and
the terminator, and memory outside the write set as it was (`encResult_frame`). -/
theorem encFinishWritesTheText : Obligations.EncFinishWritesTheText := by
  intro s b hwf hb hbusy hstuck hsrc hdst hreads hwrites
  have hexec : exec .enc s = .next ((s.setMem (encResult s.mem b.sSrc b.sDst b.sLen).mem).putBlock s.sel
      (b.finished (encResult s.mem b.sSrc b.sDst b.sLen))) := by
    rw [exec_finish hb hbusy, opVerdict, opResult, encVerdict_eq_complete ⟨hsrc, hdst⟩ hreads hwrites]
    exact finishOperation_complete hstuck
  have hd := (Range.disjoint_iff _ _).mpr fun a ha => (hreads a ha).2.2
  obtain ⟨-, -, -, hret, -, hframe, hnul⟩ := encResult_frame hwf b.sSrc b.sDst b.sLen
  exact ⟨_, _, hexec, State.putBlock_block?_same (s.setMem _) hb _, hret, rfl, Phase.status_done,
    fun q hq => encResult_text hwf hd hq, hnul, hframe⟩

/-- Settles O22: the text is alphabet characters and then its padding (`encodeBytes_eq`), and the bits that its padded
group discards are those of missing bytes. -/
theorem encodedTextIsWellFormedAndCanonical : Obligations.EncodedTextIsWellFormedAndCanonical := fun bs =>
  ⟨wf_encodeBytes bs, canonical_encodeBytes bs, padCount_encodeBytes bs, nul_not_mem_encodeBytes bs,
    fun _ _ => validRun_of_encodeBytes⟩

end Sys2Proof.Machine
end

section
/-! SUPPORT. The bytes DEC leaves at its destination are the closed form of its text (R153, R154), and which texts it
refuses (R157). -/

namespace Sys2Proof

theorem Range.forall_has_iff {lo len : Nat} {P : Nat → Prop} :
    (∀ a, (⟨lo, len⟩ : Range).Has a → P a) ↔ ∀ k < len, P (lo + k) := by
  refine ⟨fun h k hk => h _ ⟨Nat.le_add_right lo k, Nat.add_lt_add_left hk lo⟩, fun h a ⟨hlo, hhi⟩ => ?_⟩
  simpa [Nat.add_sub_cancel' hlo] using h (a - lo) (by simp only at hlo hhi; omega)

namespace Machine

variable {p : Params} {m : Memory} {src dst n j k : Nat}

/-! ### The texts DEC refuses -/

theorem textAt_eq_some_iff {t : List Byte} :
    textAt p m src = some t ↔ ∃ n, textLen p m src = some n ∧ m.bytes src n = t := Option.map_eq_some_iff

theorem decSets_eq (hn : textLen p m src = some n) :
    decSets p m src dst = ⟨⟨src, n + 1⟩, ⟨dst, decodedLen (m.bytes src n)⟩⟩ := by
  simp only [decSets, textRange, hn]

/-- A malformed text is a cause of DEC's own rule, not of its access sets (R59, R62, R63). -/
theorem judgeSets_ne_malformedText (p : Params) (x : Sets) : judgeSets p x ≠ .refuse .malformedText := by
  unfold judgeSets
  split
  · nofun
  · split
    · nofun
    · split <;> nofun

/-- Of the terminated texts DEC refuses as malformed exactly those that are not well-formed (R157). -/
theorem decVerdict_malformed_iff (hn : textLen p m src = some n) :
    decVerdict p m src dst = .refuse .malformedText ↔ ¬ WF (m.bytes src n) := by
  refine ⟨fun h hw => ?_, fun hw => by simp only [decVerdict, hn, if_pos hw]⟩
  by_cases hf : DecFits p dst (decodedLen (m.bytes src n))
  · exact judgeSets_ne_malformedText _ _ ((decVerdict_eq_judgeSets hn hw hf).symm.trans h)
  · simp only [decVerdict, hn, if_neg (not_not.mpr hw), if_pos hf] at h
    exact absurd h (by decide)

/-- DEC is complete where its text is well-formed, it fits, and its sets are apart, plain and admitted (R56, R59, R62,
R63). -/
theorem decVerdict_eq_complete (hn : textLen p m src = some n) (hw : WF (m.bytes src n))
    (hf : DecFits p dst (decodedLen (m.bytes src n)))
    (hreads : ∀ k ≤ n, p.Plain (src + k) ∧ p.Admits .read (src + k) ∧
      ¬ (decSets p m src dst).writes.Has (src + k))
    (hwrites : ∀ k < decodedLen (m.bytes src n), p.Plain (dst + k) ∧ p.Admits .write (dst + k)) :
    decVerdict p m src dst = .complete := by
  have hread : ∀ a, (⟨src, n + 1⟩ : Range).Has a →
      p.Plain a ∧ p.Admits .read a ∧ ¬ (decSets p m src dst).writes.Has a :=
    Range.forall_has_iff.mpr fun k hk => hreads k (Nat.le_of_lt_succ hk)
  have hwrite := (Range.forall_has_iff (P := fun a => p.Plain a ∧ p.Admits .write a)).mpr hwrites
  rw [decSets_eq hn] at hread
  rw [decVerdict_eq_judgeSets hn hw hf, decSets_eq hn]
  exact judgeSets_of ((p.plainAll_iff _).mpr fun a ha => (hread a ha).1)
    ((p.plainAll_iff _).mpr fun a ha => (hwrite a ha).1)
    ((Range.disjoint_iff _ _).mpr fun a ha => (hread a ha).2.2)
    ((p.admitsAll_iff _ _).mpr fun a ha => (hread a ha).2.1)
    ((p.admitsAll_iff _ _).mpr fun a ha => (hwrite a ha).2)

theorem decResult_eq_decRun (hn : textLen p m src = some n) : decResult p m src dst = decRun m src dst n := by
  simp only [decResult, hn]

/-- A complete DEC has a well-formed text that its write set does not meet (R157, R62). -/
theorem decVerdict_complete_apart (hn : textLen p m src = some n) (h : decVerdict p m src dst = .complete) :
    WF (m.bytes src n) ∧
      ∀ x, (⟨src, n + 1⟩ : Range).Has x → ¬ (⟨dst, decodedLen (m.bytes src n)⟩ : Range).Has x := by
  obtain ⟨n', hn', hw, -, hj⟩ := decVerdict_complete h
  obtain rfl : n = n' := Option.some.inj (hn.symm.trans hn')
  obtain ⟨-, -, hd, -, -⟩ := judgeSets_complete hj
  rw [decSets_eq hn] at hd
  exact ⟨hw, (Range.disjoint_iff _ _).mp hd⟩

/-! ### The groups of a text -/

theorem Memory.getD_bytes_of_lt (hk : k < n) (d : Byte) : (m.bytes src n).getD k d = m.read (src + k) := by
  rw [List.getD_eq_getElem?_getD, Memory.getElem?_bytes, if_pos hk]
  rfl

/-- The closed form of R154 by the groups of R152: byte `k` is in group `k / 3`. -/
theorem decByte_bytes (hk : k / 3 < n / 4) :
    decByte (m.bytes src n) k = byteOf (sextetsAt m (src + 4 * (k / 3))) (k % 3) := by
  simp only [decByte, sextetsAt]
  rw [Memory.getD_bytes_of_lt (by omega), Memory.getD_bytes_of_lt (by omega), Memory.getD_bytes_of_lt (by omega),
    Memory.getD_bytes_of_lt (by omega)]
  rfl

/-- The padding leaves two characters of the last group, so a group begins with an alphabet character. -/
theorem WF.read_group_ne_nul (hw : WF (m.bytes src n)) (hj : j < n / 4) : m.read (src + 4 * j) ≠ NUL := by
  have htwo := hw.2.1
  exact ne_nul_of_class (hw.classOf_read (by omega))

/-- The groups before the last are full, since the padding is in the last (R111). -/
theorem WF.fullGroups (hw : WF (m.bytes src n)) (hj : j < n / 4) : FullGroups m src j := by
  have htwo := hw.2.1
  refine fun g hg => ⟨hw.read_group_ne_nul (by omega), ?_, ?_⟩
  · exact ne_pad_of_class (hw.classOf_read (q := 4 * g + 2) (by omega))
  · exact ne_pad_of_class (hw.classOf_read (q := 4 * g + 3) (by omega))

theorem decodedLen_bytes (m : Memory) (src n : Nat) :
    decodedLen (m.bytes src n) = 3 * (n / 4) - padCount (m.bytes src n) := by
  rw [decodedLen, Memory.length_bytes]

/-! ### The bytes written -/

/-- Before the last group of a text that the write set does not meet, the text still stands and the bytes of the full
groups are written (R153). -/
theorem decLoop_before_last (h : m.wf = true) (hw : WF (m.bytes src n))
    (hd : ∀ x, (⟨src, n + 1⟩ : Range).Has x → ¬ (⟨dst, decodedLen (m.bytes src n)⟩ : Range).Has x) (hj : j < n / 4)
    {w : Work} (wi : w.ipos = 0) (wo : w.opos = 0) :
    (decLoop src dst j m w).2.ipos = 4 * j ∧ (decLoop src dst j m w).2.opos = 3 * j ∧
      (decLoop src dst j m w).1.wf = true ∧
      (∀ x, src ≤ x → x < src + n → (decLoop src dst j m w).1.read x = m.read x) ∧
      ∀ g < j, ∀ e < 3, (decLoop src dst j m w).1.read (dst + 3 * g + e) = byteOf (sextetsAt m (src + 4 * g)) e := by
  have hlen := decodedLen_bytes m src n
  have htwo := hw.2.1
  have hapart : ∀ x, src ≤ x → x < src + n → ¬ (dst ≤ x ∧ x < dst + 3 * j) := fun x hlo hhi hx =>
    hd x ⟨hlo, by simp only; omega⟩ ⟨hx.1, by simp only; omega⟩
  obtain ⟨hipos, hopos, -, hwf, hframe, hbytes⟩ := decLoop_full src dst j h w (by rw [wi]; exact hw.fullGroups hj)
    (by rw [wi, wo]; exact fun x hlo hhi => hapart x hlo (by omega))
  simp only [wi, wo, Nat.add_zero, Nat.zero_add] at hipos hopos hframe hbytes
  exact ⟨hipos, hopos, hwf, fun x hlo hhi => hframe x (hapart x hlo hhi), hbytes⟩

/-- The bytes DEC leaves are those of the groups it read: the loop wrote those of the groups before the last, and the
last yields what is left of the decoded length. -/
theorem decRun_read (h : m.wf = true) (hw : WF (m.bytes src n))
    (hd : ∀ x, (⟨src, n + 1⟩ : Range).Has x → ¬ (⟨dst, decodedLen (m.bytes src n)⟩ : Range).Has x)
    (hk : k < decodedLen (m.bytes src n)) : (decRun m src dst n).mem.read (dst + k) = decByte (m.bytes src n) k := by
  obtain ⟨-, hyield, -⟩ := decRun_frame h src dst n hw hd
  have hlen := decodedLen_bytes m src n
  obtain ⟨j, hj⟩ : ∃ j, n / 4 = j + 1 := Nat.exists_eq_succ_of_ne_zero (by omega)
  obtain ⟨hipos, hopos, hwf, hkeep, hbytes⟩ := decLoop_before_last h hw hd (show j < n / 4 by omega)
    (w := { Work.clear with slen := n }) rfl rfl
  rw [decByte_bytes (by omega)]
  simp only [decRun, hj, decLoop_add] at hyield ⊢
  generalize decLoop src dst j m { Work.clear with slen := n } = r at *
  have hstart : r.1.read (src + r.2.ipos) ≠ NUL := by
    rw [hipos, hkeep _ (by omega) (by omega)]
    exact hw.read_group_ne_nul (by omega)
  simp only [decLoop, if_neg hstart] at hyield ⊢
  rw [decGroup_opos, hopos] at hyield
  rw [decGroup_read src dst hwf, hopos]
  by_cases hfull : k < 3 * j
  · rw [if_neg (by omega), ← hbytes (k / 3) (by omega) (k % 3) (by omega), Nat.add_assoc, Nat.div_add_mod]
  · rw [if_pos (by omega), hipos, show k / 3 = j by omega, show dst + k - (dst + 3 * j) = k % 3 by omega,
      sextetsAt_congr fun x hlo hhi => hkeep x (by omega) (by omega)]

end Machine
end Sys2Proof
end

section
/-! PROOFS. The statements of 42_decoder.md: the FINISH of DEC, its agreement with VALID, and the texts it refuses. -/

namespace Sys2Proof.Machine

/-- Settles O15: DEC is not refused only for a text that is well-formed (`decVerdict_accepted`). -/
theorem decRefusesWhatIsNotWellFormed : Obligations.DecRefusesWhatIsNotWellFormed := by
  intro s b hb hp hmal
  refine (exec_refused_or_accepted hb hp).resolve_right fun ⟨_, hacc⟩ => ?_
  obtain ⟨n, hn, hw, -⟩ := decVerdict_accepted hacc
  exact hmal _ (textAt_eq_some_iff.mpr ⟨n, hn, rfl⟩) hw

/-- Settles O24: the operation is complete (`decVerdict_eq_complete`), so FINISH leaves the bytes of the groups read
(`decRun_read`), and memory outside the write set as it was (`decRun_frame`). -/
theorem decFinishWritesTheBytes : Obligations.DecFinishWritesTheBytes := by
  intro s b t hwf hb hbusy hstuck ht hw hfits hreads hwrites
  obtain ⟨n, hn, rfl⟩ := textAt_eq_some_iff.mp ht
  rw [Memory.length_bytes] at hreads
  have hv := decVerdict_eq_complete hn hw hfits hreads hwrites
  have hexec : exec .dec s = .next ((s.setMem (decRun s.mem b.sSrc b.sDst n).mem).putBlock s.sel
      (b.finished (decRun s.mem b.sSrc b.sDst n))) := by
    rw [exec_finish hb hbusy, opVerdict, opResult, hv, decResult_eq_decRun hn]
    exact finishOperation_complete hstuck
  have hd := (decVerdict_complete_apart hn hv).2
  obtain ⟨-, -, -, hret, -, hframe⟩ := decRun_frame hwf b.sSrc b.sDst n hw hd
  rw [decSets_eq hn]
  exact ⟨_, _, hexec, State.putBlock_block?_same (s.setMem _) hb _, hret, rfl, Phase.status_done,
    fun k hk => decRun_read hwf hw hd hk, hframe, rfl⟩

/-- Settles O25: both give a well-formed text its decoded length (`decRun_frame`, `validRun_of_wf`), and VALID returns 0
for the texts DEC refuses as malformed (`decVerdict_malformed_iff`) and for the empty one. -/
theorem validatorAndDecoderAgree : Obligations.ValidatorAndDecoderAgree := by
  refine ⟨fun p m src dst hwf hv => ?_, fun p m src dst n hn => ?_⟩
  · obtain ⟨n, hn, -⟩ := decVerdict_complete hv
    obtain ⟨hw, hd⟩ := decVerdict_complete_apart hn hv
    obtain ⟨-, -, -, hret, -⟩ := decRun_frame hwf src dst n hw hd
    rw [decResult_eq_decRun hn, validResult_eq_validRun hn, hret, (validRun_of_wf hw).1, decodedLen_bytes]
  · rw [decVerdict_malformed_iff hn, validResult_eq_validRun hn,
      validReturnsZeroExactlyForEmptyOrMalformed.2 m src n]
    refine ⟨fun hw => ⟨?_, .inr hw⟩, fun ⟨hn0, hor⟩ => hor.resolve_left hn0⟩
    rintro rfl
    exact hw (by decide : WF [])

end Sys2Proof.Machine
end

section
/-! SUPPORT. Each group of a text and of a byte sequence stands for the other but for the bits of missing bytes (R154,
R134): decoding an encoding gives the bytes back, and encoding a decoding keeps the bits that DEC did not discard. -/

namespace Sys2Proof.Machine

variable {bs t u : List Byte} {e g i k missing q : Nat}

/-! ### The groups of a text and of a byte sequence by their parts -/

/-- The group `g` of a text, its padding characters zero (R154). -/
def textGroup (t : List Byte) (g : Nat) : Group :=
  groupOfSextets (revBits (t.getD (4 * g) PAD)) (revBits (t.getD (4 * g + 1) PAD)) (revBits (t.getD (4 * g + 2) PAD))
    (revBits (t.getD (4 * g + 3) PAD))

theorem decByte_eq_byteOf (t : List Byte) (k : Nat) : decByte t k = byteOf (textGroup t (k / 3)) (k % 3) := rfl

theorem sextetOf_textGroup (t : List Byte) (q : Nat) :
    sextetOf (textGroup t (q / 4)) (q % 4) = revBits (t.getD q PAD) := by
  obtain ⟨h0, h1, h2, h3⟩ := sextetOf_groupOfSextets (revBits (t.getD (4 * (q / 4)) PAD))
    (revBits (t.getD (4 * (q / 4) + 1) PAD)) (revBits (t.getD (4 * (q / 4) + 2) PAD))
    (revBits (t.getD (4 * (q / 4) + 3) PAD))
  conv_rhs => rw [← Nat.div_add_mod q 4]
  have hlt := Nat.mod_lt q (show 0 < 4 by decide)
  generalize q % 4 = e at *
  interval_cases e
  exacts [h0, h1, h2, h3]

theorem byteOf_byteGroup (bs : List Byte) (k : Nat) : byteOf (byteGroup bs (k / 3)) (k % 3) = bs.getD k 0 := by
  obtain ⟨h0, h1, h2⟩ := byteOf_groupOfBytes (bs.getD (3 * (k / 3)) 0) (bs.getD (3 * (k / 3) + 1) 0)
    (bs.getD (3 * (k / 3) + 2) 0)
  conv_rhs => rw [← Nat.div_add_mod k 3]
  have hlt := Nat.mod_lt k (show 0 < 3 by decide)
  generalize k % 3 = e at *
  interval_cases e
  exacts [h0, h1, h2]

/-! ### Decoding an encoding -/

/-- The sextets that ENC writes as `=` have no bit of a byte that is there (R133). -/
theorem sextetOf_byteGroup_padding (hg : 3 * g < bs.length) (he : e < 4) (h : bs.length < 3 * g + e) :
    sextetOf (byteGroup bs g) e = 0 := by
  have hzero : ∀ k, bs.length ≤ k → bs.getD k 0 = 0 := fun k hk => List.getD_eq_default _ _ hk
  have hlow := hzero (3 * g + 2) (by omega)
  ext i hi
  rw [getElem_sextetOf, byteGroup, BitVec.getLsbD_eq_getElem (by omega), getElem_groupOfBytes, hlow]
  obtain rfl | rfl : e = 3 ∨ e = 2 := by omega
  · rw [if_pos (by omega)]
    simp
  · rw [hzero (3 * g + 1) (by omega), if_pos (show 18 - 6 * 2 + i < 16 by omega)]
    simp

theorem revBits_getD_encodeBytes (hq : q < encodedLen bs.length) :
    revBits ((encodeBytes bs).getD q PAD) = sextetOf (byteGroup bs (q / 4)) (q % 4) := by
  by_cases hpad : q < encodedLen bs.length - encPadding bs.length
  · exact revBits_encodeBytes hpad
  · have hlen := encodedLen_eq bs.length
    have hreal := (lt_sub_encPadding_iff hq).not.mp hpad
    rw [getD_encodeBytes hq, encChar_of_le (not_lt.mp hpad) hq,
      sextetOf_byteGroup_padding (by split at hlen <;> omega) (Nat.mod_lt q (by decide)) (by omega)]
    rfl

/-- The text of a byte sequence has the groups of the byte sequence (R170). -/
theorem textGroup_encodeBytes (hg : 4 * g < encodedLen bs.length) : textGroup (encodeBytes bs) g = byteGroup bs g := by
  have hmod := encodedLen_mod_four bs.length
  have hsextet : ∀ e < 4, revBits ((encodeBytes bs).getD (4 * g + e) PAD) = sextetOf (byteGroup bs g) e :=
      fun e he => by
    rw [revBits_getD_encodeBytes (by omega), show (4 * g + e) / 4 = g by omega, show (4 * g + e) % 4 = e by omega]
  rw [← groupOfSextets_sextetOf (byteGroup bs g), ← hsextet 0 (by decide), ← hsextet 1 (by decide),
    ← hsextet 2 (by decide), ← hsextet 3 (by decide)]
  rfl

theorem decByte_encodeBytes (hk : k < bs.length) : decByte (encodeBytes bs) k = bs[k] := by
  have hlen := encodedLen_eq bs.length
  rw [decByte_eq_byteOf, textGroup_encodeBytes (by split at hlen <;> omega), byteOf_byteGroup,
    List.getD_eq_getElem _ _ hk]

theorem decodedLen_encodeBytes (bs : List Byte) : decodedLen (encodeBytes bs) = bs.length := by
  rw [decodedLen, padCount_encodeBytes, length_encodeBytes, encodedLen_sub_encPadding]

@[simp] theorem length_decodeText (t : List Byte) : (decodeText t).length = decodedLen t := by
  rw [decodeText, List.length_map, List.length_range]

theorem getElem_decodeText (hk : k < (decodeText t).length) : (decodeText t)[k] = decByte t k := by
  simp only [decodeText, List.getElem_map, List.getElem_range]

@[simp] theorem decodeText_encodeBytes (bs : List Byte) : decodeText (encodeBytes bs) = bs := by
  refine List.ext_getElem (by rw [length_decodeText, decodedLen_encodeBytes]) fun k _ hk => ?_
  rw [getElem_decodeText, decByte_encodeBytes hk]

/-! ### The bits that DEC keeps -/

/-- The bits of a group that belong to a byte, when its last `missing` bytes are not there. -/
def keptBits (missing : Nat) : Group := BitVec.allOnes 24 <<< (8 * missing)

theorem getElem_keptBits (hi : i < 24) : (keptBits missing)[i] = decide (8 * missing ≤ i) := by
  rw [keptBits, BitVec.getElem_shiftLeft, BitVec.getElem_allOnes, Bool.and_true, ← decide_not]
  simp only [not_lt]

theorem sextetOf_and (x y : Group) (e : Nat) : sextetOf (x &&& y) e = sextetOf x e &&& sextetOf y e :=
  BitVec.extractLsb'_and

/-- A sextet above the missing bytes is kept whole. -/
theorem sextetOf_and_keptBits (h : 8 * missing + 6 * e ≤ 18) (x : Group) :
    sextetOf (x &&& keptBits missing) e = sextetOf x e := by
  ext i hi
  rw [getElem_sextetOf, getElem_sextetOf, BitVec.getLsbD_and,
    BitVec.getLsbD_eq_getElem (x := keptBits missing) (by omega), getElem_keptBits, decide_eq_true (by omega),
    Bool.and_true]

theorem getD_decodeText (t : List Byte) (k : Nat) :
    (decodeText t).getD k 0 = if k < decodedLen t then decByte t k else 0 := by
  split
  · next hk => rw [List.getD_eq_getElem _ _ (by simpa using hk), getElem_decodeText]
  · next hk => exact List.getD_eq_default _ _ (by simpa using hk)

/-- A byte sequence decoded from a text has the groups of the text, without the bits of the bytes that are missing
(R154, R134). -/
theorem byteGroup_decodeText (t : List Byte) (g : Nat) :
    byteGroup (decodeText t) g = textGroup t g &&& keptBits (3 * g + 3 - decodedLen t) := by
  have hbyte : ∀ e < 3, (decodeText t).getD (3 * g + e) 0 =
      if 3 * g + e < decodedLen t then byteOf (textGroup t g) e else 0 := fun e he => by
    rw [getD_decodeText, decByte_eq_byteOf, show (3 * g + e) / 3 = g by omega, show (3 * g + e) % 3 = e by omega]
  rw [byteGroup, hbyte 1 (by decide), hbyte 2 (by decide)]
  have h0 := hbyte 0 (by decide)
  rw [Nat.add_zero] at h0
  rw [h0]
  ext i hi
  rw [BitVec.getElem_and, getElem_keptBits, getElem_groupOfBytes]
  grind [getElem_byteOf]

/-! ### Encoding a decoding -/

/-- R115 turned round: a well-formed text has the length and the padding of an encoding of its decoded length (R135,
R136). -/
theorem WF.encodedLen_decodedLen (h : WF t) : encodedLen (decodedLen t) = t.length := by
  obtain ⟨hmod, hpad, -⟩ := h
  have hle := padCount_le t
  have hlen := encodedLen_eq (decodedLen t)
  rw [decodedLen] at hlen ⊢
  split at hlen <;> omega

theorem WF.encPadding_decodedLen (h : WF t) : encPadding (decodedLen t) = padCount t := by
  obtain ⟨hmod, hpad, -⟩ := h
  have hle := padCount_le t
  rw [encPadding, decodedLen]
  omega

theorem WF.length_reencode (h : WF t) : (encodeBytes (decodeText t)).length = t.length := by
  rw [length_encodeBytes, length_decodeText, h.encodedLen_decodedLen]

theorem WF.padCount_reencode (h : WF t) : padCount (encodeBytes (decodeText t)) = padCount t := by
  rw [padCount_encodeBytes, length_decodeText, h.encPadding_decodedLen]

/-- The sextets of a text decoded and encoded are those of the text, without the bits of missing bytes. -/
theorem WF.revBits_reencode (h : WF t) (hq : q < t.length) :
    revBits ((encodeBytes (decodeText t)).getD q PAD) =
      sextetOf (textGroup t (q / 4) &&& keptBits (3 * (q / 4) + 3 - decodedLen t)) (q % 4) := by
  rw [revBits_getD_encodeBytes (by rwa [length_decodeText, h.encodedLen_decodedLen]), byteGroup_decodeText]

/-- Only the last sextet before the padding holds bits of a missing byte. -/
theorem WF.revBits_reencode_eq (h : WF t) (hq : q < t.length - padCount t)
    (hlast : padCount t = 0 ∨ q + padCount t + 1 ≠ t.length) :
    revBits ((encodeBytes (decodeText t)).getD q PAD) = revBits (t.getD q PAD) := by
  have hmod := h.1
  have htwo := h.2.1
  rw [h.revBits_reencode (by omega), sextetOf_and_keptBits (by rw [decodedLen]; omega), sextetOf_textGroup]

/-- The last sextet before the padding loses the bits of the bytes that are missing. -/
theorem WF.revBits_reencode_last (h : WF t) (hq : q + padCount t + 1 = t.length) :
    revBits ((encodeBytes (decodeText t)).getD q PAD) =
      revBits (t.getD q PAD) &&& sextetOf (keptBits (padCount t)) (3 - padCount t) := by
  have hmod := h.1
  have htwo := h.2.1
  rw [h.revBits_reencode (by omega), sextetOf_and, sextetOf_textGroup,
    show 3 * (q / 4) + 3 - decodedLen t = padCount t by rw [decodedLen]; omega,
    show q % 4 = 3 - padCount t by omega]

/-- Before one `=` those are the low two bits. -/
theorem WF.revBits_reencode_one (h : WF t) (hpad : padCount t = 1) :
    revBits ((encodeBytes (decodeText t)).getD (t.length - 2) PAD) =
      revBits (t.getD (t.length - 2) PAD) &&& 0b111100 := by
  have hmod := h.1
  have hle := padCount_le t
  rw [h.revBits_reencode_last (by omega), hpad]
  rfl

/-- Before two `=` those are the low four bits. -/
theorem WF.revBits_reencode_two (h : WF t) (hpad : padCount t = 2) :
    revBits ((encodeBytes (decodeText t)).getD (t.length - 3) PAD) =
      revBits (t.getD (t.length - 3) PAD) &&& 0b110000 := by
  have hmod := h.1
  have hle := padCount_le t
  rw [h.revBits_reencode_last (by omega), hpad]
  rfl

/-! ### Texts character by character -/

theorem getD_padding (hq : t.length - padCount t ≤ q) : t.getD q PAD = PAD := by
  by_cases hlt : q < t.length
  · rw [List.getD_eq_getElem _ _ hlt, getElem_pad hlt hq]
  · exact List.getD_eq_default _ _ (not_lt.mp hlt)

/-- A character before the padding of a well-formed text is the one of its sextet (R94). -/
theorem WF.alpha_revBits_getD (h : WF t) (hq : q < t.length - padCount t) :
    alpha (revBits (t.getD q PAD)) = t.getD q PAD := by
  rw [List.getD_eq_getElem _ _ (by omega)]
  exact alpha_revBits (h.classOf_eq hq)

/-- Well-formed texts of one length and one padding agree at a character where their sextets do. -/
theorem WF.getElem?_eq_of_revBits (hu : WF u) (ht : WF t) (hlen : u.length = t.length)
    (hpad : padCount u = padCount t)
    (hbits : q < t.length - padCount t → revBits (u.getD q PAD) = revBits (t.getD q PAD)) : u[q]? = t[q]? := by
  have hchar : u.getD q PAD = t.getD q PAD := by
    by_cases hq : q < t.length - padCount t
    · rw [← ht.alpha_revBits_getD hq, ← hbits hq, hu.alpha_revBits_getD (by rwa [hlen, hpad])]
    · rw [getD_padding (not_lt.mp hq), getD_padding (by omega)]
  by_cases hq : q < t.length
  · rw [List.getD_eq_getElem _ _ hq, List.getD_eq_getElem _ _ (hlen ▸ hq)] at hchar
    rw [List.getElem?_eq_getElem hq, List.getElem?_eq_getElem (hlen ▸ hq), hchar]
  · rw [List.getElem?_eq_none (by omega), List.getElem?_eq_none (by omega)]

theorem WF.getElem?_reencode (h : WF t)
    (hbits : q < t.length - padCount t → revBits ((encodeBytes (decodeText t)).getD q PAD) = revBits (t.getD q PAD)) :
    (encodeBytes (decodeText t))[q]? = t[q]? :=
  (wf_encodeBytes _).getElem?_eq_of_revBits h h.length_reencode h.padCount_reencode hbits

/-! ### Canonical texts -/

theorem and_eq_self_of_low_two : ∀ v : Sextet, v.extractLsb' 0 2 = 0 → v &&& 0b111100 = v := by decide

theorem and_eq_self_of_low_four : ∀ v : Sextet, v.extractLsb' 0 4 = 0 → v &&& 0b110000 = v := by decide

/-- A canonical text loses no bit: those that would be cleared are zero (R174). -/
theorem WF.revBits_reencode_of_canonical (h : WF t) (hc : Canonical t) (hq : q < t.length - padCount t) :
    revBits ((encodeBytes (decodeText t)).getD q PAD) = revBits (t.getD q PAD) := by
  have htwo := h.2.1
  by_cases hlast : padCount t = 0 ∨ q + padCount t + 1 ≠ t.length
  · exact h.revBits_reencode_eq hq hlast
  · obtain hpad | hpad : padCount t = 1 ∨ padCount t = 2 := by omega
    · obtain rfl : q = t.length - 2 := by omega
      rw [h.revBits_reencode_one hpad, and_eq_self_of_low_two _ (hc.2 hpad)]
    · obtain rfl : q = t.length - 3 := by omega
      rw [h.revBits_reencode_two hpad, and_eq_self_of_low_four _ (hc.1 hpad)]

theorem WF.encodeBytes_decodeText (h : WF t) (hc : Canonical t) : encodeBytes (decodeText t) = t :=
  List.ext_getElem? fun _ => h.getElem?_reencode (h.revBits_reencode_of_canonical hc)

end Sys2Proof.Machine
end

section
/-! PROOFS. The statements of 43_laws.md: the round trips of bytes and of texts. -/

namespace Sys2Proof.Machine

/-- Settles O29: group by group the text of an encoding holds the bytes encoded (`textGroup_encodeBytes`). -/
theorem decodingAnEncodingGivesTheBytesBack : Obligations.DecodingAnEncodingGivesTheBytesBack := fun bs =>
  ⟨wf_encodeBytes bs, decodeText_encodeBytes bs, length_encodeBytes bs, decodedLen_encodeBytes bs⟩

/-- Settles O30: an encoding is canonical, and a canonical text has no bit to lose
(`WF.revBits_reencode_of_canonical`). -/
theorem textRoundTripExactlyWhenCanonical : Obligations.TextRoundTripExactlyWhenCanonical := fun _ hw =>
  ⟨fun h => h ▸ canonical_encodeBytes _, hw.encodeBytes_decodeText⟩

/-- Settles O31: decoding is a left inverse of encoding, and on canonical texts a right inverse. -/
theorem everyCanonicalTextIsOneEncoding : Obligations.EveryCanonicalTextIsOneEncoding := by
  refine ⟨Function.LeftInverse.injective decodeText_encodeBytes, fun t hw hc bs => ⟨?_, ?_⟩⟩
  · rintro rfl
    exact (decodeText_encodeBytes bs).symm
  · rintro rfl
    exact hw.encodeBytes_decodeText hc

/-- Settles O32: encoding a decoding keeps the bits of a byte that is there (`byteGroup_decodeText`), which are all but
those of the last sextet before the padding that the two masks clear. -/
theorem reencodingClearsTheDiscardedBits : Obligations.ReencodingClearsTheDiscardedBits := fun _ hw =>
  ⟨hw.length_reencode, hw.padCount_reencode,
    fun _ _ hlast => hw.getElem?_reencode fun hq => hw.revBits_reencode_eq hq hlast,
    hw.revBits_reencode_one, hw.revBits_reencode_two, decodeText_encodeBytes _⟩

end Sys2Proof.Machine
end

section
/-! SUPPORT. With no event in the way one of the operations still to finish has its turn (R33, R226), and one fewer is
left afterwards. -/

namespace Sys2Proof.Machine

variable {s : State} {k : Nat} {b : Block} {i : Instr}

/-! ### Which block has its turn -/

theorem Block.runnable_eq_true_iff (b : Block) : b.runnable = true ↔ b.phase = .busy ∧ b.job.stuck = false := by
  simp [Block.runnable]

/-- There is no event to come, or the host waits for a block that is not DONE. -/
def State.NoEventInTheWay (s : State) : Prop :=
  s.script = [] ∨ ∃ k rest x, s.script = .wait k :: rest ∧ s.block? k = some x ∧ x.phase ≠ .done

/-- The step is the turn of a block whose FINISH is still to come. -/
def State.StepsARunnable (s : State) : Prop :=
  ∃ k b, s.block? k = some b ∧ b.runnable = true ∧ step s = blockTurn s k

/-- Where a block has its FINISH still to come, a quiet turn is the turn of such a block. -/
theorem stepsARunnable_of_quietTurn (hstep : step s = quietTurn s) (hrun : ∃ b ∈ s.blocks, b.runnable = true) :
    s.StepsARunnable := by
  cases hfirst : s.blocks.findIdx? Block.runnable with
  | none =>
    obtain ⟨b, hb, hbrun⟩ := hrun
    exact absurd hbrun (by simp [List.findIdx?_eq_none_iff.mp hfirst b hb])
  | some k =>
    obtain ⟨hk, hkrun, -⟩ := List.findIdx?_eq_some_iff_getElem.mp hfirst
    exact ⟨k, _, List.getElem?_eq_getElem hk, hkrun, by simp only [hstep, quietTurn, hfirst]⟩

/-- Whatever the host waits for, a block whose FINISH is still to come has its turn (R226). -/
theorem State.NoEventInTheWay.stepsARunnable (h : s.NoEventInTheWay) (hrun : ∃ b ∈ s.blocks, b.runnable = true) :
    s.StepsARunnable := by
  obtain hs | ⟨k, rest, x, hs, hx, hnot⟩ := h
  · exact stepsARunnable_of_quietTurn (step_quiet hs) hrun
  · cases hp : x.phase with
    | idle => exact stepsARunnable_of_quietTurn (step_wait_of_idle hs hx hp) hrun
    | done => exact absurd hp hnot
    | busy =>
      cases hstuck : x.job.stuck with
      | true => exact stepsARunnable_of_quietTurn (step_wait_of_stuck hs hx hp hstuck) hrun
      | false =>
        exact ⟨k, x, hx, x.runnable_eq_true_iff.mpr ⟨hp, hstuck⟩, step_wait_of_runnable hs hx hp hstuck⟩

/-! ### What its turn leaves -/

/-- In a state of the two invariants a block with its FINISH still to come takes it at its turn (R33, R61). -/
theorem State.Finishing.blockTurn_eq (hf : s.Finishing k b i) (hkept : s.BuffersKept) :
    blockTurn s k = .next (((s.select k).setMem (b.resultOf i s.params s.mem).mem).putBlock k
      (b.finished (b.resultOf i s.params s.mem))) := by
  obtain ⟨hv, -⟩ := hkept.fresh k b i hf.found hf.busy hf.notStuck hf.runs
  have hexec := exec_finish (i := i) (s := s.select k) hf.found hf.busy
  simp only [State.select_params, State.select_mem, hv] at hexec
  rw [blockTurn_busy hf.found hf.busy hf.runs, hexec, finishOperation_complete hf.notStuck]
  rfl

/-- A FINISH leaves one fewer to come. -/
theorem countP_runnable_finished (hb : s.block? k = some b) (hrun : b.runnable = true) (r : Result) :
    (s.blocks.set k (b.finished r)).countP Block.runnable + 1 = s.blocks.countP Block.runnable := by
  obtain ⟨hk, hget⟩ := List.getElem?_eq_some_iff.mp hb
  have hpos : 0 < s.blocks.countP Block.runnable := List.countP_pos_iff.mpr ⟨b, s.block?_mem hb, hrun⟩
  have hfin : (b.finished r).runnable = false := rfl
  rw [List.countP_set hk, hget, if_pos hrun, if_neg (by simp [hfin])]
  omega

end Sys2Proof.Machine
end

section
/-! SUPPORT. A START whose operands are not all written (R37), a reset (R211, R212), and register accesses while BUSY
and in DONE (R32, R39). -/

namespace Sys2Proof.Machine

variable {s : State} {k : Nat} {rest : List Event} {b : Block} {i : Instr}

/-! ### Operands not written -/

/-- The use of the operand registers, by operation (R38). -/
theorem Block.operandsWritten_iff (b : Block) (i : Instr) : b.OperandsWritten i ↔
    b.src.written = true ∧ (i ≠ .valid → b.dst.written = true) ∧ (i = .enc → b.len.written = true) := by
  cases i <;> simp [Block.OperandsWritten, operandUse]

theorem exec_refused_of_unwritten (hb : s.block? s.sel = some b) (hp : b.phase ≠ .busy) (hw : ¬ b.OperandsWritten i) :
    exec i s = .refused .unwrittenOperand :=
  (exec_start hb hp).trans (if_pos hw)

/-! ### Reset -/

theorem step_reset (hs : s.script = .reset k :: rest) : step s = resetBlock (s.setScript rest) k := by
  simp only [step, hs, takeEvent]

/-- A reset puts `Block.reset` in place of the block, and changes memory in the write set of its BUSY operation only
(R211, R212). -/
theorem resetBlock_eq (hb : s.block? k = some b) (hm : s.mem.wf = true) : ∃ m n,
    resetBlock s k = .next (((s.setMem m).putBlock k .reset).draw n) ∧ (b.phase ≠ .busy → m = s.mem) ∧
      ∀ a, ¬ b.job.sets.writes.Has a → m.read a = s.mem.read a := by
  by_cases hp : b.phase = .busy
  · exact ⟨s.mem.scramble b.job.sets.writes.lo s.draws b.job.sets.writes.len, b.job.sets.writes.len,
      by simp only [resetBlock, hb, if_pos hp], fun h => absurd hp h, Memory.read_scramble_outside hm _ _ _⟩
  · exact ⟨s.mem, 0, by simp only [resetBlock, hb, if_neg hp]; rfl, fun _ => rfl, fun _ _ => rfl⟩

/-! ### Registers while BUSY, and RET after STATUS -/

section BusyReads

variable (hb : s.block? k = some b) (hbusy : b.phase = .busy)
include hb hbusy

theorem step_rd_status_of_busy (hs : s.script = .rd k 5 :: rest) :
    step s = .next ((s.setScript rest).observe (.reg k .status 0x01)) := by
  rw [step_rd hs, hostRead_status (s := s.setScript rest) hb, readStatus_busy hbusy]

theorem step_rd_ret_of_busy (hs : s.script = .rd k 4 :: rest) :
    step s = .next (((s.setScript rest).observe
      (.reg k .ret (Config.freeWord s.params.aw s.draws).toNat)).draw 1) := by
  rw [step_rd hs, hostRead_ret (s := s.setScript rest) hb, readRet_of_not_done (by simp [hbusy])]
  rfl

theorem step_wr_refused_of_busy {reg v : Nat} (hs : s.script = .wr k reg v :: rest) : ∃ r, step s = .refused r :=
  step_wr hs ▸ hostWrite_refused_of_busy (s := s.setScript rest) hb hbusy reg v

end BusyReads

/-- CMD holds no state, so a read of it gives any value in every phase (R21). -/
theorem step_rd_cmd (hb : s.block? k = some b) (hs : s.script = .rd k 0 :: rest) :
    step s = .next (((s.setScript rest).observe (.reg k .cmd (Config.freeByte s.draws).toNat)).draw 1) := by
  rw [step_rd hs, hostRead_cmd (s := s.setScript rest) hb]
  rfl

/-- The host reads STATUS and then RET of a block in DONE (R39). -/
theorem steps_rd_status_ret_of_done (hb : s.block? k = some b) (hdone : b.phase = .done)
    (hs : s.script = .rd k 5 :: .rd k 4 :: rest) :
    ∃ t : State, steps 2 s = .next t ∧ t.script = rest ∧
      t.seen = .reg k .ret b.ret :: .reg k .status 0x02 :: s.seen := by
  have hstatus := step_rd_status_of_done hb hdone hs
  have hb' := State.putBlock_block?_same ((s.setScript (.rd k 4 :: rest)).observe (.reg k .status 0x02)) hb b.doneRead
  exact ⟨_, (steps_succ 1 hstatus).trans (steps_succ 0 (step_rd_ret_of_done hb' hdone rfl)), rfl, rfl⟩

end Sys2Proof.Machine
end

section
/-! PROOFS. The statements of 70_reset_and_hazards.md: which operations finish, unwritten operands, reset, and the
registers of a BUSY block. -/

namespace Sys2Proof.Machine

/-- Settles O52: the step is the turn of a block whose FINISH is still to come
(`State.NoEventInTheWay.stepsARunnable`), and the two invariants have it complete (`State.Finishing.blockTurn_eq`). -/
theorem waitingLetsEveryOperationFinish : Obligations.WaitingLetsEveryOperationFinish := by
  rintro s hinv hkept hway ⟨x, hx, hxbusy, hxstuck⟩
  obtain ⟨k, b, hb, hrun, hstep⟩ := State.NoEventInTheWay.stepsARunnable hway
    ⟨x, hx, x.runnable_eq_true_iff.mpr ⟨hxbusy, hxstuck⟩⟩
  obtain ⟨hbusy, hstuck⟩ := b.runnable_eq_true_iff.mp hrun
  obtain ⟨i, hr⟩ := exists_op ((hinv.block?_wf hb).op hbusy)
  have hf : s.Finishing k b i := ⟨hb, hbusy, hstuck, hr⟩
  exact ⟨_, k, b, _, hstep.trans (hf.blockTurn_eq hkept), rfl, hb, hbusy, State.putBlock_block?_same _ hb _, rfl,
    countP_runnable_finished hb hrun _⟩

/-- Settles O11: START refuses an operation whose operands are not all written before it looks at anything else. -/
theorem startWithUnwrittenOperandIsRefused : Obligations.StartWithUnwrittenOperandIsRefused := by
  intro i s b hb hp hunwritten
  refine exec_refused_of_unwritten hb hp fun hw => ?_
  obtain ⟨hsrc, hdst, hlen⟩ := (b.operandsWritten_iff i).mp hw
  obtain h | ⟨hi, h⟩ | ⟨hi, h⟩ := hunwritten
  · simp [hsrc] at h
  · simp [hdst hi] at h
  · simp [hlen hi] at h

/-- Settles O38: the block becomes `Block.reset`, and only a BUSY operation's write set is scrambled
(`resetBlock_eq`). -/
theorem resetAbandonsTheOperation : Obligations.ResetAbandonsTheOperation := by
  intro s k b rest hm hs hb
  obtain ⟨m, n, hreset, hidle, houtside⟩ := resetBlock_eq (s := s.setScript rest) hb hm
  exact ⟨_, .reset, (step_reset hs).trans hreset, State.putBlock_block?_same ((s.setScript rest).setMem m) hb _, rfl,
    Phase.status_idle, rfl, rfl, rfl, fun j hj => State.putBlock_block?_other ((s.setScript rest).setMem m) hj _, rfl,
    rfl, hidle, houtside⟩

/-- Settles O55: the accesses to a BUSY block one by one, then STATUS and RET of a block in DONE. -/
theorem registersAreLeftAloneWhileBusy : Obligations.RegistersAreLeftAloneWhileBusy := by
  intro s k rest b hb
  refine ⟨fun hbusy => ⟨?status, ?write, ?ret, ?cmd⟩, fun hdone => steps_rd_status_ret_of_done hb hdone⟩
  case status => exact step_rd_status_of_busy hb hbusy
  case write => exact fun reg v => step_wr_refused_of_busy hb hbusy
  case ret => exact step_rd_ret_of_busy hb hbusy
  case cmd => exact step_rd_cmd hb

end Sys2Proof.Machine
end
